-- ==== Sys2Proof/Word.lean ====
section
/-! DEFINITION. The units the hardware moves: bits, bytes, 7-bit register indices, the 16-bit product id
(spec/00_scope.md R7, R10; spec/30_encoding.md R81). -/

namespace Sys2Proof

/-- A level on a line or one bit of a frame: `true` is 1 (high), `false` is 0 (low) (R10). -/
abbrev Bit := Bool

/-- `BYTE_BITS = 8` (R7): a payload byte, a breakpoint address byte, a control byte. -/
abbrev Byte := BitVec 8

/-- `ADDR_BITS = 7` (R7): a register index of the target's write space or read space (R50). -/
abbrev RegIdx := BitVec 7

/-- The 16-bit unsigned value of READ_PRODUCT_ID (R130). -/
abbrev Word16 := BitVec 16

/-- An opaque pin identifier (R6): the controller never looks inside. -/
abbrev PinId := Nat

end Sys2Proof
end

