-- ==== Sys2Proof/Config.lean ====
section
/-! DEFINITION. What an implementation fixes and what the spec leaves open: the structural constants of R7, the
named parameters of R8 with the defaults of R53 and R133, and the free values (R60, R41, R53). -/

namespace Sys2Proof

/-- The five CPU register groups of R134 and R135 (R133). -/
inductive Group where
  | mbaseFA
  | bcuBC
  | deuDE
  | ix
  | iy
  deriving DecidableEq, Repr

/-- The configuration of one register group (R133): `G_RD_REG(g)`, `G_WR_REG(g)`, `G_LEN(g)`. -/
structure GroupParams where
  rdReg : RegIdx
  wrReg : RegIdx
  len   : Nat
  deriving DecidableEq, Repr

/-- The register-map parameters of R8 and R53, one for each row of R53's table. Every index has 7 bits, so that it lies in
0..127 as R8 demands; the mask has 8 bits. No burst names `R_ID_H`, the register the second byte of READ_PRODUCT_ID comes
from (R130), `R_RD_H/U`, `W_WR_DATA_H/U`, `W_RW_CTL` or the instruction-store slots `W_IS4` to `W_IS0`: a burst sends its
start index only (R58), and the start of an injection is `IS_BASE` (R155). `R_RD_L` and `W_WR_DATA_L` are what the group
parameters default to (R133). -/
structure RegMap where
  wAddrL      : Vector RegIdx 4
  wAddrH      : Vector RegIdx 4
  wAddrU      : Vector RegIdx 4
  wBrkCtl     : RegIdx
  wMasterCtl  : RegIdx
  wWrDataL    : RegIdx
  wWrDataH    : RegIdx
  wWrDataU    : RegIdx
  wRwCtl      : RegIdx
  wIs         : Vector RegIdx 5   -- index i is `W_IS<i>`
  wWrMem      : RegIdx
  rIdL        : RegIdx
  rIdH        : RegIdx
  rIdRev      : RegIdx
  rStat       : RegIdx
  rRdL        : RegIdx
  rRdH        : RegIdx
  rRdU        : RegIdx
  rRdMem      : RegIdx
  mbaseFA     : GroupParams
  bcuBC       : GroupParams
  deuDE       : GroupParams
  ix          : GroupParams
  iy          : GroupParams
  spRdReg     : RegIdx
  spWrReg     : RegIdx
  isBase      : RegIdx
  statAdlMask : Byte
  deriving DecidableEq, Repr

/-- The parameters of group `g` (R133). -/
def RegMap.group (m : RegMap) : Group → GroupParams
  | .mbaseFA => m.mbaseFA
  | .bcuBC   => m.bcuBC
  | .deuDE   => m.deuDE
  | .ix      => m.ix
  | .iy      => m.iy

namespace Config

/-- `RESET_CMD` (R7, D20): a constant, not a parameter. -/
abbrev resetCmd : Byte := 0xF0

/-- `MAX_OPCODES` (R7). -/
abbrev maxOpcodes : Nat := 5

/-- `NSLOTS` (R7). -/
abbrev nSlots : Nat := 4

/-- `DELAY_FACTOR` (R7): `DELAY = 3 / F_TARGET` (R6). -/
abbrev delayFactor : Rat := 3

/-- The defaults of R133 for each of the five groups, given `R_RD_L` and `W_WR_DATA_L`. PRESUMED (U1; log 4). -/
def defaultGroup (rRdL wWrDataL : RegIdx) : GroupParams := { rdReg := rRdL, wrReg := wWrDataL, len := 3 }

/-- The default register map of R53 and R133, given a value for `IS_BASE`, which has no default (R53, U9).
PRESUMED (the spec's own general knowledge, U1; log 4). -/
def defaultMap (isBase : RegIdx) : RegMap where
  wAddrL      := #v[0x00, 0x04, 0x08, 0x0C]
  wAddrH      := #v[0x01, 0x05, 0x09, 0x0D]
  wAddrU      := #v[0x02, 0x06, 0x0A, 0x0E]
  wBrkCtl     := 0x10
  wMasterCtl  := 0x11
  wWrDataL    := 0x13
  wWrDataH    := 0x14
  wWrDataU    := 0x15
  wRwCtl      := 0x16
  wIs         := #v[0x25, 0x24, 0x23, 0x22, 0x21]
  wWrMem      := 0x30
  rIdL        := 0x00
  rIdH        := 0x01
  rIdRev      := 0x02
  rStat       := 0x03
  rRdL        := 0x10
  rRdH        := 0x11
  rRdU        := 0x12
  rRdMem      := 0x20
  mbaseFA     := defaultGroup 0x10 0x13
  bcuBC       := defaultGroup 0x10 0x13
  deuDE       := defaultGroup 0x10 0x13
  ix          := defaultGroup 0x10 0x13
  iy          := defaultGroup 0x10 0x13
  spRdReg     := 0x10
  spWrReg     := 0x13
  isBase      := isBase
  statAdlMask := 0x10

/-- `IS_BASE`, OPEN (R53, D19): a free constant, log 5. -/
opaque isBase : RegIdx

/-- The level ZDA shows at the n-th `Sense` for which no answer was given: any value (R60, D11, U3), log 6. -/
opaque lineLevel : Nat → Bit

/-- What a line shows at the n-th event of the trace where the controller does not say: the level the target samples at a
rising edge of ZCL when the controller does not drive ZDA (R95 gives it only for the drive role); whether a role switch at
a high clock looks like a START (R98, R234); the level of ZCL before its `Acquire` (R221). Any value, log 31. -/
opaque undriven : Nat → Bit

/-- Numerator of the time the n-th event takes beyond its minimum: free (R41, D12), log 11. -/
opaque slackNum : Nat → Nat

/-- One less than the denominator of that time: free (R41, D12), log 11. -/
opaque slackDen : Nat → Nat

/-- The time in seconds the n-th event of the trace takes beyond its minimum: any rational not below 0 (R41, D12),
log 11. -/
def slack (n : Nat) : Rat := mkRat (slackNum n) (slackDen n + 1)

end Config

end Sys2Proof
end

