-- ==== Sys2Proof/Syntax.lean ====
section
/-! DEFINITION. What is written down about the hardware: pin events, frames, entries of the command port, the symbols
of the wire encodings, and the one inductive of instructions, a constructor for each row of spec/opcode_table.json. -/

namespace Sys2Proof

/-- The two lines (R14). -/
inductive Line where
  | zcl   -- the clock line
  | zda   -- the shared data line
  deriving DecidableEq, Repr

/-- The electrical role of ZDA at the controller (R25). -/
inductive Role where
  | driving
  | sensing
  deriving DecidableEq, Repr

/-- A pin event (R40). `sense` is always on ZDA and carries the level the target supplied; `sleep` is always
`Sleep(DELAY)`. -/
inductive Event where
  | acquire (l : Line)
  | release (l : Line)
  | drive (l : Line) (v : Bit)
  | sense (v : Bit)
  | sleep
  | setRole (r : Role)
  deriving DecidableEq, Repr

/-- A completed burst (R42): `WriteFrame(a, bs)` or `ReadFrame(a, n, bs)`. -/
inductive Frame where
  | write (a : RegIdx) (bs : List Byte)
  | read (a : RegIdx) (n : Nat) (bs : List Byte)
  deriving DecidableEq, Repr

/-- A typed operand at the command port (R81): opaque pin identifiers, a frequency, unbounded integers, an optional
integer (the spec's `byte?`), a boolean, a list of 8-bit values (D26). -/
inductive Operand where
  | pin (n : PinId)
  | freq (f : Rat)
  | int (n : Int)
  | optInt (n : Option Int)
  | bool (b : Bool)
  | bytes (bs : List Byte)
  deriving DecidableEq, Repr

/-- One command at the command port (R80): a selector and the operands as typed values. -/
structure Command where
  selector : Byte
  operands : List Operand
  deriving DecidableEq, Repr

/-- A symbol of the `encoding` column of spec/opcode_table.json. -/
inductive Sym where
  | start            -- `s`: the START condition
  | drive (v : Bit)  -- `v`, `a`, `d`, `f`, `0`, `1`: a bit the controller drives at one clock pulse
  | fall             -- `c`: the falling clock edge between two pulses
  | sensed           -- `r`: a clock pulse whose bit the target drives
  | turn (r : Role)  -- `t`: turnaround of ZDA
  | endMark          -- `e`: end mark of a burst
  deriving DecidableEq, Repr

/-- An encoded operation, by the `format` column of spec/opcode_table.json: CMD, LINK, W, R, FRAMER, SESSION. -/
inductive Encoded where
  | cmd (c : Command)
  | link (y : Sym)
  | w (ys : List Sym)
  | r (ys : List Sym)
  | framer (y : Sym)
  | session (ys : List Sym)
  deriving DecidableEq, Repr

/-- The operations of the controller: the 25 host commands of R81, then the 9 internal operations, one constructor for
each row of spec/opcode_table.json. Integer operands are unbounded and range-checked when the operation runs (D26). -/
inductive Instr where
  | linkOpen (clkPin dataPin : PinId) (fTarget : Rat)
  | close
  | readProductId
  | readProductRevision
  | readMbaseFA
  | writeMbaseFA (bs : List Byte)
  | readBcuBC
  | writeBcuBC (bs : List Byte)
  | readDeuDE
  | writeDeuDE (bs : List Byte)
  | readIx
  | writeIx (bs : List Byte)
  | readIy
  | writeIy (bs : List Byte)
  | readSp
  | writeSp (bs : List Byte)
  | readMem (count : Int)
  | writeMem (bs : List Byte)
  | executeInstructions (ops : List Byte)
  | reset
  | setBreakpoint (id addrUpper addrHigh : Int) (addrLow : Option Int)
  | disableBreakpoint (id : Int)
  | breakNow
  | continueAfterBreak (singleStep : Bool)
  | getBreakpointState
  | start
  | writeBit (v : Bit)
  | clockLow
  | readBit
  | setDataDirection (r : Role)
  | writeBurst (a : Int) (bs : List Byte)
  | readBurst (a count : Int)
  | endBurst
  | readStatus
  deriving DecidableEq, Repr

/-- Whether the operation is a host command, one with a selector (R81). -/
def Instr.isHostCommand : Instr → Bool
  | .linkOpen _ _ _ => true
  | .close => true
  | .readProductId => true
  | .readProductRevision => true
  | .readMbaseFA => true
  | .writeMbaseFA _ => true
  | .readBcuBC => true
  | .writeBcuBC _ => true
  | .readDeuDE => true
  | .writeDeuDE _ => true
  | .readIx => true
  | .writeIx _ => true
  | .readIy => true
  | .writeIy _ => true
  | .readSp => true
  | .writeSp _ => true
  | .readMem _ => true
  | .writeMem _ => true
  | .executeInstructions _ => true
  | .reset => true
  | .setBreakpoint _ _ _ _ => true
  | .disableBreakpoint _ => true
  | .breakNow => true
  | .continueAfterBreak _ => true
  | .getBreakpointState => true
  | .start => false
  | .writeBit _ => false
  | .clockLow => false
  | .readBit => false
  | .setDataDirection _ => false
  | .writeBurst _ _ => false
  | .readBurst _ _ => false
  | .endBurst => false
  | .readStatus => false

end Sys2Proof
end

