-- ==== Sys2Proof/WellFormed.lean ====
section
/-! DEFINITION. Which operations can be encoded (R82): "a register index outside 0..127 cannot be encoded in seven
bits; a burst with no payload byte has no end mark". Every host command is well formed whatever its operands: a bad
operand is answered by a ContractViolation when the command runs (R191), and is no ill-formed command. -/

namespace Sys2Proof

/-- The register index fits in seven bits (R82). -/
def regEncodable (a : Int) : Bool := decide (0 ≤ a) && decide (a ≤ 127)

/-- The operation has an encoding (R82). -/
def Instr.wellFormed : Instr → Bool
  | .writeBurst a bs => regEncodable a && !bs.isEmpty
  | .readBurst a count => regEncodable a && decide (1 ≤ count)
  | .linkOpen _ _ _ => true
  | .close => true
  | .readProductId => true
  | .readProductRevision => true
  | .readMbaseFA => true
  | .writeMbaseFA _ => true
  | .readBcuBC => true
  | .writeBcuBC _ => true
  | .readDeuDE => true
  | .writeDeuDE _ => true
  | .readIx => true
  | .writeIx _ => true
  | .readIy => true
  | .writeIy _ => true
  | .readSp => true
  | .writeSp _ => true
  | .readMem _ => true
  | .writeMem _ => true
  | .executeInstructions _ => true
  | .reset => true
  | .setBreakpoint _ _ _ _ => true
  | .disableBreakpoint _ => true
  | .breakNow => true
  | .continueAfterBreak _ => true
  | .getBreakpointState => true
  | .start => true
  | .writeBit _ => true
  | .clockLow => true
  | .readBit => true
  | .setDataDirection _ => true
  | .endBurst => true
  | .readStatus => true

end Sys2Proof
end

