-- ==== Sys2Proof/Decode.lean ====
section
/-! DEFINITION. Encodings (spec/30_encoding.md, spec/41_framer.md section 1): bit lists, the command port, the symbols
of the wire formats, the event grammar of a burst and its parser. Decoders first, then the encoders; all total. -/

namespace Sys2Proof

/-! ## Bit lists (R110, R111) -/

/-- `number_to_bits(n, w)`: the bits of `n` for `0 <= n < 2^w`, most significant first (R110). For a larger `n`, where
R110 gives no value (D26), the low `w` bits: DESIGN CHOICE, log 30. -/
def numberToBits (n : Nat) : Nat → List Bit
  | 0 => []
  | w + 1 => n.testBit w :: numberToBits n w

/-- `bits_to_number(bs)`: the first element is the most significant bit (R111). -/
def bitsToNumber : List Bit → Nat
  | [] => 0
  | b :: bs => b.toNat * 2 ^ bs.length + bitsToNumber bs

/-- The eight bits of a payload byte in wire order (R74). -/
def byteBits (b : Byte) : List Bit := numberToBits b.toNat 8

/-- The seven bits of a register index in wire order (R71, R72). -/
def regBits (a : RegIdx) : List Bit := numberToBits a.toNat 7

/-- A byte assembled from its bits in wire order (R74). -/
def byteOfBits (bs : List Bit) : Byte := BitVec.ofNat 8 (bitsToNumber bs)

/-- A register index assembled from its bits in wire order (R73). -/
def regOfBits (bs : List Bit) : RegIdx := BitVec.ofNat 7 (bitsToNumber bs)

/-- The header byte of a burst, `hdr = a * 2 + dir` (R73). -/
def headerByte (a : RegIdx) (dir : Bit) : Byte := BitVec.ofNat 8 (a.toNat * 2 + dir.toNat)

/-! ## Decoding the command port (R80, R81, R87) -/

/-- Why something is no encoding of an operation. -/
inductive DecodeError where
  /-- The selector is not assigned (R87). -/
  | unknownSelector (selector : Byte)
  /-- The operands are not of the types R81 gives the selector; no such command can be expressed at the port (R80). -/
  | operandTypes (selector : Byte)
  /-- The symbol is not the encoding of a Link primitive. -/
  | notLink
  /-- The symbol is not the end mark. -/
  | notFramer
  /-- The symbols are no write burst: header, direction 0, then separator 1 and eight bits for each byte (R71). -/
  | notWriteBurst
  /-- The symbols are no read burst: header, direction 1, then eight read pulses and a written bit for each byte (R72). -/
  | notReadBurst
  /-- The symbols are not the status read (R132). -/
  | notStatusRead
  deriving DecidableEq, Repr

/-- One row of the selector table R81: the selector and how typed operands make the command. -/
structure PortRow where
  selector : Byte
  build    : List Operand → Option Instr

/-- A command without operands. -/
def PortRow.plain (selector : Byte) (i : Instr) : PortRow where
  selector := selector
  build
    | [] => some i
    | _ => none

/-- A command with one list of bytes. -/
def PortRow.withBytes (selector : Byte) (f : List Byte → Instr) : PortRow where
  selector := selector
  build
    | [.bytes bs] => some (f bs)
    | _ => none

/-- A command with one integer. -/
def PortRow.withInt (selector : Byte) (f : Int → Instr) : PortRow where
  selector := selector
  build
    | [.int n] => some (f n)
    | _ => none

/-- The selector table (R81). CONTINUE_AFTER_BREAK without operand is CONTINUE_AFTER_BREAK false (R85). -/
def portTable : List PortRow := [
  { selector := 0x00,
    build := fun
      | [.pin c, .pin d, .freq f] => some (.linkOpen c d f)
      | _ => none },
  .plain 0x01 .close,
  .plain 0x20 .readProductId,
  .plain 0x21 .readProductRevision,
  .plain 0x30 .readMbaseFA,
  .withBytes 0x31 .writeMbaseFA,
  .plain 0x32 .readBcuBC,
  .withBytes 0x33 .writeBcuBC,
  .plain 0x34 .readDeuDE,
  .withBytes 0x35 .writeDeuDE,
  .plain 0x36 .readIx,
  .withBytes 0x37 .writeIx,
  .plain 0x38 .readIy,
  .withBytes 0x39 .writeIy,
  .plain 0x3A .readSp,
  .withBytes 0x3B .writeSp,
  .withInt 0x3C .readMem,
  .withBytes 0x3D .writeMem,
  .withBytes 0x40 .executeInstructions,
  .plain 0x41 .reset,
  { selector := 0x50,
    build := fun
      | [.int i, .int u, .int h, .optInt l] => some (.setBreakpoint i u h l)
      | _ => none },
  .withInt 0x51 .disableBreakpoint,
  .plain 0x52 .breakNow,
  { selector := 0x53,
    build := fun
      | [] => some (.continueAfterBreak false)
      | [.bool b] => some (.continueAfterBreak b)
      | _ => none },
  .plain 0x54 .getBreakpointState]

/-- The command a port entry stands for (R80, R81), or why it stands for none. -/
def decodeCommand (c : Command) : Except DecodeError Instr :=
  match portTable.find? fun row => row.selector == c.selector with
  | none => .error (.unknownSelector c.selector)
  | some row =>
    match row.build c.operands with
    | some i => .ok i
    | none => .error (.operandTypes c.selector)

/-! ## Decoding the wire formats (R70 to R72) -/

/-- A Link primitive from its symbol (format LINK). -/
def decodeLink : Sym → Except DecodeError Instr
  | .start => .ok .start
  | .drive v => .ok (.writeBit v)
  | .fall => .ok .clockLow
  | .sensed => .ok .readBit
  | .turn r => .ok (.setDataDirection r)
  | .endMark => .error .notLink

/-- The payload of a write burst: a separator 1 and eight bits, most significant first, for each byte (R71). -/
def decodePayload : List Sym → Option (List Byte)
  | .drive true :: .drive b7 :: .drive b6 :: .drive b5 :: .drive b4 :: .drive b3 :: .drive b2 :: .drive b1 ::
      .drive b0 :: rest =>
    let b := byteOfBits [b7, b6, b5, b4, b3, b2, b1, b0]
    match rest with
    | [] => some [b]
    | _ => (decodePayload rest).map (b :: ·)
  | _ => none

/-- The number of bytes of a read burst: eight read pulses and a written bit for each, 0 when more bytes remain and 1
after the last (R72). -/
def decodeReadBody : List Sym → Option Nat
  | .sensed :: .sensed :: .sensed :: .sensed :: .sensed :: .sensed :: .sensed :: .sensed :: .drive final :: rest =>
    match final, rest with
    | true, [] => some 1
    | false, _ => (decodeReadBody rest).map (· + 1)
    | true, _ => none
  | _ => none

/-- A write burst from its symbols (format W, R71). -/
def decodeW : List Sym → Except DecodeError Instr
  | .drive a6 :: .drive a5 :: .drive a4 :: .drive a3 :: .drive a2 :: .drive a1 :: .drive a0 :: .drive false :: body =>
    match decodePayload body with
    | some bs => .ok (.writeBurst (bitsToNumber [a6, a5, a4, a3, a2, a1, a0]) bs)
    | none => .error .notWriteBurst
  | _ => .error .notWriteBurst

/-- A read burst from its symbols (format R, R72). -/
def decodeR : List Sym → Except DecodeError Instr
  | .drive a6 :: .drive a5 :: .drive a4 :: .drive a3 :: .drive a2 :: .drive a1 :: .drive a0 :: .drive true :: body =>
    match decodeReadBody body with
    | some n => .ok (.readBurst (bitsToNumber [a6, a5, a4, a3, a2, a1, a0]) n)
    | none => .error .notReadBurst
  | _ => .error .notReadBurst

/-- The header of a burst: seven address bits, most significant first, then the direction bit (R73). -/
def encodeHeader (a : RegIdx) (dir : Bit) : List Sym := (regBits a ++ [dir]).map .drive

/-- The pulses of a payload byte of a write burst: separator 1, then the byte (R71). -/
def encodeByte (b : Byte) : List Sym := .drive true :: (byteBits b).map .drive

/-- The pulses of the `n` bytes of a read burst (R72). -/
def encodeReadBody : Nat → List Sym
  | 0 => []
  | n + 1 => List.replicate 8 .sensed ++ .drive (n == 0) :: encodeReadBody n

/-- The status read: a read burst of one byte at `R_STAT` (R132). -/
def encodeStatusRead (m : RegMap) : List Sym := encodeHeader m.rStat true ++ encodeReadBody 1

/-- The operation an encoding stands for, or why it stands for none. Total on every encoding. -/
def decode (m : RegMap) : Encoded → Except DecodeError Instr
  | .cmd c => decodeCommand c
  | .link y => decodeLink y
  | .w ys => decodeW ys
  | .r ys => decodeR ys
  | .framer y => if y = .endMark then .ok .endBurst else .error .notFramer
  | .session ys => if ys = encodeStatusRead m then .ok .readStatus else .error .notStatusRead

/-! ## The encoder -/

/-- The encoding of an operation, by the `format` and `encoding` columns of the opcode table; it stands for the
operation where `Instr.wellFormed` holds (R82). -/
def encode (m : RegMap) : Instr → Encoded
  | .linkOpen c d f => .cmd ⟨0x00, [.pin c, .pin d, .freq f]⟩
  | .close => .cmd ⟨0x01, []⟩
  | .readProductId => .cmd ⟨0x20, []⟩
  | .readProductRevision => .cmd ⟨0x21, []⟩
  | .readMbaseFA => .cmd ⟨0x30, []⟩
  | .writeMbaseFA bs => .cmd ⟨0x31, [.bytes bs]⟩
  | .readBcuBC => .cmd ⟨0x32, []⟩
  | .writeBcuBC bs => .cmd ⟨0x33, [.bytes bs]⟩
  | .readDeuDE => .cmd ⟨0x34, []⟩
  | .writeDeuDE bs => .cmd ⟨0x35, [.bytes bs]⟩
  | .readIx => .cmd ⟨0x36, []⟩
  | .writeIx bs => .cmd ⟨0x37, [.bytes bs]⟩
  | .readIy => .cmd ⟨0x38, []⟩
  | .writeIy bs => .cmd ⟨0x39, [.bytes bs]⟩
  | .readSp => .cmd ⟨0x3A, []⟩
  | .writeSp bs => .cmd ⟨0x3B, [.bytes bs]⟩
  | .readMem n => .cmd ⟨0x3C, [.int n]⟩
  | .writeMem bs => .cmd ⟨0x3D, [.bytes bs]⟩
  | .executeInstructions ops => .cmd ⟨0x40, [.bytes ops]⟩
  | .reset => .cmd ⟨0x41, []⟩
  | .setBreakpoint i u h l => .cmd ⟨0x50, [.int i, .int u, .int h, .optInt l]⟩
  | .disableBreakpoint i => .cmd ⟨0x51, [.int i]⟩
  | .breakNow => .cmd ⟨0x52, []⟩
  | .continueAfterBreak b => .cmd ⟨0x53, [.bool b]⟩
  | .getBreakpointState => .cmd ⟨0x54, []⟩
  | .start => .link .start
  | .writeBit v => .link (.drive v)
  | .clockLow => .link .fall
  | .readBit => .link .sensed
  | .setDataDirection r => .link (.turn r)
  | .writeBurst a bs => .w (encodeHeader (BitVec.ofInt 7 a) false ++ bs.flatMap encodeByte)
  | .readBurst a n => .r (encodeHeader (BitVec.ofInt 7 a) true ++ encodeReadBody n.toNat)
  | .endBurst => .framer .endMark
  | .readStatus => .session (encodeStatusRead m)

/-! ## Words of the opcode table -/

/-- Operands for a selector when the table's word gives none: integers 0, a false flag, one byte 0x00 (two for
WRITE_SP). DESIGN CHOICE, log 3: operands are typed values, which a table word does not hold. -/
def zeroOperands (selector : Byte) : List Operand :=
  if selector = 0x00 then [.pin 0, .pin 0, .freq 0]
  else if selector = 0x3B then [.bytes [0x00, 0x00]]
  else if selector = 0x3C ∨ selector = 0x51 then [.int 0]
  else if selector = 0x50 then [.int 0, .int 0, .int 0, .optInt (some 0)]
  else if selector = 0x53 then [.bool false]
  else if selector = 0x31 ∨ selector = 0x33 ∨ selector = 0x35 ∨ selector = 0x37 ∨ selector = 0x39 ∨
    selector = 0x3D ∨ selector = 0x40 then [.bytes [0x00]]
  else []

/-- The port entry for a word of the opcode table: its eight bits are the selector (R81). A word that is not eight bits
long is no selector, and gives the unassigned selector 0xFF (log 3). -/
def tableCommand (nbits w : Nat) : Command :=
  if nbits = 8 ∧ w < 256 then ⟨BitVec.ofNat 8 w, zeroOperands (BitVec.ofNat 8 w)⟩ else ⟨0xFF, []⟩

/-- The instruction the decoder reads from a word of the opcode table. -/
def decodeTableWord (nbits w : Nat) : Option Instr :=
  match decodeCommand (tableCommand nbits w) with
  | .ok i => some i
  | .error _ => none

/-! ## The event grammar of a burst (R78)

`ST`, `WB(v)`, `CL`, `RB`, `SR(r)` and `EB` of R78 as lists of pin events. -/

/-- `ST` (R91). -/
def startEvents : List Event := [.drive .zda false, .sleep, .drive .zcl false, .sleep]

/-- `WB(v)` (R92). -/
def writeBitEvents (v : Bit) : List Event := [.drive .zda v, .sleep, .drive .zcl true, .sleep]

/-- `CL` (R93). -/
def clockLowEvents : List Event := [.drive .zcl false]

/-- `RB` with the sensed level `v` (R94). -/
def readBitEvents (v : Bit) : List Event := [.drive .zcl true, .sleep, .drive .zcl false, .sense v, .sleep]

/-- `SR(r)`, when the role changes (R98). -/
def roleEvents (r : Role) : List Event := [.setRole r, .sleep]

/-- `EB` after a last written bit `v` (R119). -/
def endBurstEvents (v : Bit) : List Event := if v then [] else [.drive .zda true, .sleep]

/-- `WB(v); CL` for each bit. -/
def lowBitsEvents (bs : List Bit) : List Event := bs.flatMap fun v => writeBitEvents v ++ clockLowEvents

/-- Bits written with the clock lowered between them and left high after the last. -/
def highBitsEvents : List Bit → List Event
  | [] => []
  | [v] => writeBitEvents v
  | v :: vs => writeBitEvents v ++ clockLowEvents ++ highBitsEvents vs

/-- `ST` and the eight header bits, each with `CL`. -/
def headerEvents (a : RegIdx) (dir : Bit) : List Event := startEvents ++ lowBitsEvents (regBits a ++ [dir])

/-- The body of a write burst: for each byte `WB(1); CL` and its bits, the clock left high after the very last bit. -/
def writeBodyEvents : List Byte → List Event
  | [] => []
  | [b] => writeBitEvents true ++ clockLowEvents ++ highBitsEvents (byteBits b)
  | b :: bs => writeBitEvents true ++ clockLowEvents ++ lowBitsEvents (byteBits b) ++ writeBodyEvents bs

/-- `EB` of a write burst: it depends on bit 0 of the last byte, the last bit written. -/
def writeEndEvents (bs : List Byte) : List Event := endBurstEvents ((bs.getLast?.getD 0xFF).getLsbD 0)

/-- One byte of a read burst: `SR(Sensing); RB x 8; SR(Driving)`. -/
def readByteEvents (b : Byte) : List Event :=
  roleEvents .sensing ++ (byteBits b).flatMap readBitEvents ++ roleEvents .driving

/-- The body of a read burst: after each byte `WB(0); CL` when more remain, `WB(1)` after the last. -/
def readBodyEvents : List Byte → List Event
  | [] => []
  | [b] => readByteEvents b ++ writeBitEvents true
  | b :: bs => readByteEvents b ++ writeBitEvents false ++ clockLowEvents ++ readBodyEvents bs

/-- The trace of a burst (R78). -/
def Frame.events : Frame → List Event
  | .write a bs => headerEvents a false ++ writeBodyEvents bs ++ writeEndEvents bs
  | .read a _ rx => headerEvents a true ++ readBodyEvents rx

/-- The events of LINK_OPEN (R90). -/
def linkOpenEvents : List Event := [.acquire .zcl, .drive .zcl true, .acquire .zda, .drive .zda true, .sleep]

/-- The events of CLOSE from the drive role (R99). -/
def closeEvents : List Event := [.drive .zcl true, .drive .zda true, .sleep, .release .zcl, .release .zda]

/-! ## The parser of the event trace (R79) -/

/-- Takes one `WB(v)`. -/
def takeBit : List Event → Option (Bit × List Event)
  | .drive .zda v :: .sleep :: .drive .zcl true :: .sleep :: rest => some (v, rest)
  | _ => none

/-- Takes one `CL`. -/
def takeLow : List Event → Option (List Event)
  | .drive .zcl false :: rest => some rest
  | _ => none

/-- Takes `n` times `WB(v); CL`. -/
def takeLowBits : Nat → List Event → Option (List Bit × List Event)
  | 0, evs => some ([], evs)
  | n + 1, evs => do
    let (v, evs) ← takeBit evs
    let evs ← takeLow evs
    let (vs, evs) ← takeLowBits n evs
    pure (v :: vs, evs)

/-- Takes `n` times `RB`. -/
def takeSensed : Nat → List Event → Option (List Bit × List Event)
  | 0, evs => some ([], evs)
  | n + 1, .drive .zcl true :: .sleep :: .drive .zcl false :: .sense v :: .sleep :: evs => do
    let (vs, evs) ← takeSensed n evs
    pure (v :: vs, evs)
  | _ + 1, _ => none

/-- Takes `EB` after a last written bit `v`. -/
def takeEnd (v : Bit) (evs : List Event) : Option (List Event) :=
  match v, evs with
  | true, evs => some evs
  | false, .drive .zda true :: .sleep :: rest => some rest
  | false, _ => none

/-- Takes the body and the end of a write burst; at most `fuel` bytes. -/
def takeWriteBody : Nat → List Event → Option (List Byte × List Event)
  | 0, _ => none
  | fuel + 1, evs => do
    let (sep, evs) ← takeBit evs
    guard sep
    let evs ← takeLow evs
    let (hi, evs) ← takeLowBits 7 evs
    let (lo, evs) ← takeBit evs
    let b := byteOfBits (hi ++ [lo])
    match takeLow evs with
    | some evs =>
      let (bs, evs) ← takeWriteBody fuel evs
      pure (b :: bs, evs)
    | none =>
      let evs ← takeEnd lo evs
      pure ([b], evs)

/-- Takes `SR(r)`. -/
def takeRole (r : Role) : List Event → Option (List Event)
  | .setRole q :: .sleep :: rest => if q = r then some rest else none
  | _ => none

/-- Takes the body of a read burst; at most `fuel` bytes. -/
def takeReadBody : Nat → List Event → Option (List Byte × List Event)
  | 0, _ => none
  | fuel + 1, evs => do
    let evs ← takeRole .sensing evs
    let (vs, evs) ← takeSensed 8 evs
    let evs ← takeRole .driving evs
    let (final, evs) ← takeBit evs
    if final then
      pure ([byteOfBits vs], evs)
    else
      let evs ← takeLow evs
      let (bs, evs) ← takeReadBody fuel evs
      pure (byteOfBits vs :: bs, evs)

/-- Takes `ST`. -/
def takeStart : List Event → Option (List Event)
  | .drive .zda false :: .sleep :: .drive .zcl false :: .sleep :: rest => some rest
  | _ => none

/-- Takes one burst; its format is told by the direction bit (R77). -/
def takeFrame (fuel : Nat) (evs : List Event) : Option (Frame × List Event) := do
  let evs ← takeStart evs
  let (a, evs) ← takeLowBits 7 evs
  let (dir, evs) ← takeBit evs
  let evs ← takeLow evs
  if dir then
    let (rx, evs) ← takeReadBody fuel evs
    pure (.read (regOfBits a) rx.length rx, evs)
  else
    let (bs, evs) ← takeWriteBody fuel evs
    pure (.write (regOfBits a) bs, evs)

/-- Parses a concatenation of at most `fuel` bursts. -/
def parseFramesWith (inner : Nat) : Nat → List Event → Option (List Frame)
  | _, [] => some []
  | 0, _ :: _ => none
  | fuel + 1, ev :: evs => do
    let (f, rest) ← takeFrame inner (ev :: evs)
    let fs ← parseFramesWith inner fuel rest
    pure (f :: fs)

/-- The frame trace of the events between LINK_OPEN and CLOSE: the parse by the grammar of R78, if there is one
(R79). -/
def parseFrames (evs : List Event) : Option (List Frame) := parseFramesWith evs.length evs.length evs

end Sys2Proof
end

