-- ==== Sys2Proof/Machine/State.lean ====
section
/-! DEFINITION. The state of the machine (spec/10_state.md), its reset value, and the reasons a step can stop. -/

namespace Sys2Proof.Machine

/-! ## Link (R22 to R25) -/

/-- `link_state` (R22). -/
inductive LinkState where
  | unopened
  | opened   -- the spec's `Open`
  | closed
  deriving DecidableEq, Repr

/-- The configuration record `cfg` (R6, R21), exact rationals (D2; log 21). -/
structure Cfg where
  clkPin  : PinId
  dataPin : PinId
  fTarget : Rat
  delay   : Rat
  deriving DecidableEq, Repr

/-- What the controller last drove on the two lines and the role of ZDA (R23, R24, R25). -/
structure Pins where
  zcl    : Bit
  zdaOut : Bit
  role   : Role
  deriving DecidableEq, Repr

/-- Both lines high, ZDA driven: the pins' part of the idle invariant (R26). -/
def Pins.idle : Pins := { zcl := true, zdaOut := true, role := .driving }

/-! ## Session (R27 to R32) -/

/-- One breakpoint slot (R27): the cached 24-bit break address, most significant byte first (R75). -/
structure Slot where
  upper : Byte
  high  : Byte
  low   : Byte
  deriving DecidableEq, Repr

/-- The slot file and the control flags (R27, R29 to R32). No wildcard flag exists for slots 2 and 3 (R30). -/
structure Session where
  bp         : Vector Slot 4
  en         : Vector Bool 4
  ignLow     : Vector Bool 2
  breakNow   : Bool
  singleStep : Bool
  deriving DecidableEq, Repr

/-- "Session state is created with all slots cleared and all flags false" (R43); cleared is 0x00 (D13, log 28). -/
def Session.cleared : Session where
  bp         := #v[⟨0, 0, 0⟩, ⟨0, 0, 0⟩, ⟨0, 0, 0⟩, ⟨0, 0, 0⟩]
  en         := #v[false, false, false, false]
  ignLow     := #v[false, false]
  breakNow   := false
  singleStep := false

/-! ## Sequencer (R34, R35) -/

/-- The phase of the frame sequencer (R34). -/
inductive Seq where
  | idle
  | start
  | addr (j : Nat)
  | dir
  | sep (k : Nat)
  | data (k j : Nat)
  | rx (k j : Nat)
  | gap (k : Nat)
  | final
  | endMark   -- the spec's `End`
  deriving DecidableEq, Repr

/-- The working registers of a burst, which exist only while `seq` is not Idle (R35). -/
structure Burst where
  curReg : RegIdx
  curDir : Bit
  tx     : List Byte
  count  : Nat
  rx     : List Byte
  shift  : Byte
  deriving DecidableEq, Repr

/-! ## Responses (R86, R191) -/

/-- The causes of a ContractViolation: exactly these eight (R191). -/
inductive Cause where
  | badFrequency
  | badRegister
  | emptyBurst
  | tooManyOpcodes
  | badSlot
  | wildcardSlot
  | badAddressByte
  | unknownCommand
  deriving DecidableEq, Repr

/-- The snapshot of GET_BREAKPOINT_STATE (R182). -/
structure Snapshot where
  enabled  : Vector Bool 4
  address  : Vector Slot 4
  wildcard : Vector Bool 2
  inBreak  : Bool
  deriving DecidableEq, Repr

/-- What an operation returns (R86): nothing, a bit (R94), a byte, the 16-bit product id, a list of bytes, the snapshot. -/
inductive Value where
  | unit
  | bit (v : Bit)
  | byte (b : Byte)
  | word (w : Word16)
  | bytes (bs : List Byte)
  | snapshot (x : Snapshot)
  deriving DecidableEq, Repr

/-- The response to an operation (R80): `Ok(result)` or `Error(ContractViolation cause)`. -/
inductive Response where
  | ok (v : Value)
  | error (c : Cause)
  deriving DecidableEq, Repr

/-! ## The target's side (R39, R50, R60 to R64) -/

/-- A bank of byte-wide locations: (index, byte) pairs, indices strictly rising, no byte 0x00 listed; an unlisted index
reads as 0x00 (log 8). -/
abbrev Memory := List Host.Cell

/-- Where the reference target is in the burst it follows on the two lines (R64, R70 to R72; log 31). -/
inductive Bus where
  /-- No START seen yet. -/
  | waiting
  /-- Inside a burst's header: the address bits so far. -/
  | address (bits : List Bit)
  /-- The direction bit comes next. -/
  | direction (a : RegIdx)
  /-- A write burst: the separator before the byte for index `a` comes next. -/
  | separator (a : Nat)
  /-- A write burst: the bits so far of the byte for index `a`. -/
  | data (a : Nat) (bits : List Bit)
  /-- A read burst: `n` of the eight read pulses of the byte of index `a` have come. -/
  | answer (a : Nat) (n : Nat)
  deriving DecidableEq, Repr

/-- The reference target (R61, R64): `w` the write space, `r` the read space, `bus` its place in the burst. -/
structure Dev where
  w   : Memory
  r   : Memory
  bus : Bus
  deriving DecidableEq, Repr

/-- Who answers `Sense` (R60): the given answers, first one next, and any level once they are used up; or the reference
target, out of `Dev.r` (R62). -/
inductive Target where
  | oracle (answers : List Bit)
  | reference
  deriving DecidableEq, Repr

/-! ## Why a step stops -/

/-- The reasons of LinkMisuse (R199): exactly these four. -/
inductive Misuse where
  | startNotIdle
  | writeBitBadState
  | clockAlreadyLow
  | readBitBadState
  deriving DecidableEq, Repr

/-- Which Framer operation was called outside the precondition its rule states (log 17). -/
inductive FramerMisuse where
  | burstNotIdle       -- WRITE_BURST or READ_BURST while a burst is in progress (R115, R117, R26)
  | endBurstNotReady   -- END_BURST before the final bit is written (R119)
  deriving DecidableEq, Repr

/-- Faults: model outcomes without a meaning in the hardware. -/
inductive Fault where
  /-- A Link primitive outside its precondition. Raised by START, WRITE_BIT, CLOCK_LOW, READ_BIT (R91 to R94, R199).
  Safe: no command of the port reaches it from an idle controller, and the spec gives such orders no meaning. -/
  | linkMisuse (reason : Misuse)
  /-- A Framer operation outside the precondition its rule states without an outcome. Raised by WRITE_BURST,
  READ_BURST, END_BURST (R115, R117, R119). Safe: unreachable from the command port (log 17). -/
  | framerMisuse (reason : FramerMisuse)
  deriving DecidableEq, Repr

/-- Refusals: inputs without a meaning. -/
inductive Refusal where
  /-- Raised by `exec` for an instruction that has no meaning yet. Safe. -/
  | notModelled (mnemonic : String)
  /-- A command that needs an open Link without one, or LINK_OPEN on a controller already opened (R200). Raised by
  every operation but the Link primitives. Safe: the spec gives no meaning, emits nothing and changes nothing. -/
  | lifecycle
  /-- WRITE_SP with a list whose length differs from the width the status byte selects (R147, R199); `emitted` is the
  status frame already on the wire. Raised by WRITE_SP. Safe: the spec gives no meaning (log 18). -/
  | spLengthMismatch (emitted : Frame) (given : Nat)
  /-- A port entry whose operands are not of the types R81 gives its selector. Raised by `step`. Safe: such a command
  cannot be expressed at the port (R80; log 27). -/
  | operandTypes (selector : Byte)
  deriving DecidableEq, Repr

/-! ## State -/

/-- Everything the spec gives the machine (R20, R39), the observations (R40 to R42, D27), the parameters (R8) and the
model's own fields `port`, `target`, `senses`, `ret` (log 2, 6, 19). -/
structure State where
  map       : RegMap
  port      : List Command
  cfg       : Option Cfg
  link      : LinkState
  pins      : Pins
  session   : Session
  seq       : Seq
  work      : Option Burst
  trace     : List Event
  frames    : List Frame
  elapsed   : Rat
  responses : List Response
  ret       : Option Response
  dev       : Dev
  target    : Target
  senses    : Nat
  deriving DecidableEq, Repr

/-- The controller before LINK_OPEN (R22, R220). Values the spec does not give: log 1, 6, 8, 11, 12, 13, 20,
31. -/
def State.reset : State where
  map       := Config.defaultMap Config.isBase
  port      := []
  cfg       := none
  link      := .unopened
  pins      := Pins.idle
  session   := Session.cleared
  seq       := .idle
  work      := none
  trace     := []
  frames    := []
  elapsed   := 0
  responses := []
  ret       := none
  dev       := { w := [], r := [], bus := .waiting }
  target    := .oracle []
  senses    := 0

/-- A computation of the machine that may stop. -/
abbrev Out (α : Type) := Host.Outcome α Fault Refusal

end Sys2Proof.Machine
end

