-- ==== Sys2Proof/Machine/Ops.lean ====
section
/-! DEFINITION. The shared operations: sequencing, emitting pin events, the answer to `Sense`, the banks of the target,
responses, and raising a ContractViolation. -/

namespace Sys2Proof.Machine

/-- Go on with the result, or stop with the same reason. -/
def andThen {α β : Type} (o : Out α) (f : α → Out β) : Out β :=
  match o with
  | .next a => f a
  | .fault r => .fault r
  | .refused r => .refused r

/-! ## Pin events (R40, R41) -/

/-- `DELAY` (R6, R21); before LINK_OPEN there is no configuration and nothing sleeps. -/
def State.delay (s : State) : Rat :=
  match s.cfg with
  | some c => c.delay
  | none => 0

/-- The least time an event takes: `DELAY` for a `Sleep`, 0 for every other (R41). -/
def eventTime (delay : Rat) : Event → Rat
  | .sleep => delay
  | _ => 0

/-- What an event does to the pins: `Drive` sets `zcl` or `zda_out`, `SetRole` sets `role` (R40). -/
def Pins.after (p : Pins) : Event → Pins
  | .drive .zcl v => { p with zcl := v }
  | .drive .zda v => { p with zdaOut := v }
  | .setRole r => { p with role := r }
  | .acquire _ => p
  | .release _ => p
  | .sense _ => p
  | .sleep => p

/-- `seq <- p` (R11, R34). -/
def State.atPhase (s : State) (p : Seq) : State := { s with seq := p }

/-! ## The banks of the target (R50, R61 to R63) -/

/-- What an unlisted index of a bank reads as (log 8). -/
def Memory.fill : Byte := 0x00

/-- Read one location. -/
def Memory.read : Memory → Nat → Byte
  | [], _ => Memory.fill
  | (k, b) :: m, a => if k = a then b else Memory.read m a

/-- Write one location, keeping the canonical form: writing what an unlisted index reads as removes the entry. -/
def Memory.write : Memory → Nat → Byte → Memory
  | [], a, b => if b = Memory.fill then [] else [(a, b)]
  | (k, c) :: m, a, b =>
    if k < a then (k, c) :: Memory.write m a b
    else if k = a then (if b = Memory.fill then m else (a, b) :: m)
    else if b = Memory.fill then (k, c) :: m else (a, b) :: (k, c) :: m

/-- The canonical form above an index: indices strictly rising from `lo`, none above 127 (R50), no listed 0x00. -/
def Memory.wfFrom (lo : Nat) : Memory → Bool
  | [] => true
  | (k, b) :: m => decide (lo ≤ k) && decide (k ≤ 127) && decide (b ≠ Memory.fill) && Memory.wfFrom (k + 1) m

/-- The canonical form of a bank. -/
def Memory.wf (m : Memory) : Bool := Memory.wfFrom 0 m

/-- The byte of the read space the reference target answers with: 0 past index 127 (R62). -/
def Dev.readReg (d : Dev) (a : Nat) : Byte := if a ≤ 127 then d.r.read a else 0x00

/-- The thirteen breakpoint registers of the write space (R63). -/
def breakRegs (m : RegMap) : List RegIdx :=
  m.wAddrL.toList ++ m.wAddrH.toList ++ m.wAddrU.toList ++ [m.wBrkCtl]

/-- Clear the given registers. -/
def Memory.clear (w : Memory) (regs : List RegIdx) : Memory := regs.foldl (fun w a => w.write a.toNat 0x00) w

/-- The reference target takes one byte for index `a` of its write space: stored when `a` is at most 127, discarded
otherwise (R61); `RESET_CMD` at `W_MASTER_CTL` then clears the breakpoint registers (R63). -/
def Dev.store (m : RegMap) (d : Dev) (a : Nat) (b : Byte) : Dev :=
  let d := if a ≤ 127 then { d with w := d.w.write a b } else d
  if a = m.wMasterCtl.toNat ∧ b = Config.resetCmd then { d with w := d.w.clear (breakRegs m) } else d

/-- The bytes of a write burst, one by one, at rising indices (R58, R61). -/
def Dev.storeAll (m : RegMap) : Dev → Nat → List Byte → Dev
  | d, _, [] => d
  | d, a, b :: bs => Dev.storeAll m (d.store m a b) (a + 1) bs

/-! ## What the reference target sees on the lines (R64, R71, R72, R95; log 31) -/

/-- A rising edge of ZCL with the level `v` on ZDA. The header is taken bit by bit (R73); in a write burst the separator
may have either value (R64, R83) and the eighth bit of a byte stores it (R57, R61); in a read burst the ninth pulse of a
byte is the separator, of either value, and the next byte follows (R58, R72). -/
def Dev.pulse (m : RegMap) (d : Dev) (v : Bit) : Dev :=
  match d.bus with
  | .waiting => d
  | .address bits =>
    { d with bus := if bits.length < 6 then .address (bits ++ [v]) else .direction (regOfBits (bits ++ [v])) }
  | .direction a => { d with bus := if v then .answer a.toNat 0 else .separator a.toNat }
  | .separator a => { d with bus := .data a [] }
  | .data a bits =>
    if bits.length < 7 then { d with bus := .data a (bits ++ [v]) }
    else { d.store m a (byteOfBits (bits ++ [v])) with bus := .separator (a + 1) }
  | .answer a n => { d with bus := if n < 8 then .answer a (n + 1) else .answer (a + 1) 0 }

/-- What the target sees of a pin event, the pins being `p` before it. ZDA falling while ZCL is high is a START: it
abandons whatever burst the target was in and begins a new one (R64, R91). A rising edge of ZCL is a clock pulse: the target
samples the level the controller drives (R95), or any level `z` when it drives none. At a high clock a role switch may look
like a START: the spec excludes it for a low clock only (R98) and lets nothing be assumed of ZDA during the switch (R234,
U16), so `z` says whether it does. DESIGN CHOICE, log 31. -/
def Dev.see (m : RegMap) (p : Pins) (z : Bit) (d : Dev) : Event → Dev
  | .drive .zda v =>
    if p.zcl && p.zdaOut && !v && decide (p.role = .driving) then { d with bus := .address [] } else d
  | .drive .zcl v =>
    if !p.zcl && v then d.pulse m (if p.role = .driving then p.zdaOut else z) else d
  | .acquire _ => d
  | .release _ => d
  | .sense _ => d
  | .sleep => d
  | .setRole _ => if p.zcl && z then { d with bus := .address [] } else d

/-! ## Emitting pin events (R11, R40, R41) -/

/-- `emit e` (R11, R40): append the event to the trace, let time pass, and perform it on the pins, where the target sees
it. The time beyond the minimum is free (R41, log 11). -/
def State.emit (s : State) (e : Event) : State :=
  { s with
    trace := s.trace ++ [e]
    elapsed := s.elapsed + (eventTime s.delay e + Config.slack s.trace.length)
    pins := s.pins.after e
    dev := s.dev.see s.map s.pins (Config.undriven s.trace.length) e }

/-- Emit the events in order. -/
def State.emits (s : State) (es : List Event) : State := es.foldl State.emit s

/-! ## Sense (R60, R62) -/

/-- The level ZDA shows at the next `Sense` (R60): the next given answer; with none left, any level (log 6); from the
reference target, after the n-th read pulse of a byte, its bit 8 - n, most significant first (R62, R72), and any level
where it presents none. -/
def State.level (s : State) : Bit :=
  match s.target with
  | .oracle (v :: _) => v
  | .oracle [] => Config.lineLevel s.senses
  | .reference =>
    match s.dev.bus with
    | .answer a (n + 1) => (s.dev.readReg a).getLsbD (7 - n)
    | _ => Config.lineLevel s.senses

/-- Given answers are used up in order. -/
def Target.drop (n : Nat) : Target → Target
  | .oracle answers => .oracle (answers.drop n)
  | .reference => .reference

/-- `n` answers have been taken. -/
def State.answered (s : State) (n : Nat) : State := { s with target := s.target.drop n, senses := s.senses + n }

/-! ## Completed bursts (R42) -/

/-- `frames <- frames ++ [f]`, `seq <- Idle`, the working registers discarded (R35, R115, R117). -/
def State.complete (s : State) (f : Frame) : State :=
  { s with frames := s.frames ++ [f], seq := .idle, work := none }

/-! ## Responses and the ContractViolation (R80, R190, R193, R194) -/

/-- The response to a host command. -/
def State.respond (s : State) (r : Response) : State := { s with responses := s.responses ++ [r] }

/-- The result of an internal operation, for the layer above (log 19). -/
def State.returnUp (s : State) (r : Response) : State := { s with ret := some r }

/-- `raise ContractViolation(cause)` in a host command (R190): the response is `Error(cause)`; no event, no other
change. This is the hardware's only exception; nothing is saved, no mode changes, there is no vector (R193) and no
return, for there is nothing to return from (R194). -/
def raise (c : Cause) (s : State) : Out State := .next (s.respond (.error c))

/-- `raise ContractViolation(cause)` in an internal operation called on its own: the error goes to the layer above. -/
def raiseUp (c : Cause) (s : State) : Out State := .next (s.returnUp (.error c))

/-- Every command but LINK_OPEN needs an open Link (R22, R200). -/
def whenOpen (s : State) (k : Out State) : Out State :=
  if s.link = .opened then k else .refused .lifecycle

end Sys2Proof.Machine
end

