-- ==== Sys2Proof/Machine/Operands.lean ====
section
/-! DEFINITION. Operands: every check that can raise a ContractViolation, in the order R192 gives, and what the checked
operands become. All checks are pure: they stand before the first event of their operation (R190). -/

namespace Sys2Proof.Machine

/-- The register index check of both bursts (R113). -/
def registerOk (a : Int) : Bool := decide (0 ≤ a) && decide (a ≤ 127)

/-- The checks of WRITE_BURST: register index, then emptiness (R113, R192). -/
def checkWrite (a : Int) (bs : List Byte) : Option Cause :=
  if registerOk a = false then some .badRegister
  else if bs = [] then some .emptyBurst
  else none

/-- The checks of READ_BURST: register index, then `count >= 1`; a negative count counts as empty (R113, D17). -/
def checkRead (a count : Int) : Option Cause :=
  if registerOk a = false then some .badRegister
  else if count < 1 then some .emptyBurst
  else none

/-- A checked register index as the seven bits on the wire. -/
def regIdx (a : Int) : RegIdx := BitVec.ofInt 7 a

/-- The slot an `id` names: 0 to 3 (R174, R176). -/
def slotOf (id : Int) : Option (Fin 4) :=
  if id = 0 then some 0 else if id = 1 then some 1 else if id = 2 then some 2 else if id = 3 then some 3 else none

/-- Whether an address byte operand lies in 0..255 (R174). -/
def byteOk (v : Int) : Bool := decide (0 ≤ v) && decide (v ≤ 255)

/-- A checked address byte operand as a byte. -/
def byteOf (v : Int) : Byte := BitVec.ofInt 8 v

/-- The operands of SET_BREAKPOINT after validation. -/
structure SetArgs where
  slot  : Fin 4
  upper : Byte
  high  : Byte
  low   : Option Byte
  deriving DecidableEq, Repr

/-- The validation of SET_BREAKPOINT (R174, R192): slot id, then the wildcard, then the bytes. -/
def checkSet (id addrUpper addrHigh : Int) (addrLow : Option Int) : Except Cause SetArgs :=
  match slotOf id with
  | none => .error .badSlot
  | some i =>
    if addrLow = none ∧ ¬ i.val < 2 then .error .wildcardSlot
    else if byteOk addrUpper && byteOk addrHigh && addrLow.all byteOk then
      .ok { slot := i, upper := byteOf addrUpper, high := byteOf addrHigh, low := addrLow.map byteOf }
    else .error .badAddressByte

/-- `IS_START(n) = IS_BASE + n + 1` (R155, D19); it may exceed 127. -/
def isStart (m : RegMap) (n : Nat) : Nat := m.isBase.toNat + n + 1

/-- The Session's own check of EXECUTE_INSTRUCTIONS: the opcode count (R155); the burst's checks follow (R192). -/
def checkOpcodes (ops : List Byte) : Option Cause :=
  if ops.length > Config.maxOpcodes then some .tooManyOpcodes else none

/-- The 16-bit product id from the two bytes of its burst: big-endian, the first byte received is the high half
(R55, R130). -/
def combine (rx : List Byte) : Word16 := BitVec.ofNat 16 ((rx.getD 0 0).toNat * 256 + (rx.getD 1 0).toNat)

/-- The one byte of a one-byte read burst (R131, R132). -/
def firstByte (rx : List Byte) : Byte := rx.getD 0 0

/-- The number of bytes of the stack pointer by the status byte: 3 in ADL mode, 2 otherwise (R146). -/
def spWidth (m : RegMap) (st : Byte) : Nat := if st &&& m.statAdlMask ≠ 0 then 3 else 2

end Sys2Proof.Machine
end

