-- ==== Sys2Proof/Machine/Flags.lean ====
section
/-! DEFINITION. The session's flags: the packed control byte (R37, R170), `in_break` (R33), the slot view (R28), the
snapshot (R182) and the updates of the slot file and the flags (R27, R29 to R32). -/

namespace Sys2Proof.Machine

/-- The packing of eight flags into the control byte, bit 0 first (R37, R170): `single_step`, `ignore_low_0`,
`ignore_low_1`, `enabled[0..3]`, `break_now`. -/
def packFlags (singleStep ign0 ign1 en0 en1 en2 en3 breakNow : Bool) : Byte :=
  BitVec.ofNat 8 (singleStep.toNat * 1 + ign0.toNat * 2 + ign1.toNat * 4 + en0.toNat * 8 + en1.toNat * 16 +
    en2.toNat * 32 + en3.toNat * 64 + breakNow.toNat * 128)

/-- `pack_ctl()` (R170). -/
def Session.packCtl (x : Session) : Byte :=
  packFlags x.singleStep x.ignLow[0] x.ignLow[1] x.en[0] x.en[1] x.en[2] x.en[3] x.breakNow

/-- `in_break = break_now or single_step` (R33). -/
def Session.inBreak (x : Session) : Bool := x.breakNow || x.singleStep

/-- The slot file entry i (R27). -/
def Session.slot (x : Session) (i : Fin 4) : Slot := x.bp[i]

/-- Whether slot i is a wildcard: no flag exists for slots 2 and 3 (R30). -/
def Session.isWildcard (x : Session) (i : Fin 4) : Bool := x.ignLow.toList.getD i.val false

/-- The slot view (R28): upper, high, and the low byte unless the slot is a wildcard. -/
def Session.view (x : Session) (i : Fin 4) : Byte × Byte × Option Byte :=
  ((x.slot i).upper, (x.slot i).high, if x.isWildcard i then none else some (x.slot i).low)

/-- The snapshot (R182). -/
def Session.snapshot (x : Session) : Snapshot where
  enabled  := x.en
  address  := x.bp
  wildcard := x.ignLow
  inBreak  := x.inBreak

/-- `bp[i] <- v`. -/
def Session.setSlot (x : Session) (i : Fin 4) (v : Slot) : Session := { x with bp := x.bp.set i v }

/-- `en[i] <- b` (R29). -/
def Session.setEnabled (x : Session) (i : Fin 4) (b : Bool) : Session := { x with en := x.en.set i b }

/-- `if i < 2 then ign_low[i] <- b` (R30, R174). -/
def Session.setWildcard (x : Session) (i : Fin 4) (b : Bool) : Session :=
  { x with ignLow := x.ignLow.setIfInBounds i.val b }

/-- Replace the session state. -/
def State.withSession (s : State) (x : Session) : State := { s with session := x }

end Sys2Proof.Machine
end

