-- ==== Sys2Proof/Machine/Link.lean ====
section
/-! DEFINITION. The Link (spec/40_link.md): LINK_OPEN, START, WRITE_BIT, CLOCK_LOW, READ_BIT, SET_DATA_DIRECTION,
CLOSE. The primitives are written once as operations, which the Framer calls; the meanings call them too. The orders of
events are the spec's decisions D3 to D9 (log 15). -/

namespace Sys2Proof.Machine

/-! ## The primitives -/

/-- START (R91). -/
def start (s : State) : Out State :=
  if s.link = .opened ∧ s.pins.role = .driving ∧ s.pins.zcl = true ∧ s.pins.zdaOut = true then
    .next (s.emits [.drive .zda false, .sleep, .drive .zcl false, .sleep])
  else .fault (.linkMisuse .startNotIdle)

/-- WRITE_BIT v (R92). -/
def writeBit (v : Bit) (s : State) : Out State :=
  if s.link = .opened ∧ s.pins.role = .driving ∧ s.pins.zcl = false then
    .next (s.emits [.drive .zda v, .sleep, .drive .zcl true, .sleep])
  else .fault (.linkMisuse .writeBitBadState)

/-- CLOCK_LOW (R93). -/
def clockLow (s : State) : Out State :=
  if s.link = .opened ∧ s.pins.zcl = true then .next (s.emits [.drive .zcl false])
  else .fault (.linkMisuse .clockAlreadyLow)

/-- READ_BIT (R94): the level sensed just after the clock fell, and the state after. -/
def readBit (s : State) : Out (Bit × State) :=
  if s.link = .opened ∧ s.pins.role = .sensing ∧ s.pins.zcl = false then
    let t := s.emits [.drive .zcl true, .sleep, .drive .zcl false]
    let v := t.level
    .next (v, (t.answered 1).emits [.sense v, .sleep])
  else .fault (.linkMisuse .readBitBadState)

/-- SET_DATA_DIRECTION r (R98): nothing when the role is r already. -/
def setDirection (r : Role) (s : State) : Out State :=
  whenOpen s (if r = s.pins.role then .next s else .next (s.emits [.setRole r, .sleep]))

/-- The lines before `Acquire`: they are not the controller's, so the level of ZCL is free and ZDA is driven by nothing
that is known (R221, U16). The latches before LINK_OPEN (log 12) are not read. DESIGN CHOICE, log 31. -/
def State.unacquired (s : State) : State :=
  { s with pins := { s.pins with zcl := Config.undriven s.trace.length, role := .sensing } }

/-! ## The meanings -/

/-- LINK_OPEN clk_pin, data_pin, f_target (R90). The frequency is checked before any pin is acquired. Raising ZCL may be one
more clock pulse to the target (R236), with any level on ZDA, which is acquired after it (log 31). -/
def execLinkOpen (clkPin dataPin : PinId) (fTarget : Rat) (s : State) : Out State :=
  if s.link ≠ .unopened then .refused .lifecycle
  else if fTarget ≤ 0 then raise .badFrequency s
  else
    let s := { s with cfg := some { clkPin, dataPin, fTarget, delay := Config.delayFactor / fTarget } }
    let s := s.unacquired.emits [.acquire .zcl, .drive .zcl true, .acquire .zda, .drive .zda true]
    let s := { s with pins := { s.pins with role := .driving } }
    let s := s.emit .sleep
    let s := { s with session := Session.cleared, seq := .idle, work := none, link := .opened }
    .next (s.respond (.ok .unit))

/-- CLOSE (R99). The Session ceases to exist: the model's fields go back to the cleared values (log 13). -/
def execClose (s : State) : Out State :=
  whenOpen s
    (let s := if s.pins.role = .sensing then s.emit (.setRole .driving) else s
     let s := s.emits [.drive .zcl true, .drive .zda true, .sleep, .release .zcl, .release .zda]
     .next ({ s with link := .closed, session := Session.cleared }.respond (.ok .unit)))

/-- START (R91). -/
def execStart (s : State) : Out State := start s

/-- WRITE_BIT v (R92). -/
def execWriteBit (v : Bit) (s : State) : Out State := writeBit v s

/-- CLOCK_LOW (R93). -/
def execClockLow (s : State) : Out State := clockLow s

/-- READ_BIT (R94): the level is the result. -/
def execReadBit (s : State) : Out State := andThen (readBit s) fun p => .next (p.2.returnUp (.ok (.bit p.1)))

/-- SET_DATA_DIRECTION r (R98). -/
def execSetDataDirection (r : Role) (s : State) : Out State := setDirection r s

end Sys2Proof.Machine
end

