-- ==== Sys2Proof/Machine/Framer.lean ====
section
/-! DEFINITION. The Framer (spec/41_framer.md): WRITE_BURST, READ_BURST, END_BURST, and the bursts `MemWrite` and
`MemRead` the Session is made of. The phases of `seq` follow R34, R115 and R117 line by line. -/

namespace Sys2Proof.Machine

/-! ## Sending bits -/

/-- `seq <- phase(j); WRITE_BIT; CLOCK_LOW` for each bit, j counting down to 0. -/
def sendBits (phase : Nat → Seq) : List Bit → State → Out State
  | [], s => .next s
  | v :: vs, s =>
    andThen (writeBit v (s.atPhase (phase vs.length))) fun s =>
    andThen (clockLow s) fun s =>
    sendBits phase vs s

/-- The same, with the clock left high after the last bit. -/
def sendBitsHigh (phase : Nat → Seq) : List Bit → State → Out State
  | [], s => .next s
  | [v], s => writeBit v (s.atPhase (phase 0))
  | v :: vs, s =>
    andThen (writeBit v (s.atPhase (phase vs.length))) fun s =>
    andThen (clockLow s) fun s =>
    sendBitsHigh phase vs s

/-- `START`, the address bits and the direction bit (R115, R117). -/
def sendHeader (a : RegIdx) (dir : Bit) (s : State) : Out State :=
  andThen (start (s.atPhase .start)) fun s =>
  andThen (sendBits .addr (regBits a) s) fun s =>
  andThen (writeBit dir (s.atPhase .dir)) fun s =>
  clockLow s

/-- END_BURST (R119). Its precondition "the final bit has been written" is the phase End (log 29). -/
def endBurst (s : State) : Out State :=
  if s.pins.zcl = true ∧ s.pins.role = .driving ∧ s.seq = .endMark then
    .next (if s.pins.zdaOut = false then s.emits [.drive .zda true, .sleep] else s)
  else .fault (.framerMisuse .endBurstNotReady)

/-! ## The write burst (R115) -/

/-- The bytes of a write burst from byte k on: separator 1, eight bits; the clock is left high after the very last. -/
def sendBytes (k : Nat) : List Byte → State → Out State
  | [], s => .next s
  | [b], s =>
    andThen (writeBit true (s.atPhase (.sep k))) fun s =>
    andThen (clockLow s) fun s =>
    sendBitsHigh (.data k) (byteBits b) s
  | b :: bs, s =>
    andThen (writeBit true (s.atPhase (.sep k))) fun s =>
    andThen (clockLow s) fun s =>
    andThen (sendBits (.data k) (byteBits b) s) fun s =>
    sendBytes (k + 1) bs s

/-- The write burst of R115 after its argument checks. A burst begins only at `seq = Idle` (R26, log 17). -/
def sendFrame (a : RegIdx) (bs : List Byte) (s : State) : Out State :=
  if s.seq ≠ .idle then .fault (.framerMisuse .burstNotIdle)
  else
    let s := { s with work := some { curReg := a, curDir := false, tx := bs, count := 0, rx := [], shift := 0 } }
    andThen (sendHeader a false s) fun s =>
    andThen (sendBytes 0 bs s) fun s =>
    andThen (endBurst (s.atPhase .endMark)) fun s =>
    .next (s.complete (.write a bs))

/-! ## The read burst (R117) -/

/-- `shift[j] <- v`. -/
def setBit (b : Byte) (j : Nat) (v : Bit) : Byte :=
  if v then b ||| (1#8 <<< j) else b &&& ~~~(1#8 <<< j)

/-- Change the working registers of the burst in progress. -/
def State.modifyWork (s : State) (f : Burst → Burst) : State := { s with work := s.work.map f }

/-- `seq <- Rx(k, j); v <- READ_BIT; shift[j] <- v`, j counting down from `n - 1` to 0. -/
def recvBits (k : Nat) : Nat → State → Out State
  | 0, s => .next s
  | j + 1, s =>
    andThen (readBit (s.atPhase (.rx k j))) fun p =>
    recvBits k j (p.2.modifyWork fun w => { w with shift := setBit w.shift j p.1 })

/-- One byte of a read burst: sense, eight read pulses, drive, `rx <- rx ++ [shift]`. -/
def recvByte (k : Nat) (s : State) : Out State :=
  andThen (setDirection .sensing s) fun s =>
  andThen (recvBits k 8 (s.modifyWork fun w => { w with shift := 0 })) fun s =>
  andThen (setDirection .driving s) fun s =>
  .next (s.modifyWork fun w => { w with rx := w.rx ++ [w.shift] })

/-- The bytes of a read burst from byte k on, `n` of them: separator 0 and clock low while more remain, final bit 1 with
the clock left high after the last. -/
def recvBytes (k : Nat) : Nat → State → Out State
  | 0, s => .next s
  | 1, s =>
    andThen (recvByte k s) fun s =>
    writeBit true (s.atPhase .final)
  | n + 1, s =>
    andThen (recvByte k s) fun s =>
    andThen (writeBit false (s.atPhase (.gap k))) fun s =>
    andThen (clockLow s) fun s =>
    recvBytes (k + 1) n s

/-- The bytes received so far. -/
def State.received (s : State) : List Byte :=
  match s.work with
  | some w => w.rx
  | none => []

/-- The read burst of R117 after its argument checks: the bytes and the state after. -/
def recvFrame (a : RegIdx) (n : Nat) (s : State) : Out (List Byte × State) :=
  if s.seq ≠ .idle then .fault (.framerMisuse .burstNotIdle)
  else
    let s := { s with work := some { curReg := a, curDir := true, tx := [], count := n, rx := [], shift := 0 } }
    andThen (sendHeader a true s) fun s =>
    andThen (recvBytes 0 n s) fun s =>
    andThen (endBurst (s.atPhase .endMark)) fun s =>
    .next (s.received, s.complete (.read a n s.received))

/-! ## Bursts as the whole of a command -/

/-- A host command that is one write burst: `MemWrite(a, len(bs), bs)` (R115), with the checks of R113. -/
def memWrite (a : Int) (bs : List Byte) (s : State) : Out State :=
  match checkWrite a bs with
  | some c => raise c s
  | none => andThen (sendFrame (regIdx a) bs s) fun s => .next (s.respond (.ok .unit))

/-- A host command that is one read burst: `MemRead(a, n)` (R117), with the checks of R113; `f` makes the result of the
bytes received. -/
def memRead (a n : Int) (f : List Byte → Value) (s : State) : Out State :=
  match checkRead a n with
  | some c => raise c s
  | none => andThen (recvFrame (regIdx a) n.toNat s) fun p => .next (p.2.respond (.ok (f p.1)))

/-! ## The meanings -/

/-- WRITE_BURST a, bs (R115). -/
def execWriteBurst (a : Int) (bs : List Byte) (s : State) : Out State :=
  whenOpen s
    (match checkWrite a bs with
     | some c => raiseUp c s
     | none => andThen (sendFrame (regIdx a) bs s) fun s => .next (s.returnUp (.ok .unit)))

/-- READ_BURST a, n (R117): the bytes in the order received are the result. -/
def execReadBurst (a count : Int) (s : State) : Out State :=
  whenOpen s
    (match checkRead a count with
     | some c => raiseUp c s
     | none => andThen (recvFrame (regIdx a) count.toNat s) fun p => .next (p.2.returnUp (.ok (.bytes p.1))))

/-- END_BURST (R119). -/
def execEndBurst (s : State) : Out State := whenOpen s (endBurst s)

end Sys2Proof.Machine
end

