-- ==== Sys2Proof/Machine/Registers.lean ====
section
/-! DEFINITION. The Session's operations on registers, memory, injection and the target reset
(spec/42_session_registers.md). -/

namespace Sys2Proof.Machine

/-! ## Shared operations -/

/-- READ_g (R134): one read burst of the group's index and length, the bytes as received. -/
def readGroup (g : Group) (s : State) : Out State :=
  whenOpen s (memRead (s.map.group g).rdReg.toNat (s.map.group g).len .bytes s)

/-- WRITE_g bs (R135): one write burst of the bytes as given, whatever their number. -/
def writeGroup (g : Group) (bs : List Byte) (s : State) : Out State :=
  whenOpen s (memWrite (s.map.group g).wrReg.toNat bs s)

/-- The status read (R132): one read burst of one byte at `R_STAT`. -/
def statusRead (s : State) : Out (Byte × State) :=
  andThen (recvFrame s.map.rStat 1 s) fun p => .next (firstByte p.1, p.2)

/-- One-byte write bursts, in order. -/
def sendAll : List (RegIdx × Byte) → State → Out State
  | [], s => .next s
  | (a, b) :: rest, s => andThen (sendFrame a [b] s) fun s => sendAll rest s

/-- The three address writes that replay slot i: upper, high, low (R160, D16). -/
def replaySlot (m : RegMap) (x : Session) (i : Fin 4) : List (RegIdx × Byte) :=
  [(m.wAddrU[i], (x.slot i).upper), (m.wAddrH[i], (x.slot i).high), (m.wAddrL[i], (x.slot i).low)]

/-- The fourteen writes of RESET (R160): the reset trigger, the slots in rising order, the control byte. -/
def resetWrites (m : RegMap) (x : Session) : List (RegIdx × Byte) :=
  (m.wMasterCtl, Config.resetCmd) :: replaySlot m x 0 ++ replaySlot m x 1 ++ replaySlot m x 2 ++ replaySlot m x 3 ++
    [(m.wBrkCtl, x.packCtl)]

/-! ## Identification -/

/-- READ_PRODUCT_ID (R130). -/
def execReadProductId (s : State) : Out State :=
  whenOpen s (memRead s.map.rIdL.toNat 2 (fun rx => .word (combine rx)) s)

/-- READ_PRODUCT_REVISION (R131). -/
def execReadProductRevision (s : State) : Out State :=
  whenOpen s (memRead s.map.rIdRev.toNat 1 (fun rx => .byte (firstByte rx)) s)

/-- READ_STATUS (R132), internal. -/
def execReadStatus (s : State) : Out State :=
  whenOpen s (andThen (statusRead s) fun p => .next (p.2.returnUp (.ok (.byte p.1))))

/-! ## Register groups -/

/-- READ_MBASE_F_A (R136). -/
def execReadMbaseFA (s : State) : Out State := readGroup .mbaseFA s

/-- WRITE_MBASE_F_A bs (R137). -/
def execWriteMbaseFA (bs : List Byte) (s : State) : Out State := writeGroup .mbaseFA bs s

/-- READ_BCU_B_C (R138). -/
def execReadBcuBC (s : State) : Out State := readGroup .bcuBC s

/-- WRITE_BCU_B_C bs (R139). -/
def execWriteBcuBC (bs : List Byte) (s : State) : Out State := writeGroup .bcuBC bs s

/-- READ_DEU_D_E (R140). -/
def execReadDeuDE (s : State) : Out State := readGroup .deuDE s

/-- WRITE_DEU_D_E bs (R141). -/
def execWriteDeuDE (bs : List Byte) (s : State) : Out State := writeGroup .deuDE bs s

/-- READ_IX (R142). -/
def execReadIx (s : State) : Out State := readGroup .ix s

/-- WRITE_IX bs (R143). -/
def execWriteIx (bs : List Byte) (s : State) : Out State := writeGroup .ix bs s

/-- READ_IY (R144). -/
def execReadIy (s : State) : Out State := readGroup .iy s

/-- WRITE_IY bs (R145). -/
def execWriteIy (bs : List Byte) (s : State) : Out State := writeGroup .iy bs s

/-! ## The stack pointer -/

/-- READ_SP (R146): the status read selects the number of bytes of the second burst. -/
def execReadSp (s : State) : Out State :=
  whenOpen s
    (andThen (statusRead s) fun p =>
     andThen (recvFrame p.2.map.spRdReg (spWidth p.2.map p.1) p.2) fun q =>
     .next (q.2.respond (.ok (.bytes q.1))))

/-- WRITE_SP bs (R147): an empty list is rejected before the status read; a length the mode does not select has no
meaning, and the status frame is then already on the wire (log 18). -/
def execWriteSp (bs : List Byte) (s : State) : Out State :=
  whenOpen s
    (if bs = [] then raise .emptyBurst s
     else
       andThen (statusRead s) fun p =>
       if bs.length ≠ spWidth p.2.map p.1 then
         .refused (.spLengthMismatch (.read p.2.map.rStat 1 [p.1]) bs.length)
       else
         andThen (sendFrame p.2.map.spWrReg bs p.2) fun s =>
         .next (s.respond (.ok .unit)))

/-! ## Memory bursts and injection -/

/-- READ_MEM count (R150). -/
def execReadMem (count : Int) (s : State) : Out State :=
  whenOpen s (memRead s.map.rRdMem.toNat count .bytes s)

/-- WRITE_MEM bs (R151). -/
def execWriteMem (bs : List Byte) (s : State) : Out State :=
  whenOpen s (memWrite s.map.wWrMem.toNat bs s)

/-- EXECUTE_INSTRUCTIONS ops (R155): the opcodes reversed, from `IS_START(n)` on. -/
def execExecuteInstructions (ops : List Byte) (s : State) : Out State :=
  whenOpen s
    (match checkOpcodes ops with
     | some c => raise c s
     | none => memWrite (isStart s.map ops.length) ops.reverse s)

/-! ## Target reset and replay -/

/-- RESET (R160): it changes nothing in the Session. -/
def execReset (s : State) : Out State :=
  whenOpen s
    (andThen (sendAll (resetWrites s.map s.session) s) fun s =>
     .next (s.respond (.ok .unit)))

end Sys2Proof.Machine
end

