-- ==== Sys2Proof/Machine/Breakpoints.lean ====
section
/-! DEFINITION. The breakpoint configuration state machine (spec/43_breakpoints.md): SET_BREAKPOINT,
DISABLE_BREAKPOINT, BREAK_NOW, CONTINUE_AFTER_BREAK, GET_BREAKPOINT_STATE. -/

namespace Sys2Proof.Machine

/-- `write_ctl()` (R171), and the response that ends the operation. -/
def writeCtl (s : State) : Out State :=
  andThen (sendFrame s.map.wBrkCtl [s.session.packCtl] s) fun s => .next (s.respond (.ok .unit))

/-- A differential address write (R174): nothing when the byte equals the cached one; otherwise one burst, then the
cached copy. -/
def storeByte (a : RegIdx) (cached new : Byte) (update : Session → Session) (s : State) : Out State :=
  if new = cached then .next s
  else andThen (sendFrame a [new] s) fun s => .next (s.withSession (update s.session))

/-- `bp[i].upper <- b`. -/
def Session.setUpper (x : Session) (i : Fin 4) (b : Byte) : Session := x.setSlot i { x.slot i with upper := b }

/-- `bp[i].high <- b`. -/
def Session.setHigh (x : Session) (i : Fin 4) (b : Byte) : Session := x.setSlot i { x.slot i with high := b }

/-- `bp[i].low <- b`. -/
def Session.setLow (x : Session) (i : Fin 4) (b : Byte) : Session := x.setSlot i { x.slot i with low := b }

/-- The address writes of SET_BREAKPOINT after validation: upper, high, low (R174, D15). A wildcard writes no low byte
and keeps the stored one (D14). -/
def storeAddress (x : SetArgs) (s : State) : Out State :=
  andThen (storeByte s.map.wAddrU[x.slot] (s.session.slot x.slot).upper x.upper (·.setUpper x.slot x.upper) s) fun s =>
  andThen (storeByte s.map.wAddrH[x.slot] (s.session.slot x.slot).high x.high (·.setHigh x.slot x.high) s) fun s =>
  match x.low with
  | some v => storeByte s.map.wAddrL[x.slot] (s.session.slot x.slot).low v (·.setLow x.slot v) s
  | none => .next s

/-- SET_BREAKPOINT id, addr_upper, addr_high, addr_low (R174). A concrete low byte clears the wildcard flag of slot 0
or 1, an absent one sets it; the slot is enabled; the control byte is always written. -/
def execSetBreakpoint (id addrUpper addrHigh : Int) (addrLow : Option Int) (s : State) : Out State :=
  whenOpen s
    (match checkSet id addrUpper addrHigh addrLow with
     | .error c => raise c s
     | .ok x =>
       andThen (storeAddress x s) fun s =>
       writeCtl (s.withSession ((s.session.setWildcard x.slot x.low.isNone).setEnabled x.slot true)))

/-- DISABLE_BREAKPOINT id (R176): the address and the wildcard flag are kept. -/
def execDisableBreakpoint (id : Int) (s : State) : Out State :=
  whenOpen s
    (match slotOf id with
     | none => raise .badSlot s
     | some i => writeCtl (s.withSession (s.session.setEnabled i false)))

/-- BREAK_NOW (R178). -/
def execBreakNow (s : State) : Out State :=
  whenOpen s (writeCtl (s.withSession { s.session with breakNow := true }))

/-- CONTINUE_AFTER_BREAK single_step (R180). -/
def execContinueAfterBreak (singleStep : Bool) (s : State) : Out State :=
  whenOpen s (writeCtl (s.withSession { s.session with breakNow := false, singleStep := singleStep }))

/-- GET_BREAKPOINT_STATE (R182): no pin event, no frame. -/
def execGetBreakpointState (s : State) : Out State :=
  whenOpen s (.next (s.respond (.ok (.snapshot s.session.snapshot))))

end Sys2Proof.Machine
end

