-- ==== Sys2Proof/Machine/Dispatch.lean ====
section
/-! DEFINITION. One arm for each constructor of `Instr`. -/

namespace Sys2Proof.Machine

def exec (i : Instr) (s : State) : Host.Outcome State Fault Refusal :=
  match i with
  -- the host commands, in the table's order
  | .linkOpen c d f => Sys2Proof.Machine.execLinkOpen c d f s
  | .close => Sys2Proof.Machine.execClose s
  | .readProductId => Sys2Proof.Machine.execReadProductId s
  | .readProductRevision => Sys2Proof.Machine.execReadProductRevision s
  | .readMbaseFA => Sys2Proof.Machine.execReadMbaseFA s
  | .writeMbaseFA bs => Sys2Proof.Machine.execWriteMbaseFA bs s
  | .readBcuBC => Sys2Proof.Machine.execReadBcuBC s
  | .writeBcuBC bs => Sys2Proof.Machine.execWriteBcuBC bs s
  | .readDeuDE => Sys2Proof.Machine.execReadDeuDE s
  | .writeDeuDE bs => Sys2Proof.Machine.execWriteDeuDE bs s
  | .readIx => Sys2Proof.Machine.execReadIx s
  | .writeIx bs => Sys2Proof.Machine.execWriteIx bs s
  | .readIy => Sys2Proof.Machine.execReadIy s
  | .writeIy bs => Sys2Proof.Machine.execWriteIy bs s
  | .readSp => Sys2Proof.Machine.execReadSp s
  | .writeSp bs => Sys2Proof.Machine.execWriteSp bs s
  | .readMem n => Sys2Proof.Machine.execReadMem n s
  | .writeMem bs => Sys2Proof.Machine.execWriteMem bs s
  | .executeInstructions ops => Sys2Proof.Machine.execExecuteInstructions ops s
  | .reset => Sys2Proof.Machine.execReset s
  | .setBreakpoint n u h l => Sys2Proof.Machine.execSetBreakpoint n u h l s
  | .disableBreakpoint n => Sys2Proof.Machine.execDisableBreakpoint n s
  | .breakNow => Sys2Proof.Machine.execBreakNow s
  | .continueAfterBreak b => Sys2Proof.Machine.execContinueAfterBreak b s
  | .getBreakpointState => Sys2Proof.Machine.execGetBreakpointState s
  -- the internal operations
  | .start => Sys2Proof.Machine.execStart s
  | .writeBit v => Sys2Proof.Machine.execWriteBit v s
  | .clockLow => Sys2Proof.Machine.execClockLow s
  | .readBit => Sys2Proof.Machine.execReadBit s
  | .setDataDirection r => Sys2Proof.Machine.execSetDataDirection r s
  | .writeBurst a bs => Sys2Proof.Machine.execWriteBurst a bs s
  | .readBurst a n => Sys2Proof.Machine.execReadBurst a n s
  | .endBurst => Sys2Proof.Machine.execEndBurst s
  | .readStatus => Sys2Proof.Machine.execReadStatus s

end Sys2Proof.Machine
end

