-- ==== Sys2Proof/Machine/Step.lean ====
section
/-! DEFINITION. One step: the controller takes the next command of the port and executes it to completion (R9, R80). -/

namespace Sys2Proof.Machine

/-- One step.
Inside a burst the controller accepts nothing from the host (R122; log 9). With no command at the port it waits (R222;
log 10). The selector check comes before everything else: an unassigned selector is answered by CV_UNKNOWN_COMMAND,
with no event and no other change (R87, R192; log 22). -/
def step (s : State) : Host.Outcome State Fault Refusal :=
  if s.seq ≠ .idle then .next s
  else
    match s.port with
    | [] => .next s
    | c :: rest =>
      let t := { s with port := rest }
      match decodeCommand c with
      | .ok i => exec i t
      | .error (.unknownSelector _) => raise .unknownCommand t
      | .error _ => .refused (.operandTypes c.selector)

/-- `s` with the command of an opcode-table word as the next command at the port (log 1, 3), at a command boundary, where
the controller accepts one (R34, R122). -/
def State.withFetchWord (s : State) (nbits w : Nat) : State :=
  { s with port := tableCommand nbits w :: s.port, seq := .idle, work := none }

end Sys2Proof.Machine
end

