-- ==== Sys2Proof/Safety.lean ====
section
/-! DEFINITION. The terms claims use: what a burst leaves behind, what the target presents, the invariants, the edge
rules of a trace (R95, R248), coherence with the reference target (R39). -/

namespace Sys2Proof.Machine

/-! ## What a completed burst leaves behind -/

/-- The controller is ready to accept a command on an open Link (R26). -/
abbrev State.ready (s : State) : Prop := s.link = .opened ∧ s.pins = Pins.idle ∧ s.seq = .idle

/-- The time after the events, the first being event number `n` of the trace: each takes its minimum and a free excess
(R41). -/
def timeAfter (delay : Rat) : Nat → Rat → List Event → Rat
  | _, t, [] => t
  | n, t, e :: es => timeAfter delay (n + 1) (t + (eventTime delay e + Config.slack n)) es

/-- The events are appended to the trace and their time passes. -/
def State.observe (s : State) (es : List Event) : State :=
  { s with trace := s.trace ++ es, elapsed := timeAfter s.delay s.trace.length s.elapsed es }

/-- What a completed frame does to the reference target, whatever it was in the middle of (R61, R62, R64): a write burst
stores its bytes at rising indices, a read burst changes no bank; the target then waits for the pulse of a next byte, or a
START. -/
def Dev.apply (m : RegMap) (d : Dev) : Frame → Dev
  | .write a bs => { d.storeAll m a.toNat bs with bus := .separator (a.toNat + bs.length) }
  | .read a n _ => { d with bus := .answer (a.toNat + n) 0 }

/-- The state after a completed write burst from a ready state: its events by the grammar R78, the frame, and the
reference target's write space. -/
def State.sent (s : State) (f : Frame) : State := { (s.observe f.events).complete f with dev := s.dev.apply s.map f }

/-- The state after completed write bursts in order. -/
def State.sentAll (s : State) (fs : List Frame) : State := fs.foldl State.sent s

/-- The level of the i-th `Sense` from now, being the read pulse of bit j of byte k of a read burst at `a` (R60, R62). -/
def State.levelAt (s : State) (a : RegIdx) (k j i : Nat) : Bit :=
  match s.target with
  | .oracle answers =>
    match answers[i]? with
    | some v => v
    | none => Config.lineLevel (s.senses + i)
  | .reference => (s.dev.readReg (a.toNat + k)).getLsbD j

/-- The bits the target presents for byte k of a read burst at `a`, when the first of them is the i-th `Sense` from now:
bit 7 first (R72, R74). -/
def State.presentedBits (s : State) (a : RegIdx) (k i : Nat) : List Bit :=
  [s.levelAt a k 7 i, s.levelAt a k 6 (i + 1), s.levelAt a k 5 (i + 2), s.levelAt a k 4 (i + 3),
   s.levelAt a k 3 (i + 4), s.levelAt a k 2 (i + 5), s.levelAt a k 1 (i + 6), s.levelAt a k 0 (i + 7)]

/-- The n bytes the target presents to a read burst at `a` that begins now. -/
def State.presented (s : State) (a : RegIdx) (n : Nat) : List Byte :=
  (List.range n).map fun k => byteOfBits (s.presentedBits a k (8 * k))

/-- The frame of a read burst at `a` that begins now. -/
def State.readFrame (s : State) (a : RegIdx) (n : Nat) : Frame := .read a n (s.presented a n)

/-- The state after a completed read burst from a ready state: its events, its frame, its answers taken. -/
def State.heard (s : State) (a : RegIdx) (n : Nat) : State :=
  { ((s.observe (s.readFrame a n).events).complete (s.readFrame a n)).answered (8 * n) with
    dev := s.dev.apply s.map (s.readFrame a n) }

/-- The status byte the target presents to a status read that begins now (R132). -/
def State.statusByte (s : State) : Byte := firstByte (s.presented s.map.rStat 1)

/-- The state after a status read (R132). -/
def State.afterStatus (s : State) : State := s.heard s.map.rStat 1

/-- The write frames of SET_BREAKPOINT before its control write: the bytes that differ from the cached ones, upper,
high, low (R174). -/
def addressFrames (m : RegMap) (x : Session) (q : SetArgs) : List Frame :=
  (if q.upper = (x.slot q.slot).upper then [] else [.write m.wAddrU[q.slot] [q.upper]]) ++
  (if q.high = (x.slot q.slot).high then [] else [.write m.wAddrH[q.slot] [q.high]]) ++
  (match q.low with
   | some v => if v = (x.slot q.slot).low then [] else [.write m.wAddrL[q.slot] [v]]
   | none => [])

/-- The session after SET_BREAKPOINT (R174): the supplied bytes, the wildcard flag of slots 0 and 1, the slot enabled. -/
def Session.afterSet (x : Session) (q : SetArgs) : Session :=
  ((x.setSlot q.slot ⟨q.upper, q.high, q.low.getD (x.slot q.slot).low⟩).setWildcard q.slot q.low.isNone).setEnabled
    q.slot true

/-- The fourteen frames of RESET (R160). -/
def resetFrames (m : RegMap) (x : Session) : List Frame := (resetWrites m x).map fun p => .write p.1 [p.2]

/-! ## Invariants -/

/-- At a command boundary the sequencer is idle and has no working registers; on an open Link the lines are idle (R26,
R34, R35). -/
def IdleInv (s : State) : Prop :=
  s.seq = .idle ∧ s.work = none ∧ (s.link = .opened → s.pins = Pins.idle)

/-- Once opened, the configuration exists, its frequency is positive and `DELAY = 3 / F_TARGET` (R6, R21). -/
def CfgInv (s : State) : Prop :=
  s.link ≠ .unopened → ∃ c, s.cfg = some c ∧ 0 < c.fTarget ∧ 0 < c.delay ∧ c.delay = 3 / c.fTarget

/-- The counts of a place in a burst are below what ends their part: at most 6 address bits, 7 data bits, 8 read pulses
held (R70 to R74). -/
def Bus.wf : Bus → Bool
  | .waiting => true
  | .address bits => decide (bits.length ≤ 6)
  | .direction _ => true
  | .separator _ => true
  | .data _ bits => decide (bits.length ≤ 7)
  | .answer _ n => decide (n ≤ 8)

/-- Both banks of the reference target are in canonical form, and its place in the burst is one of R70. -/
def BanksInv (s : State) : Prop := s.dev.w.wf = true ∧ s.dev.r.wf = true ∧ s.dev.bus.wf = true

/-- A frame a completed burst can leave: at least one byte, and as many bytes as were asked for (R82, R117). -/
def frameComplete : Frame → Bool
  | .write _ bs => !bs.isEmpty
  | .read _ n rx => decide (1 ≤ n) && decide (rx.length = n)

/-- The event trace is the events of LINK_OPEN, then the bursts of the frame trace one after the other, then after CLOSE
its events (R43, R79). -/
def TraceInv (s : State) : Prop :=
  (∀ f ∈ s.frames, frameComplete f = true) ∧
  match s.link with
  | .unopened => s.trace = [] ∧ s.frames = []
  | .opened => s.trace = linkOpenEvents ++ s.frames.flatMap Frame.events
  | .closed => s.trace = linkOpenEvents ++ s.frames.flatMap Frame.events ++ closeEvents

/-- The number of `Sleep(DELAY)` events (R246). -/
def sleeps (es : List Event) : Nat := es.countP fun e => e == .sleep

/-- At least `DELAY` has passed for every `Sleep` of the trace (R41, R203). -/
def TimeInv (s : State) : Prop := (sleeps s.trace : Rat) * s.delay ≤ s.elapsed

/-! ## Edge rules of a trace (R91, R95, R248) -/

/-- What the edge rules look at: the pins, whether a `Sleep` has passed since the last `Drive` of ZCL, whether the last
event drove ZCL low, and whether ZDA has been driven high at a high clock since the last START. -/
structure Edges where
  pins     : Pins
  slept    : Bool
  justFell : Bool
  ended    : Bool
  deriving DecidableEq, Repr

/-- The edge rules for one event. R248 (a): ZCL changes only after a `Sleep`. R248 (d): ZDA is driven only in the drive
role. R95, R248 (b): while ZCL is high ZDA is driven low only from high, which is a START, and driven high only at the end
of a burst or outside one: no fall of ZCL follows before the next START. R248 (c): a `Sense` comes in the sense role, with
ZCL low, directly after a `Drive(ZCL, 0)`. -/
def Edges.allows (x : Edges) : Event → Bool
  | .drive .zcl v => (v == x.pins.zcl || x.slept) && (v || !x.pins.zcl || !x.ended)
  | .drive .zda v => decide (x.pins.role = .driving) && (!x.pins.zcl || v || x.pins.zdaOut)
  | .sense _ => decide (x.pins.role = .sensing) && !x.pins.zcl && x.justFell
  | .setRole _ => true
  | .acquire _ => true
  | .release _ => true
  | .sleep => true

/-- What the edge rules remember after an event. -/
def Edges.after (x : Edges) (e : Event) : Edges where
  pins     := x.pins.after e
  slept    := match e with
    | .sleep => true
    | .drive .zcl _ => false
    | _ => x.slept
  justFell := decide (e = .drive .zcl false)
  ended    := match e with
    | .drive .zda v => if x.pins.zcl then v else x.ended
    | _ => x.ended

/-- Every event of the trace obeys the edge rules. -/
def obeysEdges (x : Edges) : List Event → Bool
  | [] => true
  | e :: es => x.allows e && obeysEdges (x.after e) es

/-- The number of START conditions in a trace: falls of ZDA while ZCL is high (R14, R91). -/
def starts (p : Pins) : List Event → Nat
  | [] => 0
  | e :: es => (if p.zcl && p.zdaOut && decide (e = .drive .zda false) then 1 else 0) + starts (p.after e) es

/-- The number of rises of ZDA while ZCL is high in a trace (R119). -/
def rises (p : Pins) : List Event → Nat
  | [] => 0
  | e :: es => (if p.zcl && !p.zdaOut && decide (e = .drive .zda true) then 1 else 0) + rises (p.after e) es

/-- A write burst whose last bit is 0: the one burst that needs END_BURST to raise ZDA (R119). -/
def endsLow : Frame → Bool
  | .write _ bs => !(bs.getLast?.getD 0xFF).getLsbD 0
  | .read _ _ _ => false

/-- The number of rising edges of ZCL in a trace: the clock pulses (R70). -/
def pulses (p : Pins) : List Event → Nat
  | [] => 0
  | e :: es => (if !p.zcl && decide (e = .drive .zcl true) then 1 else 0) + pulses (p.after e) es

/-- The bits on ZDA at the rising edges of ZCL while the controller drives: what the target samples (R95). -/
def sampled (p : Pins) : List Event → List Bit
  | [] => []
  | e :: es =>
    if !p.zcl && decide (e = .drive .zcl true) && decide (p.role = .driving) then p.zdaOut :: sampled (p.after e) es
    else sampled (p.after e) es

/-- An event without the level a `Sense` returned: what the controller itself did. -/
def blindEvent : Event → Event
  | .sense _ => .sense false
  | e => e

/-- A frame without the bytes a read burst received; their number stays. -/
def blindFrame : Frame → Frame
  | .write a bs => .write a bs
  | .read a n rx => .read a n (rx.map fun _ => 0)

/-- A value without the bits the target answered; its kind and length stay. -/
def blindValue : Value → Value
  | .unit => .unit
  | .bit _ => .bit false
  | .byte _ => .byte 0
  | .word _ => .word 0
  | .bytes bs => .bytes (bs.map fun _ => 0)
  | .snapshot x => .snapshot x

/-- A response without the bits the target answered; Ok stays Ok, an Error keeps its cause. -/
def blindResponse : Response → Response
  | .ok v => .ok (blindValue v)
  | .error c => .error c

/-- The working registers of a burst without the bits received; the number of bytes stays. -/
def blindBurst (w : Burst) : Burst := { w with rx := w.rx.map (fun _ => 0), shift := 0 }

/-! ## Coherence with the reference target (R39, R161) -/

/-- The twelve address registers and the control register of the reference target equal the controller's copy (R39). -/
def Coherent (s : State) : Prop :=
  (∀ i : Fin 4,
    s.dev.w.read s.map.wAddrU[i].toNat = (s.session.slot i).upper ∧
    s.dev.w.read s.map.wAddrH[i].toNat = (s.session.slot i).high ∧
    s.dev.w.read s.map.wAddrL[i].toNat = (s.session.slot i).low) ∧
  s.dev.w.read s.map.wBrkCtl.toNat = s.session.packCtl

/-- The thirteen breakpoint registers and the master-control register are fourteen different indices (R50: an index
names one register). -/
def mapDistinct (m : RegMap) : Bool := decide (m.wMasterCtl :: breakRegs m).Nodup

/-- Every other register a command writes lies above the breakpoint and master-control registers, so that no burst of
another command, which moves upwards (R58), reaches them. -/
def mapSeparate (m : RegMap) : Bool :=
  (m.wMasterCtl :: breakRegs m).all fun a =>
    decide (a < m.wWrMem) && decide (a < m.mbaseFA.wrReg) && decide (a < m.bcuBC.wrReg) && decide (a < m.deuDE.wrReg) &&
    decide (a < m.ix.wrReg) && decide (a < m.iy.wrReg) && decide (a < m.spWrReg) && decide (a ≤ m.isBase)

/-! ## What an operation stores, what two states share -/

/-- What a one-burst writing operation stores: the start index and the bytes (R115, R135, R147, R151, R155). -/
def storeOf (m : RegMap) : Instr → Option (Int × List Byte)
  | .writeMbaseFA bs => some (m.mbaseFA.wrReg.toNat, bs)
  | .writeBcuBC bs => some (m.bcuBC.wrReg.toNat, bs)
  | .writeDeuDE bs => some (m.deuDE.wrReg.toNat, bs)
  | .writeIx bs => some (m.ix.wrReg.toNat, bs)
  | .writeIy bs => some (m.iy.wrReg.toNat, bs)
  | .writeSp bs => some (m.spWrReg.toNat, bs)
  | .writeMem bs => some (m.wWrMem.toNat, bs)
  | .executeInstructions ops => some (isStart m ops.length, ops.reverse)
  | .writeBurst a bs => some (a, bs)
  | _ => none

/-- Two states agree on everything but what the target answers with (`target`, the read space) and what was sensed of
it: in the trace, the frames, the responses, the result and the working registers only the sensed bits may differ. -/
structure SameController (s u : State) : Prop where
  map       : s.map = u.map
  port      : s.port = u.port
  cfg       : s.cfg = u.cfg
  link      : s.link = u.link
  pins      : s.pins = u.pins
  session   : s.session = u.session
  seq       : s.seq = u.seq
  work      : s.work.map blindBurst = u.work.map blindBurst
  trace     : s.trace.map blindEvent = u.trace.map blindEvent
  frames    : s.frames.map blindFrame = u.frames.map blindFrame
  elapsed   : s.elapsed = u.elapsed
  responses : s.responses.map blindResponse = u.responses.map blindResponse
  ret       : s.ret.map blindResponse = u.ret.map blindResponse
  dev_w     : s.dev.w = u.dev.w
  dev_bus   : s.dev.bus = u.dev.bus
  senses    : s.senses = u.senses

end Sys2Proof.Machine
end

