-- ==== Sys2Proof/Certificates/Slice0/Obligations.lean ====
section
/-! DEFINITION. The statements about the model, for the provers. Every statement is about `exec`, `step`, the encodings or
the grammar of spec/30_encoding.md; where one rests on a decision of the spec (a row D<n> of spec/92_eei_decisions.md)
or on a log entry, its docstring says so. -/

open Sys2Proof Sys2Proof.Machine

/-! ## Encodings -/

/-- R111, R112 (the round trip is derived by the spec from R110, R111): the two conversions are inverse to each other at
every width; the value of a bit list is the sum in which element i counts `2^(w-1-i)`, and lies below `2^w`. -/
def Obligations.BitListsRoundTrip : Prop :=
  (∀ w n : Nat, n < 2 ^ w → bitsToNumber (numberToBits n w) = n) ∧
  (∀ bs : List Bit, numberToBits (bitsToNumber bs) bs.length = bs) ∧
  (∀ bs : List Bit,
    bitsToNumber bs = ((List.range bs.length).map fun i => (bs.getD i false).toNat * 2 ^ (bs.length - 1 - i)).sum ∧
    bitsToNumber bs < 2 ^ bs.length)

/-- Words written out from R81 and from the `encoding` column of the opcode table decode to their operations. The tables
give a selector no operand bits: that `decodeTableWord` fills LINK_OPEN's operands with zeros is the model's choice (log 3),
and so are the symbols in which the link primitives and the bursts are written (log 24). -/
def Obligations.TableWordsDecode : Prop :=
  decodeTableWord 8 0x00 = some (.linkOpen 0 0 0) ∧
  decodeTableWord 8 0x20 = some .readProductId ∧
  decodeTableWord 8 0x41 = some .reset ∧
  decodeTableWord 8 0x54 = some .getBreakpointState ∧
  decodeTableWord 8 0x7F = none ∧
  (∀ m, decode m (.link (.drive true)) = .ok (.writeBit true)) ∧
  (∀ m, decode m (.w ([false, false, true, false, false, false, false, false, true, true, false, true, false, true, false,
    true, false].map .drive)) = .ok (.writeBurst 0x10 [0xAA]))

/-- Decode and encode agree for every operation that has an encoding (R81, R71, R72, R82), with every operand at every
value the encoding admits. The port's typed operands follow R81 and D1. -/
def Obligations.DecodeOfEncodeIsTheInstruction : Prop :=
  ∀ (m : RegMap) (i : Instr), i.wellFormed = true → decode m (encode m i) = .ok i

/-- R79 (derived by the spec from R78): the parser of the event grammar gives back exactly the frames whose traces were
concatenated; so two different lists of complete frames never have the same trace. -/
def Obligations.ParsingTheTraceGivesTheFrames : Prop :=
  ∀ fs : List Frame, (∀ f ∈ fs, frameComplete f = true) → parseFrames (fs.flatMap Frame.events) = some fs

/-- R70, R71: a write burst of n bytes puts on the wire, at its clock pulses, the address most significant bit first, the
direction bit 0, and for each byte a separator 1 and its bits most significant first; it has `8 + 9n` pulses, one START,
and ends with the clock high. -/
def Obligations.WriteBurstOnTheWire : Prop :=
  ∀ (a : RegIdx) (bs : List Byte), bs ≠ [] →
    sampled Pins.idle (Frame.write a bs).events =
      numberToBits a.toNat 7 ++ [false] ++ bs.flatMap (fun b => true :: numberToBits b.toNat 8) ∧
    pulses Pins.idle (Frame.write a bs).events = 8 + 9 * bs.length ∧
    starts Pins.idle (Frame.write a bs).events = 1 ∧
    (((Frame.write a bs).events.foldl Pins.after Pins.idle).zcl = true)

/-- R70, R72: a read burst of n bytes drives the address, the direction bit 1, a 0 after every byte but the last and a 1
after the last; the target's bytes are sensed most significant bit first; it has `8 + 9n` pulses, one START, and ends
with the clock high. -/
def Obligations.ReadBurstOnTheWire : Prop :=
  ∀ (a : RegIdx) (rx : List Byte), rx ≠ [] →
    sampled Pins.idle (Frame.read a rx.length rx).events =
      numberToBits a.toNat 7 ++ [true] ++ List.replicate (rx.length - 1) false ++ [true] ∧
    ((Frame.read a rx.length rx).events.filterMap fun e => match e with
      | .sense v => some v
      | _ => none) = rx.flatMap (fun b => numberToBits b.toNat 8) ∧
    pulses Pins.idle (Frame.read a rx.length rx).events = 8 + 9 * rx.length ∧
    starts Pins.idle (Frame.read a rx.length rx).events = 1 ∧
    (((Frame.read a rx.length rx).events.foldl Pins.after Pins.idle).zcl = true)

/-- R116, R118 (derived by the spec): the number of `Sleep(DELAY)` events of a burst. -/
def Obligations.BurstSleepCounts : Prop :=
  (∀ (a : RegIdx) (bs : List Byte) (b : Byte),
    sleeps (Frame.write a (bs ++ [b])).events =
      18 + 18 * (bs.length + 1) + (if b.getLsbD 0 = false then 1 else 0)) ∧
  (∀ (a : RegIdx) (rx : List Byte), rx ≠ [] →
    sleeps (Frame.read a rx.length rx).events = 18 + 20 * rx.length)

/-! ## The Link -/

/-- LINK_OPEN from an unopened controller with a positive frequency (R90; the order of its events is the spec's decision
D3, the cleared byte 0x00 its decision D13): the configuration, both lines high and driven, a cleared Session, an idle
sequencer, the five events and their time, the response; nothing else changes. No state of the lines is assumed: before
`Acquire` they are not the controller's, so whether raising ZCL is one more clock pulse to the reference target, and with
which level on ZDA, is free (R221, R236; log 31). A frequency that is not positive is rejected before any pin is
acquired, and nothing changes but the response (R190; that the check is made at LINK_OPEN is the spec's decision D2). -/
def Obligations.LinkOpenCreatesTheController : Prop :=
  ∀ (s : State) (c d : PinId) (f : Rat), s.link = .unopened →
    exec (.linkOpen c d f) s = .next
      (if f ≤ 0 then { s with responses := s.responses ++ [.error .badFrequency] }
       else
         { ({ s with cfg := some { clkPin := c, dataPin := d, fTarget := f, delay := 3 / f } } : State).observe
             [.acquire .zcl, .drive .zcl true, .acquire .zda, .drive .zda true, .sleep] with
           link := .opened
           pins := { zcl := true, zdaOut := true, role := .driving }
           session :=
             { bp := #v[⟨0x00, 0x00, 0x00⟩, ⟨0x00, 0x00, 0x00⟩, ⟨0x00, 0x00, 0x00⟩, ⟨0x00, 0x00, 0x00⟩]
               en := #v[false, false, false, false]
               ignLow := #v[false, false]
               breakNow := false
               singleStep := false }
           seq := .idle
           work := none
           responses := s.responses ++ [.ok .unit]
           dev := if Config.undriven s.trace.length = true then s.dev
             else s.dev.pulse s.map (Config.undriven (s.trace.length + 1)) })

/-- CLOSE on an open Link (R99; the order of its events is the spec's decision D9; that the Session's fields become the
cleared values when the Session ceases to exist is the model's choice, log 13). From a low clock the reference target sees
one clock pulse; whether a role switch at a high clock looks like a START to it is free (R234; log 31). -/
def Obligations.CloseEndsTheController : Prop :=
  ∀ s : State, s.link = .opened →
    exec .close s = .next
      { s.observe ((if s.pins.role = .sensing then [.setRole .driving] else []) ++
          [.drive .zcl true, .drive .zda true, .sleep, .release .zcl, .release .zda]) with
        link := .closed
        pins := { zcl := true, zdaOut := true, role := .driving }
        session := Session.cleared
        responses := s.responses ++ [.ok .unit]
        dev := if s.pins.zcl = false then s.dev.pulse s.map s.pins.zdaOut
          else if s.pins.role = .sensing ∧ Config.undriven s.trace.length = true then { s.dev with bus := .address [] }
          else s.dev }

/-- START from idle lines (R91; the delay after the second transition is the spec's decision D4). The reference target
abandons whatever burst it was in, wherever it was, and begins a new one (R64). -/
def Obligations.StartMakesTheStartCondition : Prop :=
  ∀ s : State, s.link = .opened → s.pins = { zcl := true, zdaOut := true, role := .driving } →
    exec .start s = .next
      { s.observe [.drive .zda false, .sleep, .drive .zcl false, .sleep] with
        pins := { zcl := false, zdaOut := false, role := .driving }
        dev := { s.dev with bus := .address [] } }

/-- WRITE_BIT drives the data line, waits, raises the clock, waits; it ends with the clock high (R92). The reference
target takes the bit at the rising edge (R95, R73, R61): the separator before a byte of a write burst, or after a byte of
a read burst, may have either value (R64), and the eighth bit of a byte stores it. -/
def Obligations.WriteBitDrivesThenClocks : Prop :=
  ∀ (s : State) (v : Bit), s.link = .opened → s.pins.role = .driving → s.pins.zcl = false →
    ∃ t, exec (.writeBit v) s = .next t ∧
      t = { s.observe [.drive .zda v, .sleep, .drive .zcl true, .sleep] with
        pins := { zcl := true, zdaOut := v, role := .driving }
        dev := s.dev.pulse s.map v } ∧
      (∀ a, s.dev.bus = .separator a → t.dev = { s.dev with bus := .data a [] }) ∧
      (∀ a, s.dev.bus = .answer a 8 → t.dev = { s.dev with bus := .answer (a + 1) 0 }) ∧
      (∀ a b7 b6 b5 b4 b3 b2 b1, s.dev.bus = .data a [b7, b6, b5, b4, b3, b2, b1] →
        t.dev = { s.dev.store s.map a (byteOfBits [b7, b6, b5, b4, b3, b2, b1, v]) with bus := .separator (a + 1) })

/-- CLOCK_LOW (R93; that it has no delay of its own is the spec's decision D5), in either role of ZDA. -/
def Obligations.ClockLowLowersTheClock : Prop :=
  ∀ s : State, s.link = .opened → s.pins.zcl = true →
    exec .clockLow s = .next { s.observe [.drive .zcl false] with pins := { s.pins with zcl := false } }

/-- READ_BIT raises the clock, waits, lowers it, senses at once, waits, and returns the level sensed; it ends with the
clock low (R94). The level is the target's answer, whatever it is (R60); the reference target answers the read pulse number
n + 1 of a byte with its bit 7 - n (R62, R72). What the reference target takes from a pulse on which the controller drives
nothing is free (log 31). -/
def Obligations.ReadBitSensesAfterTheFall : Prop :=
  ∀ s : State, s.link = .opened → s.pins.role = .sensing → s.pins.zcl = false →
    let d := s.dev.pulse s.map (Config.undriven s.trace.length)
    let v := ({ s with dev := d } : State).level
    exec .readBit s = .next
      { s.observe [.drive .zcl true, .sleep, .drive .zcl false, .sense v, .sleep] with
        target := s.target.drop 1
        senses := s.senses + 1
        dev := d
        ret := some (.ok (.bit v)) } ∧
    (∀ w answers, s.target = .oracle (w :: answers) → v = w ∧ s.target.drop 1 = .oracle answers) ∧
    (∀ (a n : Nat), s.target = .reference → s.dev.bus = .answer a n → n < 8 →
      d = { s.dev with bus := .answer a (n + 1) } ∧ v = (s.dev.readReg a).getLsbD (7 - n))

/-- SET_DATA_DIRECTION on an open Link (R98; the place of its delay is the spec's decision D6): nothing when the role is
the same already, otherwise one role event and one delay; the latch level is kept. At a low clock the reference target
sees nothing; whether a switch at a high clock looks like a START to it is free (R234; log 31). -/
def Obligations.SetDataDirectionSwitchesTheRole : Prop :=
  ∀ (s : State) (r : Role), s.link = .opened →
    exec (.setDataDirection r) s = .next
      (if r = s.pins.role then s
       else
         { s.observe [.setRole r, .sleep] with
           pins := { s.pins with role := r }
           dev := if s.pins.zcl = true ∧ Config.undriven s.trace.length = true then { s.dev with bus := .address [] }
             else s.dev })

/-- The four Link primitives stop with LinkMisuse exactly outside their preconditions (R91 to R94, R199; the fault is the
spec's decision D10). -/
def Obligations.LinkPrimitivesFaultOutsideTheirPreconditions : Prop :=
  ∀ s : State,
    (exec .start s = .fault (.linkMisuse .startNotIdle) ↔
      ¬ (s.link = .opened ∧ s.pins = { zcl := true, zdaOut := true, role := .driving })) ∧
    (∀ v, exec (.writeBit v) s = .fault (.linkMisuse .writeBitBadState) ↔
      ¬ (s.link = .opened ∧ s.pins.role = .driving ∧ s.pins.zcl = false)) ∧
    (exec .clockLow s = .fault (.linkMisuse .clockAlreadyLow) ↔
      ¬ (s.link = .opened ∧ s.pins.zcl = true)) ∧
    (exec .readBit s = .fault (.linkMisuse .readBitBadState) ↔
      ¬ (s.link = .opened ∧ s.pins.role = .sensing ∧ s.pins.zcl = false))

/-! ## The Framer -/

/-- WRITE_BURST from a ready controller (R115 line by line gives the trace of R78; END_BURST is the spec's decision D8):
the events of the frame, the frame, the reference target's write space and its place in the burst, the result; nothing else
changes. Whatever burst the target was in is abandoned (R64). -/
def Obligations.WriteBurstSendsItsFrame : Prop :=
  ∀ (s : State) (a : Int) (bs : List Byte), s.ready → 0 ≤ a → a ≤ 127 → bs ≠ [] →
    exec (.writeBurst a bs) s =
      .next { s.sent (.write (BitVec.ofInt 7 a) bs) with ret := some (.ok .unit) }

/-- READ_BURST from a ready controller (R117, R78; the order of clock fall and role switch is the spec's decision D7): the
result is the bytes the target presents, in the order received; the lines are idle again. -/
def Obligations.ReadBurstReturnsWhatTheTargetPresents : Prop :=
  ∀ (s : State) (a n : Int), s.ready → 0 ≤ a → a ≤ 127 → 1 ≤ n →
    exec (.readBurst a n) s =
      .next { s.heard (BitVec.ofInt 7 a) n.toNat with
        ret := some (.ok (.bytes (s.presented (BitVec.ofInt 7 a) n.toNat))) }

/-- R117, R74, R62: when the given answers of the oracle are the bits of some bytes, most significant first, a read burst
of that many bytes returns those bytes and leaves the other answers; the reference target answers byte k of a read burst
at `a` with `dev.R[a + k]`, and with 0 past index 127, whatever burst it was in before (R64). -/
def Obligations.ReadBurstReturnsTheTargetsBytes : Prop :=
  ∀ (s : State) (a : RegIdx), s.ready →
    (∀ (bs : List Byte) (rest : List Bit), bs ≠ [] →
      s.target = .oracle (bs.flatMap (fun b => numberToBits b.toNat 8) ++ rest) →
      ∃ t, exec (.readBurst a.toNat bs.length) s = .next t ∧ t.ret = some (.ok (.bytes bs)) ∧
        t.frames = s.frames ++ [.read a bs.length bs] ∧ t.target = .oracle rest) ∧
    (∀ n : Nat, 1 ≤ n → s.target = .reference →
      ∃ t, exec (.readBurst a.toNat n) s = .next t ∧
        t.ret = some (.ok (.bytes ((List.range n).map fun k =>
          if a.toNat + k ≤ 127 then s.dev.r.read (a.toNat + k) else 0x00))) ∧
        t.dev = { s.dev with bus := .answer (a.toNat + n) 0 })

/-- The argument checks of both bursts (R113, R190): the register index first, then emptiness; a negative count counts as
empty (the spec's decision D17). Nothing changes but the error given to the layer above (log 19). -/
def Obligations.BurstArgumentChecks : Prop :=
  ∀ (s : State) (a n : Int) (bs : List Byte), s.link = .opened →
    ((a < 0 ∨ 127 < a) →
      exec (.writeBurst a bs) s = .next { s with ret := some (.error .badRegister) } ∧
      exec (.readBurst a n) s = .next { s with ret := some (.error .badRegister) }) ∧
    (0 ≤ a → a ≤ 127 →
      exec (.writeBurst a []) s = .next { s with ret := some (.error .emptyBurst) } ∧
      (n < 1 → exec (.readBurst a n) s = .next { s with ret := some (.error .emptyBurst) }))

/-- END_BURST (R119, the spec's decision D8) with the clock high and the final bit written, which is phase End (log 29):
a low data line is raised and one delay passes; a high one stays and no event is emitted. -/
def Obligations.EndBurstRaisesTheDataLine : Prop :=
  ∀ s : State, s.link = .opened → s.pins.zcl = true → s.pins.role = .driving → s.seq = .endMark →
    exec .endBurst s = .next
      (if s.pins.zdaOut = false then
         { s.observe [.drive .zda true, .sleep] with pins := { s.pins with zdaOut := true } }
       else s)

/-! ## The Session: registers, memory, injection, reset -/

/-- READ_PRODUCT_ID (R130; the start register and the combine of the received order are the spec's decision D21): one read
burst of two bytes at `R_ID_L`, the first byte the high half. -/
def Obligations.ReadProductIdCombinesTwoBytes : Prop :=
  ∀ s : State, s.ready →
    ∃ x y : Byte, s.presented s.map.rIdL 2 = [x, y] ∧
      exec .readProductId s = .next
        { s.heard s.map.rIdL 2 with
          responses := s.responses ++ [.ok (.word (BitVec.ofNat 16 (x.toNat * 256 + y.toNat)))] }

/-- READ_PRODUCT_REVISION (R131) is a one-byte read burst from the upper ID register; READ_STATUS (R132) is a one-byte
read burst at `R_STAT`, and its result goes to the Session, not to the host: that `ret` holds it is the model's choice
(log 19). -/
def Obligations.RevisionAndStatusReadOneByte : Prop :=
  ∀ s : State, s.ready →
    (∃ x : Byte, s.presented s.map.rIdRev 1 = [x] ∧
      exec .readProductRevision s = .next
        { s.heard s.map.rIdRev 1 with responses := s.responses ++ [.ok (.byte x)] }) ∧
    (∃ x : Byte, s.presented s.map.rStat 1 = [x] ∧
      exec .readStatus s = .next { s.heard s.map.rStat 1 with ret := some (.ok (.byte x)) })

/-- The five group reads (R134, R136 to R144; the group table is the spec's decision D23): one read burst of the group's
index and length, the bytes as received; a configured length 0 is rejected by the Framer's check. -/
def Obligations.GroupReadsAreOneReadBurst : Prop :=
  ∀ (s : State) (i : Instr) (g : GroupParams), s.ready →
    (i, g) ∈ [(Instr.readMbaseFA, s.map.mbaseFA), (Instr.readBcuBC, s.map.bcuBC), (Instr.readDeuDE, s.map.deuDE),
      (Instr.readIx, s.map.ix), (Instr.readIy, s.map.iy)] →
    exec i s = .next
      (if g.len = 0 then { s with responses := s.responses ++ [.error .emptyBurst] }
       else { s.heard g.rdReg g.len with
         responses := s.responses ++ [.ok (.bytes (s.presented g.rdReg g.len))] })

/-- The five group writes (R135, R137 to R145; the group table is the spec's decision D23): one write burst of the bytes
as given, whatever their number; an empty list is rejected. -/
def Obligations.GroupWritesAreOneWriteBurst : Prop :=
  ∀ (s : State) (bs : List Byte) (i : Instr) (g : GroupParams), s.ready →
    (i, g) ∈ [(Instr.writeMbaseFA bs, s.map.mbaseFA), (Instr.writeBcuBC bs, s.map.bcuBC),
      (Instr.writeDeuDE bs, s.map.deuDE), (Instr.writeIx bs, s.map.ix), (Instr.writeIy bs, s.map.iy)] →
    exec i s = .next
      (if bs = [] then { s with responses := s.responses ++ [.error .emptyBurst] }
       else { s.sent (.write g.wrReg bs) with responses := s.responses ++ [.ok .unit] })

/-- READ_SP (R146; the mask is the spec's decision D22): a status read, then three bytes in ADL mode and two otherwise. -/
def Obligations.ReadSpChoosesTheWidthFromTheStatus : Prop :=
  ∀ s : State, s.ready →
    ∃ st : Byte, s.presented s.map.rStat 1 = [st] ∧
      let u := s.heard s.map.rStat 1
      let n := if st &&& s.map.statAdlMask ≠ 0 then 3 else 2
      exec .readSp s = .next
        { u.heard s.map.spRdReg n with
          responses := s.responses ++ [.ok (.bytes (u.presented s.map.spRdReg n))] }

/-- WRITE_SP (R147; the spec's decision D22): an empty list is rejected before the status read; a list of the selected
length is written; any other length has no meaning, and the status frame is then already on the wire. -/
def Obligations.WriteSpChecksTheLengthAgainstTheStatus : Prop :=
  ∀ (s : State) (bs : List Byte), s.ready →
    ∃ st : Byte, s.presented s.map.rStat 1 = [st] ∧
      let n := if st &&& s.map.statAdlMask ≠ 0 then 3 else 2
      exec (.writeSp bs) s =
        (if bs = [] then .next { s with responses := s.responses ++ [.error .emptyBurst] }
         else if bs.length = n then
           .next { (s.heard s.map.rStat 1).sent (.write s.map.spWrReg bs) with
             responses := s.responses ++ [.ok .unit] }
         else .refused (.spLengthMismatch (.read s.map.rStat 1 [st]) bs.length))

/-- READ_MEM and WRITE_MEM (R150, R151; that they are the document's program-counter-relative memory is the spec's decision
D23): one burst each, the bytes unchanged; a count below 1 and an empty list are rejected. -/
def Obligations.MemoryBurstsAreOneBurst : Prop :=
  ∀ (s : State) (n : Int) (bs : List Byte), s.ready →
    exec (.readMem n) s = .next
      (if n < 1 then { s with responses := s.responses ++ [.error .emptyBurst] }
       else { s.heard s.map.rRdMem n.toNat with
         responses := s.responses ++ [.ok (.bytes (s.presented s.map.rRdMem n.toNat))] }) ∧
    exec (.writeMem bs) s = .next
      (if bs = [] then { s with responses := s.responses ++ [.error .emptyBurst] }
       else { s.sent (.write s.map.wWrMem bs) with responses := s.responses ++ [.ok .unit] })

/-- EXECUTE_INSTRUCTIONS (R155; the formula is the spec's decision D19, the check order its decision D17): more than five
opcodes, a start index past 127 and an empty list are rejected in this order; otherwise one write burst of the opcodes in
reverse order at `IS_BASE + n + 1`. -/
def Obligations.ExecuteInstructionsWritesReversed : Prop :=
  ∀ (s : State) (ops : List Byte), s.ready →
    exec (.executeInstructions ops) s = .next
      (if 5 < ops.length then { s with responses := s.responses ++ [.error .tooManyOpcodes] }
       else if 127 < s.map.isBase.toNat + ops.length + 1 then
         { s with responses := s.responses ++ [.error .badRegister] }
       else if ops = [] then { s with responses := s.responses ++ [.error .emptyBurst] }
       else { s.sent (.write (BitVec.ofNat 7 (s.map.isBase.toNat + ops.length + 1)) ops.reverse) with
         responses := s.responses ++ [.ok .unit] })

/-- RESET (R160, R161; the order of the twelve address writes is the spec's decision D16): the reset trigger 0xF0, the
stored bytes of slots 0 to 3, upper, high, low, whether enabled or not, then the control byte: fourteen write frames; the
Session is unchanged. -/
def Obligations.ResetReplaysTheBreakpoints : Prop :=
  ∀ s : State, s.ready →
    exec .reset s = .next
      { s.sentAll
          [.write s.map.wMasterCtl [0xF0],
           .write s.map.wAddrU[0] [s.session.bp[0].upper], .write s.map.wAddrH[0] [s.session.bp[0].high],
           .write s.map.wAddrL[0] [s.session.bp[0].low],
           .write s.map.wAddrU[1] [s.session.bp[1].upper], .write s.map.wAddrH[1] [s.session.bp[1].high],
           .write s.map.wAddrL[1] [s.session.bp[1].low],
           .write s.map.wAddrU[2] [s.session.bp[2].upper], .write s.map.wAddrH[2] [s.session.bp[2].high],
           .write s.map.wAddrL[2] [s.session.bp[2].low],
           .write s.map.wAddrU[3] [s.session.bp[3].upper], .write s.map.wAddrH[3] [s.session.bp[3].high],
           .write s.map.wAddrL[3] [s.session.bp[3].low],
           .write s.map.wBrkCtl [s.session.packCtl]] with
        responses := s.responses ++ [.ok .unit] }

/-! ## The breakpoint state machine -/

/-- R170, R37: bit by bit, the packed control byte is `single_step`, `ignore_low_0`, `ignore_low_1`, `enabled[0]` to
`enabled[3]`, `break_now`, from bit 0 to bit 7. -/
def Obligations.ControlByteLayout : Prop :=
  ∀ x : Session,
    x.packCtl.getLsbD 0 = x.singleStep ∧ x.packCtl.getLsbD 1 = x.ignLow[0] ∧ x.packCtl.getLsbD 2 = x.ignLow[1] ∧
    x.packCtl.getLsbD 3 = x.en[0] ∧ x.packCtl.getLsbD 4 = x.en[1] ∧ x.packCtl.getLsbD 5 = x.en[2] ∧
    x.packCtl.getLsbD 6 = x.en[3] ∧ x.packCtl.getLsbD 7 = x.breakNow

/-- SET_BREAKPOINT with valid operands (R174; one burst for each differing byte in the order upper, high, low is the
spec's decision D15, the kept low byte of a wildcard its decision D14): the differing bytes are written, then the control
byte; the slot holds the supplied bytes, the wildcard flag of slot 0 or 1 mirrors the absent low byte, the slot is
enabled; nothing else changes. -/
def Obligations.SetBreakpointWritesWhatDiffers : Prop :=
  ∀ (s : State) (i : Fin 4) (u h : Byte) (l : Option Byte), s.ready → (l = none → i.val < 2) →
    let x := ((s.session.setSlot i ⟨u, h, l.getD (s.session.slot i).low⟩).setWildcard i l.isNone).setEnabled i true
    exec (.setBreakpoint i.val u.toNat h.toNat (l.map fun v => (v.toNat : Int))) s = .next
      { s.sentAll (addressFrames s.map s.session ⟨i, u, h, l⟩ ++ [.write s.map.wBrkCtl [x.packCtl]]) with
        session := x
        responses := s.responses ++ [.ok .unit] }

/-- The checks of SET_BREAKPOINT (R174, R190, R192; their order is the spec's decision D17): the slot, then the wildcard,
then the bytes; each rejects the command with nothing changed but the response. -/
def Obligations.SetBreakpointChecksInOrder : Prop :=
  ∀ (s : State) (id u h : Int) (l : Option Int), s.link = .opened →
    ((id < 0 ∨ 3 < id) →
      exec (.setBreakpoint id u h l) s = .next { s with responses := s.responses ++ [.error .badSlot] }) ∧
    ((id = 2 ∨ id = 3) → l = none →
      exec (.setBreakpoint id u h l) s = .next { s with responses := s.responses ++ [.error .wildcardSlot] }) ∧
    (0 ≤ id → id ≤ 3 → (l = none → id < 2) →
      (u < 0 ∨ 255 < u ∨ h < 0 ∨ 255 < h ∨ ∃ v, l = some v ∧ (v < 0 ∨ 255 < v)) →
      exec (.setBreakpoint id u h l) s = .next { s with responses := s.responses ++ [.error .badAddressByte] })

/-- R174, R182 and the document's property (E3): after a SET_BREAKPOINT with valid operands the snapshot reports the slot
enabled with the address supplied, an absent low byte unchanged from the prior state, and the wildcard flag set exactly
when the low byte was absent; the other slots are reported as before. -/
def Obligations.SnapshotAfterSetBreakpoint : Prop :=
  ∀ (s : State) (i : Fin 4) (u h : Byte) (l : Option Byte), s.ready → (l = none → i.val < 2) →
    ∃ t v x, exec (.setBreakpoint i.val u.toNat h.toNat (l.map fun v => (v.toNat : Int))) s = .next t ∧
      exec .getBreakpointState t = .next v ∧ v.responses = t.responses ++ [.ok (.snapshot x)] ∧
      x.enabled[i] = true ∧ x.address[i] = ⟨u, h, l.getD s.session.bp[i].low⟩ ∧
      (∀ j : Fin 2, i.val = j.val → x.wildcard[j] = l.isNone) ∧
      (∀ j : Fin 4, j ≠ i → x.enabled[j] = s.session.en[j] ∧ x.address[j] = s.session.bp[j]) ∧
      (∀ j : Fin 2, i.val ≠ j.val → x.wildcard[j] = s.session.ignLow[j]) ∧
      x.inBreak = (s.session.breakNow || s.session.singleStep)

/-- R176: DISABLE_BREAKPOINT clears the enabled flag of its slot, keeps the address and the wildcard flag, and rewrites
the packed control register; an id outside 0 to 3 is rejected with nothing changed but the response. -/
def Obligations.DisableBreakpointKeepsTheAddress : Prop :=
  ∀ s : State,
    (∀ i : Fin 4, s.ready →
      let x := { s.session with en := s.session.en.set i false }
      exec (.disableBreakpoint i.val) s = .next
        { s.sent (.write s.map.wBrkCtl [x.packCtl]) with
          session := x
          responses := s.responses ++ [.ok .unit] }) ∧
    (∀ id : Int, s.link = .opened → (id < 0 ∨ 3 < id) →
      exec (.disableBreakpoint id) s = .next { s with responses := s.responses ++ [.error .badSlot] })

/-- R178: BREAK_NOW sets the force-halt flag and rewrites the control register, every time. -/
def Obligations.BreakNowSetsTheFlag : Prop :=
  ∀ s : State, s.ready →
    let x := { s.session with breakNow := true }
    exec .breakNow s = .next
      { s.sent (.write s.map.wBrkCtl [x.packCtl]) with
        session := x
        responses := s.responses ++ [.ok .unit] }

/-- CONTINUE_AFTER_BREAK clears force-halt, sets the single-step flag to its operand and rewrites the control register,
whether or not the session is in a break (R180); a command without the operand stands for `false` (R85, R180). The selector
0x53 is the spec's decision D1, and the form of a command at the port the model's choice (log 2). -/
def Obligations.ContinueAfterBreakSetsSingleStep : Prop :=
  decodeCommand ⟨0x53, []⟩ = .ok (.continueAfterBreak false) ∧
  ∀ (s : State) (b : Bool), s.ready →
    let x := { s.session with breakNow := false, singleStep := b }
    exec (.continueAfterBreak b) s = .next
      { s.sent (.write s.map.wBrkCtl [x.packCtl]) with
        session := x
        responses := s.responses ++ [.ok .unit] }

/-- GET_BREAKPOINT_STATE on an open Link (R182; the record is the spec's decision D28): the snapshot of the controller's
copy; no event, no frame, nothing else changes. -/
def Obligations.GetBreakpointStateIsReadOnly : Prop :=
  ∀ s : State, s.link = .opened →
    exec .getBreakpointState s = .next
      { s with responses := s.responses ++ [.ok (.snapshot
        { enabled := s.session.en, address := s.session.bp, wildcard := s.session.ignLow,
          inBreak := s.session.breakNow || s.session.singleStep })] }

/-- R171, and R183 (derived by the spec): a breakpoint operation that changes a flag and is answered with Ok has ended
with the control write, a one-byte burst of the packed byte of its final state, issued always, even when the byte equals
the one last written. -/
def Obligations.BreakpointOperationsEndWithTheControlWrite : Prop :=
  ∀ (i : Instr) (s t : State),
    ((∃ id u h l, i = .setBreakpoint id u h l) ∨ (∃ id, i = .disableBreakpoint id) ∨ i = .breakNow ∨
      (∃ b, i = .continueAfterBreak b)) →
    exec i s = .next t → t.responses = s.responses ++ [.ok .unit] →
    ∃ fs, t.frames = s.frames ++ fs ++ [.write s.map.wBrkCtl [t.session.packCtl]]

/-! ## Errors and refusals -/

/-- R190: a command answered with Error has changed nothing but the responses: no pin event, no state, no trace. It holds
of every operation in every state. -/
def Obligations.ContractViolationChangesNothing : Prop :=
  ∀ (i : Instr) (s t : State) (c : Cause),
    exec i s = .next t → t.responses = s.responses ++ [.error c] →
    t = { s with responses := s.responses ++ [.error c] }

/-- R80: a host command that completes is answered exactly once, and an internal operation answers the host nothing. -/
def Obligations.EveryCommandIsAnsweredOnce : Prop :=
  ∀ (i : Instr) (s t : State), exec i s = .next t →
    (i.isHostCommand = true → ∃ r, t.responses = s.responses ++ [r]) ∧
    (i.isHostCommand = false → t.responses = s.responses)

/-- Commands outside the Link's life are refused (R200, the spec's decision D10): LINK_OPEN unless the controller is
unopened, every other command, and the Framer's and the Session's internal operations and SET_DATA_DIRECTION, unless the
Link is open. -/
def Obligations.CommandsOutsideTheLinksLifeAreRefused : Prop :=
  ∀ s : State,
    (∀ c d f, s.link ≠ .unopened → exec (.linkOpen c d f) s = .refused .lifecycle) ∧
    (∀ i : Instr, s.link ≠ .opened → (∀ c d f, i ≠ .linkOpen c d f) → i ≠ .start → (∀ v, i ≠ .writeBit v) →
      i ≠ .clockLow → i ≠ .readBit → exec i s = .refused .lifecycle)

/-! ## Frames of the memory banks -/

/-- Memory frame of the storing operations of one burst (R58, R61, R63). The burst's start index and bytes are what
`storeOf` gives. The read space does not change; a rejected operation stores nothing. After a completed one, every index of
the write space outside the burst reads as before, and byte k of the burst is at the start index plus k when that is at
most 127 (past it, discarded), except that a reset trigger 0xF0 that arrives at the master-control register clears the
thirteen breakpoint registers before the next byte. -/
def Obligations.OneBurstStoresOnlyItsBytes : Prop :=
  ∀ (i : Instr) (s t : State) (a : Int) (bs : List Byte),
    storeOf s.map i = some (a, bs) → exec i s = .next t → s.dev.w.wf = true →
    let trigger := fun k : Nat => bs[k]? = some 0xF0 ∧ a + k = s.map.wMasterCtl.toNat
    let cleared := fun y : Nat => y ∈ (breakRegs s.map).map BitVec.toNat
    t.dev.r = s.dev.r ∧
    (t.frames = s.frames → t.dev = s.dev) ∧
    (t.frames ≠ s.frames →
      (∀ y : Nat, ((y : Int) < a ∨ a + bs.length ≤ y) →
        ((∃ k, trigger k) ∧ cleared y → t.dev.w.read y = 0x00) ∧
        (¬ ((∃ k, trigger k) ∧ cleared y) → t.dev.w.read y = s.dev.w.read y)) ∧
      (∀ (k : Nat) (b : Byte), bs[k]? = some b → a + k ≤ 127 →
        ((∃ l, k ≤ l ∧ trigger l) ∧ cleared (a + k).toNat → t.dev.w.read (a + k).toNat = 0x00) ∧
        (¬ ((∃ l, k ≤ l ∧ trigger l) ∧ cleared (a + k).toNat) → t.dev.w.read (a + k).toNat = b)))

/-- Memory frame of the operations that send no write burst. The read space is unchanged, and so is the write space, but
for one clock pulse: WRITE_BIT, READ_BIT, and LINK_OPEN and CLOSE when they raise a low clock line, give the reference target the
eighth bit of a byte when it holds seven, and it stores that byte (R57, R61, R63): at the index it is for, when that is at
most 127, and a reset trigger 0xF0 at the master-control register then clears the breakpoint registers. -/
def Obligations.OtherOperationsStoreOnlyAClockedByte : Prop :=
  ∀ (i : Instr) (s t : State), storeOf s.map i = none → i ≠ .reset → (∀ id u h l, i ≠ .setBreakpoint id u h l) →
    (∀ id, i ≠ .disableBreakpoint id) → i ≠ .breakNow → (∀ b, i ≠ .continueAfterBreak b) →
    exec i s = .next t →
    t.dev.r = s.dev.r ∧
    ((∀ v, i ≠ .writeBit v) → i ≠ .readBit → i ≠ .close → (∀ c d f, i ≠ .linkOpen c d f) → t.dev.w = s.dev.w) ∧
    ((∀ a bits, s.dev.bus = .data a bits → bits.length < 7) → t.dev.w = s.dev.w) ∧
    (∀ a bits, s.dev.w.wf = true → s.dev.bus = .data a bits → 7 ≤ bits.length →
      t.dev.w = s.dev.w ∨
      ∃ v, (∀ x, i = .writeBit x → x = v) ∧
        let b := byteOfBits (bits ++ [v])
        ∀ y : Nat, t.dev.w.read y =
          if a = s.map.wMasterCtl.toNat ∧ b = 0xF0 ∧ y ∈ (breakRegs s.map).map BitVec.toNat then 0x00
          else if y = a ∧ a ≤ 127 then b else s.dev.w.read y)

/-- Memory frame of the breakpoint operations (R174, R176, R178, R180, R171): besides the control register only the
address registers of the operation's slot may change, and the read space does not. The registers written are the
parameters the operation's rule names, at the slot its operand names. -/
def Obligations.BreakpointOperationsStoreOnlyTheirRegisters : Prop :=
  ∀ (i : Instr) (s t : State) (slots : List (Fin 4)),
    ((∃ (j : Fin 4) (u h : Int) (l : Option Int), i = .setBreakpoint j.val u h l ∧ slots = [j]) ∨
      ((∃ id, i = .disableBreakpoint id) ∧ slots = []) ∨ (i = .breakNow ∧ slots = []) ∨
      ((∃ b, i = .continueAfterBreak b) ∧ slots = [])) →
    mapDistinct s.map = true → s.dev.w.wf = true → exec i s = .next t →
    t.dev.r = s.dev.r ∧
    ∀ y : Nat, y ≠ s.map.wBrkCtl.toNat →
      (∀ j ∈ slots, y ≠ s.map.wAddrU[j].toNat ∧ y ≠ s.map.wAddrH[j].toNat ∧ y ≠ s.map.wAddrL[j].toNat) →
      t.dev.w.read y = s.dev.w.read y

/-! ## One step -/

/-- A step runs the decoded command: at an idle sequencer, when the first entry of the port decodes to an instruction,
the step is `exec` of it in the state without that entry (R80, R65). -/
def Obligations.StepRunsTheDecodedCommand : Prop :=
  ∀ (s : State) (c : Command) (rest : List Command) (i : Instr),
    s.seq = .idle → s.port = c :: rest → decodeCommand c = .ok i → step s = exec i { s with port := rest }

/-- What a step does beside running a command. A command with an unassigned selector is answered by CV_UNKNOWN_COMMAND, in
every link state (R87, R192; the spec's decisions D1 and D17): no pin event, and no change but the response and the port.
The controller waits when no command is pending, and accepts nothing inside a burst (R222, R122; that a waiting step
changes nothing is the model's choice, log 9 and log 10). -/
def Obligations.StepWithoutACommand : Prop :=
  (∀ (s : State) (c : Command) (rest : List Command),
    s.seq = .idle → s.port = c :: rest →
    c.selector ∉ [0x00, 0x01, 0x20, 0x21, 0x30, 0x31, 0x32, 0x33, 0x34, 0x35, 0x36, 0x37, 0x38, 0x39, 0x3A, 0x3B, 0x3C,
      0x3D, 0x40, 0x41, 0x50, 0x51, 0x52, 0x53, 0x54] →
    step s = .next { s with port := rest, responses := s.responses ++ [.error .unknownCommand] }) ∧
  (∀ s : State, (s.port = [] ∨ s.seq ≠ .idle) → step s = .next s)

/-- The state before LINK_OPEN: unopened (R22), the sequencer idle (R34), no event and no frame yet. The spec gives the
Session's values after its creation only (R29 to R32, R43; the byte 0x00 is its decision D13), and before LINK_OPEN no
Session exists (R220): that the model's fields hold the cleared values then, and `packCtl` and `inBreak` with them, is its
choice (log 13), as is the absent configuration `none` (log 14). -/
def Obligations.ResetValues : Prop :=
  State.reset.link = .unopened ∧ State.reset.cfg = none ∧ State.reset.seq = .idle ∧
  (∀ i : Fin 4, State.reset.session.en[i] = false ∧ State.reset.session.slot i = ⟨0x00, 0x00, 0x00⟩) ∧
  State.reset.session.ignLow[0] = false ∧ State.reset.session.ignLow[1] = false ∧
  State.reset.session.breakNow = false ∧ State.reset.session.singleStep = false ∧
  State.reset.session.packCtl = 0x00 ∧ State.reset.session.inBreak = false ∧ State.reset.trace = [] ∧
  State.reset.frames = []

/-- The reset state meets every invariant stated below. -/
def Obligations.ResetMeetsTheInvariants : Prop :=
  IdleInv State.reset ∧ CfgInv State.reset ∧ BanksInv State.reset ∧ TraceInv State.reset ∧ TimeInv State.reset

/-! ## Invariants -/

/-- R26 (derived by the spec): whenever the controller is ready to accept a command its sequencer is idle, and on an open
Link both lines are high and ZDA is driven; every step keeps this. -/
def Obligations.StepKeepsTheIdleInvariant : Prop :=
  ∀ s t : State, IdleInv s → step s = .next t → IdleInv t

/-- R6, R21: once opened, the configuration exists, with a positive frequency and `DELAY = 3 / F_TARGET`; every step keeps
this. -/
def Obligations.StepKeepsTheConfiguration : Prop :=
  ∀ s t : State, CfgInv s → step s = .next t →
    CfgInv t ∧ t.map = s.map ∧ (s.link ≠ .unopened → t.cfg = s.cfg)

/-- Every step keeps both banks in canonical form and the reference target's place in its burst one of R70, and changes no
byte of the read space (R51). -/
def Obligations.StepKeepsTheBanks : Prop :=
  ∀ s t : State, BanksInv s → step s = .next t → BanksInv t ∧ t.dev.r = s.dev.r

/-- R42, R79, R43: every step keeps the event trace equal to the events of LINK_OPEN followed by the bursts of the frame
trace and, after CLOSE, its events. -/
def Obligations.StepKeepsTheTrace : Prop :=
  ∀ s t : State, IdleInv s → TraceInv s → step s = .next t → TraceInv t

/-- R41, R203: in every run at least `DELAY` has passed for every `Sleep` of the trace; every step keeps this. It holds
for every excess the events take (log 11). -/
def Obligations.StepKeepsTheTime : Prop :=
  ∀ s t : State, IdleInv s → CfgInv s → TraceInv s → TimeInv s → step s = .next t → TimeInv t

/-- R96, R199 (a): from the idle invariant no command of the port reaches a fault. -/
def Obligations.IdleControllerNeverFaults : Prop :=
  ∀ (s : State) (r : Fault), IdleInv s → step s ≠ .fault r

/-- R95, R91, R248 a to d, R116, R118 (derived by the spec): a trace of the machine obeys the edge rules from the first
event on; ZDA falls while ZCL is high once for every completed burst and at no other place; and ZDA rises while ZCL is high
once for every write burst whose last bit is 0 (R119) and at no other place. The trace begins with the events of LINK_OPEN
and is read from both latches high and ZDA driven, which the spec leaves open before LINK_OPEN (R221, U16) and which is the
model's choice (log 12): what is said of the two `Drive` events of LINK_OPEN rests on it. -/
def Obligations.TracesObeyTheEdgeRules : Prop :=
  ∀ s : State, TraceInv s →
    obeysEdges
      { pins := { zcl := true, zdaOut := true, role := .driving }
        slept := false
        justFell := false
        ended := false } s.trace = true ∧
    starts { zcl := true, zdaOut := true, role := .driving } s.trace = s.frames.length ∧
    rises { zcl := true, zdaOut := true, role := .driving } s.trace = s.frames.countP endsLow

/-- R39, R161 (derived by the spec): RESET makes the twelve address registers and the control register of the reference
target equal to the controller's copy, whatever they held, when the register map gives them and the master-control
register fourteen different indices. Memory frame of RESET (R61, R63): the master-control register holds the trigger
0xF0, every other index of the write space and the whole read space are as before. -/
def Obligations.ResetEstablishesCoherence : Prop :=
  ∀ s : State, s.ready → mapDistinct s.map = true → s.dev.w.wf = true →
    ∃ t, exec .reset s = .next t ∧ Coherent t ∧ t.session = s.session ∧
      t.dev.r = s.dev.r ∧ t.dev.w.read s.map.wMasterCtl.toNat = 0xF0 ∧
      ∀ y : Nat, y ≠ s.map.wMasterCtl.toNat → (∀ r ∈ breakRegs s.map, y ≠ r.toNat) →
        t.dev.w.read y = s.dev.w.read y

/-- R39: once the reference target's breakpoint registers equal the controller's copy, every step keeps them equal while
the Link is open: SET_BREAKPOINT's differential writes, RESET's clearing and replay, and every other burst, which stays
above these registers in a separate map. -/
def Obligations.StepKeepsCoherence : Prop :=
  ∀ s t : State, IdleInv s → s.link = .opened → mapDistinct s.map = true → mapSeparate s.map = true →
    s.dev.w.wf = true → Coherent s → step s = .next t → t.link = .opened → Coherent t

/-! ## Whole-machine rules -/

/-- R22: LINK_OPEN moves Unopened to Open, CLOSE moves Open to Closed, and nothing else moves the link state. -/
def Obligations.OnlyOpenAndCloseMoveTheLink : Prop :=
  ∀ (i : Instr) (s t : State), exec i s = .next t → t.link ≠ s.link →
    ((∃ c d f, i = .linkOpen c d f) ∧ s.link = .unopened ∧ t.link = .opened) ∨
    (i = .close ∧ s.link = .opened ∧ t.link = .closed)

/-- R29 to R32, R27, R45: which operations write the Session's state. The enabled flags: SET_BREAKPOINT and
DISABLE_BREAKPOINT; the slots and the wildcard flags: SET_BREAKPOINT; `break_now`: BREAK_NOW and CONTINUE_AFTER_BREAK;
`single_step`: CONTINUE_AFTER_BREAK; besides the creation and the end of the Session. RESET writes none of it. -/
def Obligations.WhoWritesTheSession : Prop :=
  ∀ (i : Instr) (s t : State), exec i s = .next t → (∀ c d f, i ≠ .linkOpen c d f) → i ≠ .close →
    (t.session.en ≠ s.session.en → (∃ id u h l, i = .setBreakpoint id u h l) ∨ ∃ id, i = .disableBreakpoint id) ∧
    (t.session.bp ≠ s.session.bp → ∃ id u h l, i = .setBreakpoint id u h l) ∧
    (t.session.ignLow ≠ s.session.ignLow → ∃ id u h l, i = .setBreakpoint id u h l) ∧
    (t.session.breakNow ≠ s.session.breakNow → i = .breakNow ∨ ∃ b, i = .continueAfterBreak b) ∧
    (t.session.singleStep ≠ s.session.singleStep → ∃ b, i = .continueAfterBreak b)

/-- R120, R146: READ_SP and WRITE_SP are the only operations sensed data steers. For every other operation, two
controllers that agree on everything but the target's answers (`SameController`: its answers and its read space may differ,
and of what was sensed only the number of bits and bytes is the same) go on to agree in this way: the same pins, Session,
port, time and write space, the same write frames, as many bytes read, the same events up to the levels of `Sense`, the same
responses up to the bits sensed, Ok against Ok and an Error with its cause against the same Error. -/
def Obligations.SensedDataSteersOnlyTheStackPointer : Prop :=
  ∀ (i : Instr) (s u t : State), i ≠ .readSp → (∀ bs, i ≠ .writeSp bs) → SameController s u →
    exec i s = .next t → ∃ v, exec i u = .next v ∧ SameController t v
end

