-- ==== Sys2Proof/Laws/State.lean ====
section
/-! SUPPORT. One lemma per field per update of State, so that no proof unfolds a record update. -/

namespace Sys2Proof.Machine

/-! ### emit -/

@[simp] theorem State.emit_map (s : State) (e : Event) : (s.emit e).map = s.map := rfl
@[simp] theorem State.emit_port (s : State) (e : Event) : (s.emit e).port = s.port := rfl
@[simp] theorem State.emit_cfg (s : State) (e : Event) : (s.emit e).cfg = s.cfg := rfl
@[simp] theorem State.emit_link (s : State) (e : Event) : (s.emit e).link = s.link := rfl
@[simp] theorem State.emit_pins (s : State) (e : Event) : (s.emit e).pins = s.pins.after e := rfl
@[simp] theorem State.emit_session (s : State) (e : Event) : (s.emit e).session = s.session := rfl
@[simp] theorem State.emit_seq (s : State) (e : Event) : (s.emit e).seq = s.seq := rfl
@[simp] theorem State.emit_work (s : State) (e : Event) : (s.emit e).work = s.work := rfl
@[simp] theorem State.emit_trace (s : State) (e : Event) : (s.emit e).trace = s.trace ++ [e] := rfl
@[simp] theorem State.emit_frames (s : State) (e : Event) : (s.emit e).frames = s.frames := rfl
@[simp] theorem State.emit_elapsed (s : State) (e : Event) : (s.emit e).elapsed = s.elapsed + (eventTime s.delay e + Config.slack s.trace.length) := rfl
@[simp] theorem State.emit_responses (s : State) (e : Event) : (s.emit e).responses = s.responses := rfl
@[simp] theorem State.emit_ret (s : State) (e : Event) : (s.emit e).ret = s.ret := rfl
@[simp] theorem State.emit_dev (s : State) (e : Event) : (s.emit e).dev = s.dev.see s.map s.pins (Config.undriven s.trace.length) e := rfl
@[simp] theorem State.emit_target (s : State) (e : Event) : (s.emit e).target = s.target := rfl
@[simp] theorem State.emit_senses (s : State) (e : Event) : (s.emit e).senses = s.senses := rfl
@[simp] theorem State.emit_delay (s : State) (e : Event) : (s.emit e).delay = s.delay := rfl

/-! ### atPhase -/

@[simp] theorem State.atPhase_map (s : State) (p : Seq) : (s.atPhase p).map = s.map := rfl
@[simp] theorem State.atPhase_port (s : State) (p : Seq) : (s.atPhase p).port = s.port := rfl
@[simp] theorem State.atPhase_cfg (s : State) (p : Seq) : (s.atPhase p).cfg = s.cfg := rfl
@[simp] theorem State.atPhase_link (s : State) (p : Seq) : (s.atPhase p).link = s.link := rfl
@[simp] theorem State.atPhase_pins (s : State) (p : Seq) : (s.atPhase p).pins = s.pins := rfl
@[simp] theorem State.atPhase_session (s : State) (p : Seq) : (s.atPhase p).session = s.session := rfl
@[simp] theorem State.atPhase_seq (s : State) (p : Seq) : (s.atPhase p).seq = p := rfl
@[simp] theorem State.atPhase_work (s : State) (p : Seq) : (s.atPhase p).work = s.work := rfl
@[simp] theorem State.atPhase_trace (s : State) (p : Seq) : (s.atPhase p).trace = s.trace := rfl
@[simp] theorem State.atPhase_frames (s : State) (p : Seq) : (s.atPhase p).frames = s.frames := rfl
@[simp] theorem State.atPhase_elapsed (s : State) (p : Seq) : (s.atPhase p).elapsed = s.elapsed := rfl
@[simp] theorem State.atPhase_responses (s : State) (p : Seq) : (s.atPhase p).responses = s.responses := rfl
@[simp] theorem State.atPhase_ret (s : State) (p : Seq) : (s.atPhase p).ret = s.ret := rfl
@[simp] theorem State.atPhase_dev (s : State) (p : Seq) : (s.atPhase p).dev = s.dev := rfl
@[simp] theorem State.atPhase_target (s : State) (p : Seq) : (s.atPhase p).target = s.target := rfl
@[simp] theorem State.atPhase_senses (s : State) (p : Seq) : (s.atPhase p).senses = s.senses := rfl
@[simp] theorem State.atPhase_delay (s : State) (p : Seq) : (s.atPhase p).delay = s.delay := rfl

/-! ### answered -/

@[simp] theorem State.answered_map (s : State) (n : Nat) : (s.answered n).map = s.map := rfl
@[simp] theorem State.answered_port (s : State) (n : Nat) : (s.answered n).port = s.port := rfl
@[simp] theorem State.answered_cfg (s : State) (n : Nat) : (s.answered n).cfg = s.cfg := rfl
@[simp] theorem State.answered_link (s : State) (n : Nat) : (s.answered n).link = s.link := rfl
@[simp] theorem State.answered_pins (s : State) (n : Nat) : (s.answered n).pins = s.pins := rfl
@[simp] theorem State.answered_session (s : State) (n : Nat) : (s.answered n).session = s.session := rfl
@[simp] theorem State.answered_seq (s : State) (n : Nat) : (s.answered n).seq = s.seq := rfl
@[simp] theorem State.answered_work (s : State) (n : Nat) : (s.answered n).work = s.work := rfl
@[simp] theorem State.answered_trace (s : State) (n : Nat) : (s.answered n).trace = s.trace := rfl
@[simp] theorem State.answered_frames (s : State) (n : Nat) : (s.answered n).frames = s.frames := rfl
@[simp] theorem State.answered_elapsed (s : State) (n : Nat) : (s.answered n).elapsed = s.elapsed := rfl
@[simp] theorem State.answered_responses (s : State) (n : Nat) : (s.answered n).responses = s.responses := rfl
@[simp] theorem State.answered_ret (s : State) (n : Nat) : (s.answered n).ret = s.ret := rfl
@[simp] theorem State.answered_dev (s : State) (n : Nat) : (s.answered n).dev = s.dev := rfl
@[simp] theorem State.answered_target (s : State) (n : Nat) : (s.answered n).target = s.target.drop n := rfl
@[simp] theorem State.answered_senses (s : State) (n : Nat) : (s.answered n).senses = s.senses + n := rfl
@[simp] theorem State.answered_delay (s : State) (n : Nat) : (s.answered n).delay = s.delay := rfl

/-! ### complete -/

@[simp] theorem State.complete_map (s : State) (f : Frame) : (s.complete f).map = s.map := rfl
@[simp] theorem State.complete_port (s : State) (f : Frame) : (s.complete f).port = s.port := rfl
@[simp] theorem State.complete_cfg (s : State) (f : Frame) : (s.complete f).cfg = s.cfg := rfl
@[simp] theorem State.complete_link (s : State) (f : Frame) : (s.complete f).link = s.link := rfl
@[simp] theorem State.complete_pins (s : State) (f : Frame) : (s.complete f).pins = s.pins := rfl
@[simp] theorem State.complete_session (s : State) (f : Frame) : (s.complete f).session = s.session := rfl
@[simp] theorem State.complete_seq (s : State) (f : Frame) : (s.complete f).seq = Seq.idle := rfl
@[simp] theorem State.complete_work (s : State) (f : Frame) : (s.complete f).work = none := rfl
@[simp] theorem State.complete_trace (s : State) (f : Frame) : (s.complete f).trace = s.trace := rfl
@[simp] theorem State.complete_frames (s : State) (f : Frame) : (s.complete f).frames = s.frames ++ [f] := rfl
@[simp] theorem State.complete_elapsed (s : State) (f : Frame) : (s.complete f).elapsed = s.elapsed := rfl
@[simp] theorem State.complete_responses (s : State) (f : Frame) : (s.complete f).responses = s.responses := rfl
@[simp] theorem State.complete_ret (s : State) (f : Frame) : (s.complete f).ret = s.ret := rfl
@[simp] theorem State.complete_dev (s : State) (f : Frame) : (s.complete f).dev = s.dev := rfl
@[simp] theorem State.complete_target (s : State) (f : Frame) : (s.complete f).target = s.target := rfl
@[simp] theorem State.complete_senses (s : State) (f : Frame) : (s.complete f).senses = s.senses := rfl
@[simp] theorem State.complete_delay (s : State) (f : Frame) : (s.complete f).delay = s.delay := rfl

/-! ### respond -/

@[simp] theorem State.respond_map (s : State) (r : Response) : (s.respond r).map = s.map := rfl
@[simp] theorem State.respond_port (s : State) (r : Response) : (s.respond r).port = s.port := rfl
@[simp] theorem State.respond_cfg (s : State) (r : Response) : (s.respond r).cfg = s.cfg := rfl
@[simp] theorem State.respond_link (s : State) (r : Response) : (s.respond r).link = s.link := rfl
@[simp] theorem State.respond_pins (s : State) (r : Response) : (s.respond r).pins = s.pins := rfl
@[simp] theorem State.respond_session (s : State) (r : Response) : (s.respond r).session = s.session := rfl
@[simp] theorem State.respond_seq (s : State) (r : Response) : (s.respond r).seq = s.seq := rfl
@[simp] theorem State.respond_work (s : State) (r : Response) : (s.respond r).work = s.work := rfl
@[simp] theorem State.respond_trace (s : State) (r : Response) : (s.respond r).trace = s.trace := rfl
@[simp] theorem State.respond_frames (s : State) (r : Response) : (s.respond r).frames = s.frames := rfl
@[simp] theorem State.respond_elapsed (s : State) (r : Response) : (s.respond r).elapsed = s.elapsed := rfl
@[simp] theorem State.respond_responses (s : State) (r : Response) : (s.respond r).responses = s.responses ++ [r] := rfl
@[simp] theorem State.respond_ret (s : State) (r : Response) : (s.respond r).ret = s.ret := rfl
@[simp] theorem State.respond_dev (s : State) (r : Response) : (s.respond r).dev = s.dev := rfl
@[simp] theorem State.respond_target (s : State) (r : Response) : (s.respond r).target = s.target := rfl
@[simp] theorem State.respond_senses (s : State) (r : Response) : (s.respond r).senses = s.senses := rfl
@[simp] theorem State.respond_delay (s : State) (r : Response) : (s.respond r).delay = s.delay := rfl

/-! ### returnUp -/

@[simp] theorem State.returnUp_map (s : State) (r : Response) : (s.returnUp r).map = s.map := rfl
@[simp] theorem State.returnUp_port (s : State) (r : Response) : (s.returnUp r).port = s.port := rfl
@[simp] theorem State.returnUp_cfg (s : State) (r : Response) : (s.returnUp r).cfg = s.cfg := rfl
@[simp] theorem State.returnUp_link (s : State) (r : Response) : (s.returnUp r).link = s.link := rfl
@[simp] theorem State.returnUp_pins (s : State) (r : Response) : (s.returnUp r).pins = s.pins := rfl
@[simp] theorem State.returnUp_session (s : State) (r : Response) : (s.returnUp r).session = s.session := rfl
@[simp] theorem State.returnUp_seq (s : State) (r : Response) : (s.returnUp r).seq = s.seq := rfl
@[simp] theorem State.returnUp_work (s : State) (r : Response) : (s.returnUp r).work = s.work := rfl
@[simp] theorem State.returnUp_trace (s : State) (r : Response) : (s.returnUp r).trace = s.trace := rfl
@[simp] theorem State.returnUp_frames (s : State) (r : Response) : (s.returnUp r).frames = s.frames := rfl
@[simp] theorem State.returnUp_elapsed (s : State) (r : Response) : (s.returnUp r).elapsed = s.elapsed := rfl
@[simp] theorem State.returnUp_responses (s : State) (r : Response) : (s.returnUp r).responses = s.responses := rfl
@[simp] theorem State.returnUp_ret (s : State) (r : Response) : (s.returnUp r).ret = some r := rfl
@[simp] theorem State.returnUp_dev (s : State) (r : Response) : (s.returnUp r).dev = s.dev := rfl
@[simp] theorem State.returnUp_target (s : State) (r : Response) : (s.returnUp r).target = s.target := rfl
@[simp] theorem State.returnUp_senses (s : State) (r : Response) : (s.returnUp r).senses = s.senses := rfl
@[simp] theorem State.returnUp_delay (s : State) (r : Response) : (s.returnUp r).delay = s.delay := rfl

/-! ### modifyWork -/

@[simp] theorem State.modifyWork_map (s : State) (f : Burst → Burst) : (s.modifyWork f).map = s.map := rfl
@[simp] theorem State.modifyWork_port (s : State) (f : Burst → Burst) : (s.modifyWork f).port = s.port := rfl
@[simp] theorem State.modifyWork_cfg (s : State) (f : Burst → Burst) : (s.modifyWork f).cfg = s.cfg := rfl
@[simp] theorem State.modifyWork_link (s : State) (f : Burst → Burst) : (s.modifyWork f).link = s.link := rfl
@[simp] theorem State.modifyWork_pins (s : State) (f : Burst → Burst) : (s.modifyWork f).pins = s.pins := rfl
@[simp] theorem State.modifyWork_session (s : State) (f : Burst → Burst) : (s.modifyWork f).session = s.session := rfl
@[simp] theorem State.modifyWork_seq (s : State) (f : Burst → Burst) : (s.modifyWork f).seq = s.seq := rfl
@[simp] theorem State.modifyWork_work (s : State) (f : Burst → Burst) : (s.modifyWork f).work = s.work.map f := rfl
@[simp] theorem State.modifyWork_trace (s : State) (f : Burst → Burst) : (s.modifyWork f).trace = s.trace := rfl
@[simp] theorem State.modifyWork_frames (s : State) (f : Burst → Burst) : (s.modifyWork f).frames = s.frames := rfl
@[simp] theorem State.modifyWork_elapsed (s : State) (f : Burst → Burst) : (s.modifyWork f).elapsed = s.elapsed := rfl
@[simp] theorem State.modifyWork_responses (s : State) (f : Burst → Burst) : (s.modifyWork f).responses = s.responses := rfl
@[simp] theorem State.modifyWork_ret (s : State) (f : Burst → Burst) : (s.modifyWork f).ret = s.ret := rfl
@[simp] theorem State.modifyWork_dev (s : State) (f : Burst → Burst) : (s.modifyWork f).dev = s.dev := rfl
@[simp] theorem State.modifyWork_target (s : State) (f : Burst → Burst) : (s.modifyWork f).target = s.target := rfl
@[simp] theorem State.modifyWork_senses (s : State) (f : Burst → Burst) : (s.modifyWork f).senses = s.senses := rfl
@[simp] theorem State.modifyWork_delay (s : State) (f : Burst → Burst) : (s.modifyWork f).delay = s.delay := rfl

/-! ### withSession -/

@[simp] theorem State.withSession_map (s : State) (x : Session) : (s.withSession x).map = s.map := rfl
@[simp] theorem State.withSession_port (s : State) (x : Session) : (s.withSession x).port = s.port := rfl
@[simp] theorem State.withSession_cfg (s : State) (x : Session) : (s.withSession x).cfg = s.cfg := rfl
@[simp] theorem State.withSession_link (s : State) (x : Session) : (s.withSession x).link = s.link := rfl
@[simp] theorem State.withSession_pins (s : State) (x : Session) : (s.withSession x).pins = s.pins := rfl
@[simp] theorem State.withSession_session (s : State) (x : Session) : (s.withSession x).session = x := rfl
@[simp] theorem State.withSession_seq (s : State) (x : Session) : (s.withSession x).seq = s.seq := rfl
@[simp] theorem State.withSession_work (s : State) (x : Session) : (s.withSession x).work = s.work := rfl
@[simp] theorem State.withSession_trace (s : State) (x : Session) : (s.withSession x).trace = s.trace := rfl
@[simp] theorem State.withSession_frames (s : State) (x : Session) : (s.withSession x).frames = s.frames := rfl
@[simp] theorem State.withSession_elapsed (s : State) (x : Session) : (s.withSession x).elapsed = s.elapsed := rfl
@[simp] theorem State.withSession_responses (s : State) (x : Session) : (s.withSession x).responses = s.responses := rfl
@[simp] theorem State.withSession_ret (s : State) (x : Session) : (s.withSession x).ret = s.ret := rfl
@[simp] theorem State.withSession_dev (s : State) (x : Session) : (s.withSession x).dev = s.dev := rfl
@[simp] theorem State.withSession_target (s : State) (x : Session) : (s.withSession x).target = s.target := rfl
@[simp] theorem State.withSession_senses (s : State) (x : Session) : (s.withSession x).senses = s.senses := rfl
@[simp] theorem State.withSession_delay (s : State) (x : Session) : (s.withSession x).delay = s.delay := rfl

/-! ### observe -/

@[simp] theorem State.observe_map (s : State) (es : List Event) : (s.observe es).map = s.map := rfl
@[simp] theorem State.observe_port (s : State) (es : List Event) : (s.observe es).port = s.port := rfl
@[simp] theorem State.observe_cfg (s : State) (es : List Event) : (s.observe es).cfg = s.cfg := rfl
@[simp] theorem State.observe_link (s : State) (es : List Event) : (s.observe es).link = s.link := rfl
@[simp] theorem State.observe_pins (s : State) (es : List Event) : (s.observe es).pins = s.pins := rfl
@[simp] theorem State.observe_session (s : State) (es : List Event) : (s.observe es).session = s.session := rfl
@[simp] theorem State.observe_seq (s : State) (es : List Event) : (s.observe es).seq = s.seq := rfl
@[simp] theorem State.observe_work (s : State) (es : List Event) : (s.observe es).work = s.work := rfl
@[simp] theorem State.observe_trace (s : State) (es : List Event) : (s.observe es).trace = s.trace ++ es := rfl
@[simp] theorem State.observe_frames (s : State) (es : List Event) : (s.observe es).frames = s.frames := rfl
@[simp] theorem State.observe_elapsed (s : State) (es : List Event) : (s.observe es).elapsed = timeAfter s.delay s.trace.length s.elapsed es := rfl
@[simp] theorem State.observe_responses (s : State) (es : List Event) : (s.observe es).responses = s.responses := rfl
@[simp] theorem State.observe_ret (s : State) (es : List Event) : (s.observe es).ret = s.ret := rfl
@[simp] theorem State.observe_dev (s : State) (es : List Event) : (s.observe es).dev = s.dev := rfl
@[simp] theorem State.observe_target (s : State) (es : List Event) : (s.observe es).target = s.target := rfl
@[simp] theorem State.observe_senses (s : State) (es : List Event) : (s.observe es).senses = s.senses := rfl
@[simp] theorem State.observe_delay (s : State) (es : List Event) : (s.observe es).delay = s.delay := rfl

/-! ### sent -/

@[simp] theorem State.sent_map (s : State) (f : Frame) : (s.sent f).map = s.map := rfl
@[simp] theorem State.sent_port (s : State) (f : Frame) : (s.sent f).port = s.port := rfl
@[simp] theorem State.sent_cfg (s : State) (f : Frame) : (s.sent f).cfg = s.cfg := rfl
@[simp] theorem State.sent_link (s : State) (f : Frame) : (s.sent f).link = s.link := rfl
@[simp] theorem State.sent_pins (s : State) (f : Frame) : (s.sent f).pins = s.pins := rfl
@[simp] theorem State.sent_session (s : State) (f : Frame) : (s.sent f).session = s.session := rfl
@[simp] theorem State.sent_seq (s : State) (f : Frame) : (s.sent f).seq = Seq.idle := rfl
@[simp] theorem State.sent_work (s : State) (f : Frame) : (s.sent f).work = none := rfl
@[simp] theorem State.sent_trace (s : State) (f : Frame) : (s.sent f).trace = s.trace ++ f.events := rfl
@[simp] theorem State.sent_frames (s : State) (f : Frame) : (s.sent f).frames = s.frames ++ [f] := rfl
@[simp] theorem State.sent_elapsed (s : State) (f : Frame) : (s.sent f).elapsed = timeAfter s.delay s.trace.length s.elapsed f.events := rfl
@[simp] theorem State.sent_responses (s : State) (f : Frame) : (s.sent f).responses = s.responses := rfl
@[simp] theorem State.sent_ret (s : State) (f : Frame) : (s.sent f).ret = s.ret := rfl
@[simp] theorem State.sent_dev (s : State) (f : Frame) : (s.sent f).dev = s.dev.apply s.map f := rfl
@[simp] theorem State.sent_target (s : State) (f : Frame) : (s.sent f).target = s.target := rfl
@[simp] theorem State.sent_senses (s : State) (f : Frame) : (s.sent f).senses = s.senses := rfl
@[simp] theorem State.sent_delay (s : State) (f : Frame) : (s.sent f).delay = s.delay := rfl

/-! ### heard -/

@[simp] theorem State.heard_map (s : State) (a : RegIdx) (n : Nat) : (s.heard a n).map = s.map := rfl
@[simp] theorem State.heard_port (s : State) (a : RegIdx) (n : Nat) : (s.heard a n).port = s.port := rfl
@[simp] theorem State.heard_cfg (s : State) (a : RegIdx) (n : Nat) : (s.heard a n).cfg = s.cfg := rfl
@[simp] theorem State.heard_link (s : State) (a : RegIdx) (n : Nat) : (s.heard a n).link = s.link := rfl
@[simp] theorem State.heard_pins (s : State) (a : RegIdx) (n : Nat) : (s.heard a n).pins = s.pins := rfl
@[simp] theorem State.heard_session (s : State) (a : RegIdx) (n : Nat) : (s.heard a n).session = s.session := rfl
@[simp] theorem State.heard_seq (s : State) (a : RegIdx) (n : Nat) : (s.heard a n).seq = Seq.idle := rfl
@[simp] theorem State.heard_work (s : State) (a : RegIdx) (n : Nat) : (s.heard a n).work = none := rfl
@[simp] theorem State.heard_trace (s : State) (a : RegIdx) (n : Nat) : (s.heard a n).trace = s.trace ++ (s.readFrame a n).events := rfl
@[simp] theorem State.heard_frames (s : State) (a : RegIdx) (n : Nat) : (s.heard a n).frames = s.frames ++ [s.readFrame a n] := rfl
@[simp] theorem State.heard_elapsed (s : State) (a : RegIdx) (n : Nat) : (s.heard a n).elapsed = timeAfter s.delay s.trace.length s.elapsed (s.readFrame a n).events := rfl
@[simp] theorem State.heard_responses (s : State) (a : RegIdx) (n : Nat) : (s.heard a n).responses = s.responses := rfl
@[simp] theorem State.heard_ret (s : State) (a : RegIdx) (n : Nat) : (s.heard a n).ret = s.ret := rfl
@[simp] theorem State.heard_dev (s : State) (a : RegIdx) (n : Nat) : (s.heard a n).dev = { s.dev with bus := .answer (a.toNat + n) 0 } := rfl
@[simp] theorem State.heard_target (s : State) (a : RegIdx) (n : Nat) : (s.heard a n).target = s.target.drop (8 * n) := rfl
@[simp] theorem State.heard_senses (s : State) (a : RegIdx) (n : Nat) : (s.heard a n).senses = s.senses + 8 * n := rfl
@[simp] theorem State.heard_delay (s : State) (a : RegIdx) (n : Nat) : (s.heard a n).delay = s.delay := rfl

end Sys2Proof.Machine
end

