-- ==== Sys2Proof/Laws/Events.lean ====
section
/-! SUPPORT. Emitting events: `emits` is appending to the trace, letting time pass, moving the pins, and letting the
reference target see the lines. -/

namespace Sys2Proof.Machine

theorem timeAfter_append (d : Rat) (n : Nat) (t : Rat) (es fs : List Event) :
    timeAfter d n t (es ++ fs) = timeAfter d (n + es.length) (timeAfter d n t es) fs := by
  induction es generalizing n t with
  | nil => simp [timeAfter]
  | cons e es ih => simp [timeAfter, ih, Nat.add_comm, Nat.add_left_comm]

/-- The pins after a list of events. -/
def Pins.afterAll (p : Pins) (es : List Event) : Pins := es.foldl Pins.after p

@[simp] theorem Pins.afterAll_nil (p : Pins) : p.afterAll [] = p := rfl
@[simp] theorem Pins.afterAll_cons (p : Pins) (e : Event) (es : List Event) :
    p.afterAll (e :: es) = (p.after e).afterAll es := rfl
@[simp] theorem Pins.afterAll_append (p : Pins) (es fs : List Event) :
    p.afterAll (es ++ fs) = (p.afterAll es).afterAll fs := by
  simp [Pins.afterAll]

/-- What the reference target makes of a list of events, the first being event number `n` of the trace, the pins being
`p` before it. -/
def Dev.watch (m : RegMap) : Pins → Nat → Dev → List Event → Dev
  | _, _, d, [] => d
  | p, n, d, e :: es => Dev.watch m (p.after e) (n + 1) (d.see m p (Config.undriven n) e) es

@[simp] theorem Dev.watch_nil (m : RegMap) (p : Pins) (n : Nat) (d : Dev) : d.watch m p n [] = d := rfl

theorem Dev.watch_append (m : RegMap) (p : Pins) (n : Nat) (d : Dev) (es fs : List Event) :
    d.watch m p n (es ++ fs) = (d.watch m p n es).watch m (p.afterAll es) (n + es.length) fs := by
  induction es generalizing p n d with
  | nil => simp
  | cons e es ih => simp [Dev.watch, ih, Nat.add_comm, Nat.add_left_comm]

/-- Emitting events is observing them, moving the pins, and the target seeing them. -/
theorem State.emits_eq (s : State) (es : List Event) :
    s.emits es = { s.observe es with
      pins := s.pins.afterAll es, dev := s.dev.watch s.map s.pins s.trace.length es } := by
  unfold State.emits
  induction es generalizing s with
  | nil => simp [State.observe, timeAfter]
  | cons e es ih =>
    rw [List.foldl_cons, ih]
    simp [State.observe, State.emit, timeAfter, State.delay, Dev.watch]

@[simp] theorem State.emits_nil (s : State) : s.emits [] = s := rfl

theorem State.emit_emits (s : State) (e : Event) (es : List Event) : (s.emit e).emits es = s.emits (e :: es) := rfl

@[simp] theorem State.emits_emits (s : State) (es fs : List Event) : (s.emits es).emits fs = s.emits (es ++ fs) := by
  simp [State.emits]

@[simp] theorem State.emits_link (s : State) (es : List Event) : (s.emits es).link = s.link := by simp [State.emits_eq]
@[simp] theorem State.emits_seq (s : State) (es : List Event) : (s.emits es).seq = s.seq := by simp [State.emits_eq]
@[simp] theorem State.emits_map (s : State) (es : List Event) : (s.emits es).map = s.map := by simp [State.emits_eq]
@[simp] theorem State.emits_work (s : State) (es : List Event) : (s.emits es).work = s.work := by simp [State.emits_eq]
@[simp] theorem State.emits_target (s : State) (es : List Event) : (s.emits es).target = s.target := by
  simp [State.emits_eq]
@[simp] theorem State.emits_senses (s : State) (es : List Event) : (s.emits es).senses = s.senses := by
  simp [State.emits_eq]
theorem State.emits_dev (s : State) (es : List Event) :
    (s.emits es).dev = s.dev.watch s.map s.pins s.trace.length es := by simp [State.emits_eq]
@[simp] theorem State.emits_session (s : State) (es : List Event) : (s.emits es).session = s.session := by
  simp [State.emits_eq]
@[simp] theorem State.emits_pins (s : State) (es : List Event) : (s.emits es).pins = s.pins.afterAll es := by
  simp [State.emits_eq]

/-- When the events bring the pins back, emitting them is observing them, beside what the target makes of them. -/
theorem State.emits_of_pins (s : State) (es : List Event) (d : Dev) (h : s.pins.afterAll es = s.pins)
    (hd : s.dev.watch s.map s.pins s.trace.length es = d) : s.emits es = { s.observe es with dev := d } := by
  simp only [State.emits_eq, h, hd]; rfl

theorem State.emits_atPhase (s : State) (p : Seq) (es : List Event) :
    (s.atPhase p).emits es = (s.emits es).atPhase p := by
  simp [State.emits_eq, State.atPhase, State.observe, State.delay]

theorem State.emits_answered (s : State) (n : Nat) (es : List Event) :
    (s.answered n).emits es = (s.emits es).answered n := by
  simp [State.emits_eq, State.answered, State.observe, State.delay]

theorem State.emits_modifyWork (s : State) (f : Burst → Burst) (es : List Event) :
    (s.modifyWork f).emits es = (s.emits es).modifyWork f := by
  simp [State.emits_eq, State.modifyWork, State.observe, State.delay]

@[simp] theorem State.atPhase_atPhase (s : State) (p q : Seq) : (s.atPhase p).atPhase q = s.atPhase q := rfl
@[simp] theorem State.complete_atPhase (s : State) (p : Seq) (f : Frame) :
    (s.atPhase p).complete f = s.complete f := rfl

/-! ## The pins along the pieces of a burst -/

/-- ZDA driven and ZCL low: the pins between two written bits. -/
def Pins.between (v : Bit) : Pins := { zcl := false, zdaOut := v, role := .driving }

@[simp] theorem pins_start : Pins.idle.afterAll startEvents = Pins.between false := rfl

/-- ZDA driven and ZCL high: the pins just after a written bit. -/
def Pins.written (v : Bit) : Pins := { zcl := true, zdaOut := v, role := .driving }

@[simp] theorem pins_writeBit (u v : Bit) : (Pins.between u).afterAll (writeBitEvents v) = Pins.written v := rfl

@[simp] theorem pins_clockLow (v : Bit) : (Pins.written v).afterAll clockLowEvents = Pins.between v := rfl

@[simp] theorem Pins.written_zcl (v : Bit) : (Pins.written v).zcl = true := rfl

@[simp] theorem pins_lowBits (v : Bit) (bs : List Bit) :
    (Pins.between v).afterAll (lowBitsEvents bs) = Pins.between (bs.getLast?.getD v) := by
  induction bs generalizing v with
  | nil => rfl
  | cons b bs ih =>
    rw [lowBitsEvents, List.flatMap_cons, Pins.afterAll_append]
    rw [Pins.afterAll_append, pins_writeBit, pins_clockLow]
    have := ih b
    rw [lowBitsEvents] at this
    rw [this]
    cases bs <;> simp [List.getLast?_cons]

@[simp] theorem pins_header (a : RegIdx) (dir : Bit) : Pins.idle.afterAll (headerEvents a dir) = Pins.between dir := by
  rw [headerEvents, Pins.afterAll_append, pins_start, pins_lowBits]
  simp

/-- ZDA sensed and ZCL low: the pins between two read pulses. -/
def Pins.listening (v : Bit) : Pins := { zcl := false, zdaOut := v, role := .sensing }

theorem pins_listening_role (u : Bit) : (Pins.listening u).role = .sensing := rfl
@[simp] theorem pins_sense (u : Bit) : (Pins.between u).afterAll (roleEvents .sensing) = Pins.listening u := rfl
@[simp] theorem pins_drive (u : Bit) : (Pins.listening u).afterAll (roleEvents .driving) = Pins.between u := rfl
@[simp] theorem pins_readBits (u : Bit) (bs : List Bit) :
    (Pins.listening u).afterAll (bs.flatMap readBitEvents) = Pins.listening u := by
  induction bs with
  | nil => rfl
  | cons b bs ih =>
    rw [List.flatMap_cons, Pins.afterAll_append]
    exact ih

/-! ## `andThen` -/

@[simp] theorem andThen_next {α β : Type} (a : α) (f : α → Out β) : andThen (.next a) f = f a := rfl
@[simp] theorem andThen_fault {α β : Type} (r : Fault) (f : α → Out β) :
    andThen (.fault r : Out α) f = .fault r := rfl
@[simp] theorem andThen_refused {α β : Type} (r : Refusal) (f : α → Out β) :
    andThen (.refused r : Out α) f = .refused r := rfl

theorem andThen_eq_next {α β : Type} {o : Out α} {f : α → Out β} {b : β} (h : andThen o f = .next b) :
    ∃ a, o = .next a ∧ f a = .next b := by
  cases o with
  | next a => exact ⟨a, rfl, h⟩
  | fault r => cases h
  | refused r => cases h

@[simp] theorem whenOpen_opened {s : State} (h : s.link = .opened) (k : Out State) : whenOpen s k = k := by
  simp [whenOpen, h]

theorem whenOpen_not {s : State} (h : s.link ≠ .opened) (k : Out State) : whenOpen s k = .refused .lifecycle := by
  simp [whenOpen, h]

/-! ## The primitives, inside their preconditions (R91 to R94, R98) -/

theorem start_eq {s : State} (h : s.link = .opened) (hp : s.pins = Pins.idle) :
    start s = .next (s.emits startEvents) := by
  simp [start, h, hp, Pins.idle, startEvents]

theorem writeBit_eq (v : Bit) {s : State} {u : Bit} (h : s.link = .opened) (hp : s.pins = Pins.between u) :
    writeBit v s = .next (s.emits (writeBitEvents v)) := by
  simp [writeBit, h, hp, Pins.between, writeBitEvents]

theorem clockLow_eq {s : State} (h : s.link = .opened) (hz : s.pins.zcl = true) :
    clockLow s = .next (s.emits clockLowEvents) := by
  simp [clockLow, h, hz, clockLowEvents]

theorem setDirection_eq (r : Role) {s : State} (h : s.link = .opened) (hr : s.pins.role ≠ r) :
    setDirection r s = .next (s.emits (roleEvents r)) := by
  simp [setDirection, h, roleEvents, Ne.symm hr]

end Sys2Proof.Machine
end

