-- ==== Sys2Proof/Laws/Target.lean ====
section
/-! SUPPORT. What the reference target makes of the pieces of a burst, and of a whole one: from wherever it was, the events
of a frame leave it as `Dev.apply` says (R61, R62, R64). -/

namespace Sys2Proof.Machine

/-! ## Only a data bit touches a bank -/

@[simp] theorem Dev.store_r (m : RegMap) (d : Dev) (a : Nat) (b : Byte) : (d.store m a b).r = d.r := by
  simp only [Dev.store]
  split <;> split <;> rfl

@[simp] theorem Dev.store_bus (m : RegMap) (d : Dev) (a : Nat) (b : Byte) : (d.store m a b).bus = d.bus := by
  simp only [Dev.store]
  split <;> split <;> rfl

/-- Where the target is in a burst does not steer what a byte does. -/
theorem Dev.store_atBus (m : RegMap) (d : Dev) (x : Bus) (a : Nat) (b : Byte) :
    ({ d with bus := x } : Dev).store m a b = { d.store m a b with bus := x } := by
  simp only [Dev.store]
  split <;> split <;> rfl

@[simp] theorem Dev.storeAll_bus (m : RegMap) (d : Dev) (a : Nat) (bs : List Byte) : (d.storeAll m a bs).bus = d.bus := by
  induction bs generalizing d a with
  | nil => rfl
  | cons b bs ih => simp [Dev.storeAll, ih]

theorem Dev.storeAll_atBus (m : RegMap) (d : Dev) (x : Bus) (a : Nat) (bs : List Byte) :
    ({ d with bus := x } : Dev).storeAll m a bs = { d.storeAll m a bs with bus := x } := by
  induction bs generalizing d a with
  | nil => rfl
  | cons b bs ih => simp only [Dev.storeAll, Dev.store_atBus, ih]

theorem Dev.bus_eta {d : Dev} {x : Bus} (h : d.bus = x) : d = { d with bus := x } := by subst h; rfl

/-- What one clock pulse can do: move on in the burst, or take the eighth bit of a byte. -/
theorem Dev.pulse_cases (m : RegMap) (d : Dev) (v : Bit) :
    (∃ x, d.pulse m v = { d with bus := x }) ∨
    ∃ a bits, d.bus = .data a bits ∧ 7 ≤ bits.length ∧
      d.pulse m v = { d.store m a (byteOfBits (bits ++ [v])) with bus := .separator (a + 1) } := by
  unfold Dev.pulse
  split
  case h_1 => exact .inl ⟨d.bus, rfl⟩
  case h_5 a bits hb =>
    split
    · exact .inl ⟨_, rfl⟩
    · exact .inr ⟨a, bits, hb, by omega, rfl⟩
  all_goals exact .inl ⟨_, rfl⟩

/-- What one event can do to the target. -/
theorem Dev.see_cases (m : RegMap) (p : Pins) (z : Bit) (d : Dev) (e : Event) :
    (∃ x, d.see m p z e = { d with bus := x }) ∨
    ∃ v, e = .drive .zcl true ∧ p.zcl = false ∧ d.see m p z e = d.pulse m v := by
  cases e with
  | drive l v =>
    cases l with
    | zda =>
      simp only [Dev.see]
      split
      · exact .inl ⟨_, rfl⟩
      · exact .inl ⟨d.bus, rfl⟩
    | zcl =>
      simp only [Dev.see]
      split
      · rename_i h
        simp only [Bool.and_eq_true, Bool.not_eq_true'] at h
        exact .inr ⟨_, by rw [h.2], h.1, rfl⟩
      · exact .inl ⟨d.bus, rfl⟩
  | setRole r =>
    simp only [Dev.see]
    split
    · exact .inl ⟨_, rfl⟩
    · exact .inl ⟨d.bus, rfl⟩
  | _ => exact .inl ⟨d.bus, rfl⟩

/-- A clock pulse keeps the place in the burst one of R70. -/
theorem Dev.bus_wf_pulse (m : RegMap) (d : Dev) (v : Bit) (h : d.bus.wf = true) : (d.pulse m v).bus.wf = true := by
  unfold Dev.pulse
  split
  case h_1 => exact h
  case h_4 => rfl
  all_goals dsimp only
  all_goals split
  all_goals simp only [Bus.wf, List.length_append, List.length_singleton, decide_eq_true_eq]
  all_goals omega

@[simp] theorem Dev.pulse_r (m : RegMap) (d : Dev) (v : Bit) : (d.pulse m v).r = d.r := by
  rcases Dev.pulse_cases m d v with ⟨x, h⟩ | ⟨a, bits, -, -, h⟩ <;> simp [h]

@[simp] theorem Dev.see_r (m : RegMap) (p : Pins) (z : Bit) (d : Dev) (e : Event) : (d.see m p z e).r = d.r := by
  rcases Dev.see_cases m p z d e with ⟨x, h⟩ | ⟨v, -, -, h⟩ <;> simp [h]

/-- The lines never change the read space (R51). -/
@[simp] theorem Dev.watch_r (m : RegMap) (p : Pins) (n : Nat) (d : Dev) (es : List Event) :
    (d.watch m p n es).r = d.r := by
  induction es generalizing p n d with
  | nil => rfl
  | cons e es ih => simp [Dev.watch, ih]

@[simp] theorem State.emits_dev_r (s : State) (es : List Event) : (s.emits es).dev.r = s.dev.r := by
  simp [State.emits_dev]

/-! ## The pieces of a burst -/

/-- Clock pulses with the given bits, in order. -/
def Dev.pulses (m : RegMap) (d : Dev) (bs : List Bit) : Dev := bs.foldl (fun d v => d.pulse m v) d

@[simp] theorem Dev.pulses_nil (m : RegMap) (d : Dev) : d.pulses m [] = d := rfl
theorem Dev.pulses_cons (m : RegMap) (d : Dev) (v : Bit) (vs : List Bit) :
    d.pulses m (v :: vs) = (d.pulse m v).pulses m vs := rfl

/-- START is seen from anywhere in a burst (R64). -/
theorem Dev.watch_start (m : RegMap) (n : Nat) (d : Dev) :
    d.watch m Pins.idle n startEvents = { d with bus := .address [] } := rfl

/-- WRITE_BIT is one pulse with the bit driven (R95). -/
theorem Dev.watch_writeBit (m : RegMap) (u v : Bit) (n : Nat) (d : Dev) :
    d.watch m (Pins.between u) n (writeBitEvents v) = d.pulse m v := by
  cases v <;> rfl

theorem Dev.watch_clockLow (m : RegMap) (v : Bit) (n : Nat) (d : Dev) :
    d.watch m (Pins.written v) n clockLowEvents = d := rfl

theorem Dev.watch_lowBits (m : RegMap) (u : Bit) (n : Nat) (d : Dev) (bs : List Bit) :
    d.watch m (Pins.between u) n (lowBitsEvents bs) = d.pulses m bs := by
  induction bs generalizing u n d with
  | nil => rfl
  | cons v vs ih =>
    have : lowBitsEvents (v :: vs) = writeBitEvents v ++ (clockLowEvents ++ lowBitsEvents vs) := by
      simp [lowBitsEvents]
    rw [this, Dev.watch_append, pins_writeBit, Dev.watch_writeBit, Dev.watch_append, pins_clockLow, Dev.watch_clockLow,
      ih, Dev.pulses_cons]

theorem Dev.watch_highBits (m : RegMap) (u : Bit) (n : Nat) (d : Dev) (bs : List Bit) :
    d.watch m (Pins.between u) n (highBitsEvents bs) = d.pulses m bs := by
  induction bs generalizing u n d with
  | nil => rfl
  | cons v vs ih =>
    cases vs with
    | nil => exact Dev.watch_writeBit m u v n d
    | cons w ws =>
      have : highBitsEvents (v :: w :: ws) = writeBitEvents v ++ (clockLowEvents ++ highBitsEvents (w :: ws)) := by
        simp [highBitsEvents]
      rw [this, Dev.watch_append, pins_writeBit, Dev.watch_writeBit, Dev.watch_append, pins_clockLow,
        Dev.watch_clockLow, ih]
      rfl

theorem regOfBits_regBits : ∀ a : RegIdx, regOfBits (regBits a) = a := by decide +kernel

theorem byteOfBits_byteBits : ∀ b : Byte, byteOfBits (byteBits b) = b := by decide +kernel

/-- The eight pulses of a header (R73). -/
theorem Dev.pulses_header (m : RegMap) (d : Dev) (a : RegIdx) (dir : Bit) :
    ({ d with bus := .address [] } : Dev).pulses m (regBits a ++ [dir]) =
      { d with bus := (if dir then .answer a.toNat 0 else .separator a.toNat) } := by
  have hp : ∀ b6 b5 b4 b3 b2 b1 b0 : Bit, ({ d with bus := .address [] } : Dev).pulses m [b6, b5, b4, b3, b2, b1, b0, dir] =
      { d with bus := (if dir then .answer (regOfBits [b6, b5, b4, b3, b2, b1, b0]).toNat 0
                      else .separator (regOfBits [b6, b5, b4, b3, b2, b1, b0]).toNat) } := fun _ _ _ _ _ _ _ => rfl
  have h := hp (a.toNat.testBit 6) (a.toNat.testBit 5) (a.toNat.testBit 4) (a.toNat.testBit 3) (a.toNat.testBit 2)
    (a.toNat.testBit 1) (a.toNat.testBit 0)
  change _ = ({ d with bus := (if dir then .answer (regOfBits (regBits a)).toNat 0
    else .separator (regOfBits (regBits a)).toNat) } : Dev) at h
  rwa [regOfBits_regBits] at h

/-- The eight pulses of a byte of a write burst store it (R61). -/
theorem Dev.pulses_byte (m : RegMap) (d : Dev) (a : Nat) (b : Byte) :
    ({ d with bus := .data a [] } : Dev).pulses m (byteBits b) = { d.store m a b with bus := .separator (a + 1) } := by
  have hp : ∀ b7 b6 b5 b4 b3 b2 b1 b0 : Bit,
      ({ d with bus := .data a [] } : Dev).pulses m [b7, b6, b5, b4, b3, b2, b1, b0] =
        { ({ d with bus := .data a [b7, b6, b5, b4, b3, b2, b1] } : Dev).store m a
            (byteOfBits [b7, b6, b5, b4, b3, b2, b1, b0]) with bus := .separator (a + 1) } :=
    fun _ _ _ _ _ _ _ _ => rfl
  have h := hp (b.toNat.testBit 7) (b.toNat.testBit 6) (b.toNat.testBit 5) (b.toNat.testBit 4) (b.toNat.testBit 3)
    (b.toNat.testBit 2) (b.toNat.testBit 1) (b.toNat.testBit 0)
  change _ = ({ Dev.store m _ a (byteOfBits (byteBits b)) with bus := .separator (a + 1) } : Dev) at h
  rwa [byteOfBits_byteBits, Dev.store_atBus] at h

/-- A header (R71, R72), from wherever the target was (R64). -/
theorem Dev.watch_header (m : RegMap) (n : Nat) (d : Dev) (a : RegIdx) (dir : Bit) :
    d.watch m Pins.idle n (headerEvents a dir) =
      { d with bus := (if dir then .answer a.toNat 0 else .separator a.toNat) } := by
  rw [headerEvents, Dev.watch_append, Dev.watch_start, pins_start, Dev.watch_lowBits, Dev.pulses_header]

/-- The separator before a byte, of either value (R64). -/
theorem Dev.pulse_separator (m : RegMap) (d : Dev) (a : Nat) (v : Bit) :
    ({ d with bus := .separator a } : Dev).pulse m v = { d with bus := .data a [] } := rfl

theorem Dev.watch_writeBody (m : RegMap) (u : Bit) (n : Nat) (d : Dev) (a : Nat) (bs : List Byte) :
    ({ d with bus := .separator a } : Dev).watch m (Pins.between u) n (writeBodyEvents bs) =
      { d.storeAll m a bs with bus := .separator (a + bs.length) } := by
  induction bs generalizing u n d a with
  | nil => rfl
  | cons b bs ih =>
    cases bs with
    | nil =>
      rw [writeBodyEvents, List.append_assoc, Dev.watch_append, Dev.watch_writeBit, Dev.pulse_separator, pins_writeBit,
        Dev.watch_append, Dev.watch_clockLow, pins_clockLow, Dev.watch_highBits, Dev.pulses_byte]
      rfl
    | cons c cs =>
      have : writeBodyEvents (b :: c :: cs) = writeBitEvents true ++ (clockLowEvents ++ (lowBitsEvents (byteBits b) ++
          writeBodyEvents (c :: cs))) := by simp [writeBodyEvents]
      rw [this, Dev.watch_append, Dev.watch_writeBit, Dev.pulse_separator, pins_writeBit, Dev.watch_append,
        Dev.watch_clockLow, pins_clockLow, Dev.watch_append, Dev.watch_lowBits, Dev.pulses_byte, pins_lowBits, ih]
      have hn : a + 1 + (c :: cs).length = a + (b :: c :: cs).length := by simp only [List.length_cons]; omega
      rw [hn]
      rfl

theorem Dev.watch_writeEnd (m : RegMap) (v : Bit) (n : Nat) (d : Dev) :
    d.watch m (Pins.written v) n (endBurstEvents v) = d := by cases v <;> rfl

/-- The role switches and read pulses carry no level to the target. -/
theorem Dev.watch_readBit (m : RegMap) (u v : Bit) (n : Nat) (d : Dev) (a k : Nat) (hk : k < 8) :
    ({ d with bus := .answer a k } : Dev).watch m (Pins.listening u) n (readBitEvents v) =
      { d with bus := .answer a (k + 1) } := by
  simp [Dev.watch, readBitEvents, Dev.see, Dev.pulse, Pins.listening, Pins.after, hk]

theorem Dev.watch_readBits (m : RegMap) (u : Bit) (n : Nat) (d : Dev) (a k : Nat) (vs : List Bit)
    (hk : k + vs.length ≤ 8) :
    ({ d with bus := .answer a k } : Dev).watch m (Pins.listening u) n
      (vs.flatMap readBitEvents) = { d with bus := .answer a (k + vs.length) } := by
  induction vs generalizing n k with
  | nil => rfl
  | cons v vs ih =>
    simp only [List.length_cons] at hk
    rw [List.flatMap_cons, Dev.watch_append, Dev.watch_readBit m u v n d a k (by omega)]
    exact (ih _ (k + 1) (by omega)).trans (by simp [Nat.add_comm, Nat.add_left_comm])

/-- At a low clock a role switch is nothing to the target (R98). -/
theorem Dev.watch_role (m : RegMap) (p : Pins) (n : Nat) (d : Dev) (r : Role) (hz : p.zcl = false) :
    d.watch m p n (roleEvents r) = d := by
  simp [Dev.watch, roleEvents, Dev.see, hz]

theorem Dev.pulse_answered (m : RegMap) (d : Dev) (a : Nat) (v : Bit) :
    ({ d with bus := .answer a 8 } : Dev).pulse m v = { d with bus := .answer (a + 1) 0 } := rfl

theorem Dev.watch_readByte (m : RegMap) (u : Bit) (n : Nat) (d : Dev) (a : Nat) (b : Byte) :
    ({ d with bus := .answer a 0 } : Dev).watch m (Pins.between u) n (readByteEvents b) =
      { d with bus := .answer a 8 } := by
  rw [readByteEvents, List.append_assoc, Dev.watch_append, Dev.watch_role _ _ _ _ _ rfl, pins_sense, Dev.watch_append,
    Dev.watch_readBits m u _ d a 0 _ (by simp [byteBits, numberToBits]), pins_readBits, Dev.watch_role _ _ _ _ _ rfl]
  simp [byteBits, numberToBits]

end Sys2Proof.Machine
end

