-- ==== Sys2Proof/Laws/Banks.lean ====
section
/-! SUPPORT. The banks of the target: a read after a write, and that every operation keeps the canonical form. -/

namespace Sys2Proof.Machine

theorem Memory.wfFrom_mono {lo hi : Nat} (h : lo ≤ hi) (m : Memory) (hm : m.wfFrom hi = true) :
    m.wfFrom lo = true := by
  cases m with
  | nil => rfl
  | cons c m =>
    obtain ⟨k, b⟩ := c
    simp only [Memory.wfFrom, Bool.and_eq_true, decide_eq_true_eq] at hm ⊢
    exact ⟨⟨⟨by omega, hm.1.1.2⟩, hm.1.2⟩, hm.2⟩

/-- Below the least listed index everything reads as unlisted. -/
theorem Memory.read_below {lo a : Nat} (m : Memory) (hm : m.wfFrom lo = true) (h : a < lo) :
    m.read a = Memory.fill := by
  induction m generalizing lo with
  | nil => rfl
  | cons c m ih =>
    obtain ⟨k, b⟩ := c
    simp only [Memory.wfFrom, Bool.and_eq_true, decide_eq_true_eq] at hm
    rw [Memory.read, if_neg (by omega)]
    exact ih hm.2 (by omega)

theorem Memory.wfFrom_write {lo a : Nat} (m : Memory) (b : Byte) (hm : m.wfFrom lo = true) (hl : lo ≤ a)
    (ha : a ≤ 127) : (m.write a b).wfFrom lo = true := by
  induction m generalizing lo with
  | nil =>
    simp only [Memory.write]
    split <;> simp_all [Memory.wfFrom]
  | cons c m ih =>
    obtain ⟨k, d⟩ := c
    have hm' := hm
    simp only [Memory.wfFrom, Bool.and_eq_true, decide_eq_true_eq] at hm'
    obtain ⟨⟨⟨h1, h2⟩, h3⟩, h4⟩ := hm'
    simp only [Memory.write]
    split
    · rename_i hk
      simp only [Memory.wfFrom, Bool.and_eq_true, decide_eq_true_eq]
      exact ⟨⟨⟨h1, h2⟩, h3⟩, ih h4 (by omega)⟩
    · split
      · rename_i _ hk
        split
        · exact Memory.wfFrom_mono (by omega) m h4
        · rename_i hb
          simp only [Memory.wfFrom, Bool.and_eq_true, decide_eq_true_eq]
          exact ⟨⟨⟨hl, ha⟩, hb⟩, by rw [← hk]; exact h4⟩
      · split
        · exact hm
        · rename_i hb
          simp only [Memory.wfFrom, Bool.and_eq_true, decide_eq_true_eq]
          exact ⟨⟨⟨hl, ha⟩, hb⟩, ⟨⟨⟨by omega, h2⟩, h3⟩, h4⟩⟩

/-- A write keeps the canonical form. -/
theorem Memory.wf_write {a : Nat} (m : Memory) (b : Byte) (hm : m.wf = true) (ha : a ≤ 127) :
    (m.write a b).wf = true := Memory.wfFrom_write m b hm (Nat.zero_le a) ha

theorem Memory.readFrom_write {lo : Nat} (m : Memory) (a x : Nat) (b : Byte) (hm : m.wfFrom lo = true) :
    (m.write a b).read x = if x = a then b else m.read x := by
  induction m generalizing lo with
  | nil =>
    simp only [Memory.write]
    split
    · rename_i hb
      simp [Memory.read, hb]
    · simp [Memory.read, eq_comm]
  | cons c m ih =>
    obtain ⟨k, d⟩ := c
    simp only [Memory.wfFrom, Bool.and_eq_true, decide_eq_true_eq] at hm
    simp only [Memory.write]
    split
    · rename_i hk
      simp only [Memory.read]
      rw [ih hm.2]
      by_cases hx : k = x
      · have : x ≠ a := by omega
        simp [hx, this]
      · simp [hx]
    · split
      · rename_i _ hk
        split
        · rename_i hb
          by_cases hx : x = a
          · rw [if_pos hx, Memory.read_below m hm.2 (by omega), hb]
          · rw [if_neg hx]
            simp only [Memory.read]
            rw [if_neg (by omega)]
        · simp only [Memory.read, hk]
          by_cases hx : x = a
          · simp [hx]
          · rw [if_neg (Ne.symm hx), if_neg hx, if_neg (Ne.symm hx)]
      · split
        · rename_i hb
          by_cases hx : x = a
          · rw [if_pos hx, Memory.read, if_neg (by omega), Memory.read_below m hm.2 (by omega), hb]
          · rw [if_neg hx]
        · by_cases hx : x = a
          · simp [Memory.read, hx]
          · rw [if_neg hx, Memory.read, if_neg (Ne.symm hx)]

/-- A read after a write: the byte written there, every other byte as before. -/
theorem Memory.read_write (m : Memory) (a x : Nat) (b : Byte) (hm : m.wf = true) :
    (m.write a b).read x = if x = a then b else m.read x := Memory.readFrom_write m a x b hm

theorem regIdx_le (a : RegIdx) : a.toNat ≤ 127 := by
  have := a.isLt
  omega

/-- Clearing keeps the canonical form. -/
theorem Memory.wf_clear (regs : List RegIdx) (m : Memory) (hm : m.wf = true) : (m.clear regs).wf = true := by
  unfold Memory.clear
  induction regs generalizing m with
  | nil => exact hm
  | cons a regs ih => exact ih _ (Memory.wf_write m 0 hm (regIdx_le a))

/-- Clearing sets the named registers to 0 and leaves every other as it was (R63). -/
theorem Memory.read_clear (regs : List RegIdx) (m : Memory) (x : Nat) (hm : m.wf = true) :
    (m.clear regs).read x = if x ∈ regs.map BitVec.toNat then 0 else m.read x := by
  unfold Memory.clear
  induction regs generalizing m with
  | nil => simp
  | cons a regs ih =>
    rw [List.foldl_cons, ih _ (Memory.wf_write m 0 hm (regIdx_le a)), Memory.read_write m _ _ _ hm]
    simp only [List.map_cons, List.mem_cons]
    split <;> rename_i h1
    · simp [h1]
    · split <;> rename_i h2
      · simp [h2]
      · simp [h1, h2]

theorem Dev.wf_store (m : RegMap) (d : Dev) (a : Nat) (b : Byte) (h : d.w.wf = true) :
    (d.store m a b).w.wf = true := by
  have h1 : (if a ≤ 127 then { d with w := d.w.write a b } else d).w.wf = true := by
    split
    · exact Memory.wf_write _ _ h ‹_›
    · exact h
  simp only [Dev.store]
  split
  · exact Memory.wf_clear _ _ h1
  · exact h1

/-- One byte taken by the reference target (R61, R63). -/
theorem Dev.read_store (m : RegMap) (d : Dev) (a x : Nat) (b : Byte) (h : d.w.wf = true) :
    (d.store m a b).w.read x =
      if (a = m.wMasterCtl.toNat ∧ b = Config.resetCmd) ∧ x ∈ (breakRegs m).map BitVec.toNat then 0
      else if x = a ∧ a ≤ 127 then b else d.w.read x := by
  let e : Dev := if a ≤ 127 then { d with w := d.w.write a b } else d
  have h1 : e.w.wf = true ∧ e.w.read x = if x = a ∧ a ≤ 127 then b else d.w.read x := by
    by_cases ha : a ≤ 127
    · simp only [e, if_pos ha, ha, and_true]
      exact ⟨Memory.wf_write _ _ h ha, Memory.read_write _ _ _ _ h⟩
    · simp only [e, if_neg ha, ha, and_false, if_false]
      exact ⟨h, trivial⟩
  change (if a = m.wMasterCtl.toNat ∧ b = Config.resetCmd then { e with w := e.w.clear (breakRegs m) } else e).w.read x
    = _
  by_cases hr : a = m.wMasterCtl.toNat ∧ b = Config.resetCmd
  · rw [if_pos hr, Memory.read_clear _ _ _ h1.1, h1.2]
    simp only [hr, true_and]
  · rw [if_neg hr, h1.2]
    simp only [hr, false_and, if_false]

@[simp] theorem Dev.storeAll_r (m : RegMap) (d : Dev) (a : Nat) (bs : List Byte) : (d.storeAll m a bs).r = d.r := by
  induction bs generalizing d a with
  | nil => rfl
  | cons b bs ih => simp [Dev.storeAll, ih]

theorem Dev.wf_storeAll (m : RegMap) (d : Dev) (a : Nat) (bs : List Byte) (h : d.w.wf = true) :
    (d.storeAll m a bs).w.wf = true := by
  induction bs generalizing d a with
  | nil => exact h
  | cons b bs ih => exact ih _ _ (Dev.wf_store m d a b h)

/-- A frame leaves the read space alone (R51). -/
@[simp] theorem Dev.apply_r (m : RegMap) (d : Dev) (f : Frame) : (d.apply m f).r = d.r := by
  cases f <;> simp [Dev.apply]

@[simp] theorem Dev.apply_read_w (m : RegMap) (d : Dev) (a : RegIdx) (n : Nat) (rx : List Byte) :
    (d.apply m (.read a n rx)).w = d.w := rfl

@[simp] theorem Dev.apply_write_w (m : RegMap) (d : Dev) (a : RegIdx) (bs : List Byte) :
    (d.apply m (.write a bs)).w = (d.storeAll m a.toNat bs).w := rfl

/-- A frame keeps the canonical form of the write space. -/
theorem Dev.wf_apply (m : RegMap) (d : Dev) (f : Frame) (h : d.w.wf = true) : (d.apply m f).w.wf = true := by
  cases f with
  | write a bs => exact Dev.wf_storeAll m d _ bs h
  | read a n rx => exact h

/-- A clock pulse keeps the canonical form of the write space. -/
theorem Dev.wf_pulse (m : RegMap) (d : Dev) (v : Bit) (h : d.w.wf = true) : (d.pulse m v).w.wf = true := by
  rcases Dev.pulse_cases m d v with ⟨x, e⟩ | ⟨a, bits, -, -, e⟩
  · rw [e]; exact h
  · rw [e]; exact Dev.wf_store m d a _ h

/-- So do any events. -/
theorem Dev.wf_watch (m : RegMap) (p : Pins) (n : Nat) (d : Dev) (es : List Event) (h : d.w.wf = true) :
    (d.watch m p n es).w.wf = true := by
  induction es generalizing p n d with
  | nil => exact h
  | cons e es ih =>
    refine ih _ _ _ ?_
    rcases Dev.see_cases m p (Config.undriven n) d e with ⟨x, e⟩ | ⟨v, -, -, e⟩
    · rw [e]; exact h
    · rw [e]; exact Dev.wf_pulse m d v h

/-- The banks of the reset state are in canonical form. -/
theorem reset_banks_wf : State.reset.dev.w.wf = true ∧ State.reset.dev.r.wf = true := ⟨rfl, rfl⟩

end Sys2Proof.Machine
end

