-- ==== Sys2Proof/Laws/Framer.lean ====
section
/-! SUPPORT. Everything a burst can do, once: a write burst from a ready state is `State.sent` of its frame, a read burst
is `State.heard`. Later proofs cite `sendFrame_eq` and `recvFrame_eq` instead of unfolding. -/

namespace Sys2Proof.Machine

/-! ## Sending bits -/

theorem highBitsEvents_cons (v w : Bit) (ws : List Bit) :
    highBitsEvents (v :: w :: ws) = writeBitEvents v ++ clockLowEvents ++ highBitsEvents (w :: ws) := rfl

theorem writeBodyEvents_cons (b c : Byte) (cs : List Byte) :
    writeBodyEvents (b :: c :: cs) =
      writeBitEvents true ++ clockLowEvents ++ lowBitsEvents (byteBits b) ++ writeBodyEvents (c :: cs) := rfl

theorem readBodyEvents_cons (b c : Byte) (cs : List Byte) :
    readBodyEvents (b :: c :: cs) =
      readByteEvents b ++ writeBitEvents false ++ clockLowEvents ++ readBodyEvents (c :: cs) := rfl

/-- WRITE_BIT in a phase. -/
theorem writeBit_atPhase (v : Bit) {s : State} {u : Bit} (p : Seq) (h : s.link = .opened)
    (hp : s.pins = Pins.between u) :
    writeBit v (s.atPhase p) = .next ((s.emits (writeBitEvents v)).atPhase p) := by
  rw [writeBit_eq v (u := u) (by simpa using h) (by simpa using hp), State.emits_atPhase]

/-- WRITE_BIT and CLOCK_LOW in a phase. -/
theorem writeBitLow_atPhase {α : Type} (v : Bit) {s : State} {u : Bit} (p : Seq) (h : s.link = .opened)
    (hp : s.pins = Pins.between u) (f : State → Out α) :
    (andThen (writeBit v (s.atPhase p)) fun s => andThen (clockLow s) f) =
      f ((s.emits (writeBitEvents v ++ clockLowEvents)).atPhase p) := by
  rw [writeBit_atPhase v p h hp, andThen_next, clockLow_eq (by simpa using h) (by simp [hp]), State.emits_atPhase,
    State.emits_emits, andThen_next]

theorem sendBits_eq (phase : Nat → Seq) (bs : List Bit) (s : State) (u : Bit) (h : s.link = .opened)
    (hp : s.pins = Pins.between u) :
    sendBits phase bs s = .next ((s.emits (lowBitsEvents bs)).atPhase (if bs = [] then s.seq else phase 0)) := by
  induction bs generalizing s u with
  | nil => simp [sendBits, lowBitsEvents, State.atPhase]
  | cons v vs ih =>
    rw [sendBits, writeBitLow_atPhase v _ h hp, ih _ v (by simpa using h) (by simp [hp]), State.emits_atPhase,
      State.emits_emits, State.atPhase_atPhase]
    cases vs <;> simp [lowBitsEvents]

theorem sendBitsHigh_eq (phase : Nat → Seq) (bs : List Bit) (s : State) (u : Bit) (h : s.link = .opened)
    (hp : s.pins = Pins.between u) (hb : bs ≠ []) :
    sendBitsHigh phase bs s = .next ((s.emits (highBitsEvents bs)).atPhase (phase 0)) := by
  induction bs generalizing s u with
  | nil => exact absurd rfl hb
  | cons v vs ih =>
    cases vs with
    | nil => rw [sendBitsHigh, highBitsEvents, writeBit_atPhase v _ h hp]
    | cons w ws =>
      rw [sendBitsHigh, writeBitLow_atPhase v _ h hp, ih _ v (by simpa using h) (by simp [hp]) (by simp),
        State.emits_atPhase, State.emits_emits, State.atPhase_atPhase, highBitsEvents_cons]
      simp

theorem pins_highBits (u : Bit) (bs : List Bit) (hb : bs ≠ []) :
    (Pins.between u).afterAll (highBitsEvents bs) = Pins.written (bs.getLast?.getD u) := by
  induction bs generalizing u with
  | nil => exact absurd rfl hb
  | cons v vs ih =>
    cases vs with
    | nil => rfl
    | cons w ws =>
      rw [highBitsEvents_cons, Pins.afterAll_append, Pins.afterAll_append, pins_writeBit, pins_clockLow,
        ih v (by simp)]
      simp [List.getLast?_cons]

theorem sendHeader_eq (a : RegIdx) (dir : Bit) (s : State) (h : s.link = .opened) (hp : s.pins = Pins.idle) :
    sendHeader a dir s = .next ((s.emits (headerEvents a dir)).atPhase .dir) := by
  have h1 : start (s.atPhase .start) = .next ((s.emits startEvents).atPhase .start) := by
    rw [start_eq (by simpa using h) (by simpa using hp), State.emits_atPhase]
  have h2 : sendBits .addr (regBits a) ((s.emits startEvents).atPhase .start) =
      .next ((s.emits (startEvents ++ lowBitsEvents (regBits a))).atPhase (.addr 0)) := by
    rw [sendBits_eq .addr _ _ false (by simpa using h) (by simp [hp]), State.emits_atPhase,
      State.emits_emits, State.atPhase_atPhase]
    simp [regBits, numberToBits]
  have h3 : writeBit dir (((s.emits (startEvents ++ lowBitsEvents (regBits a))).atPhase (.addr 0)).atPhase .dir) =
      .next ((s.emits (startEvents ++ lowBitsEvents (regBits a) ++ writeBitEvents dir)).atPhase .dir) := by
    rw [State.atPhase_atPhase, writeBit_atPhase dir (u := (regBits a).getLast?.getD false) _ (by simpa using h)
      (by simp [hp]), State.emits_emits]
  rw [sendHeader, h1, andThen_next, h2, andThen_next, h3, andThen_next,
    clockLow_eq (by simpa using h) (by simp [hp]), State.emits_atPhase, State.emits_emits]
  simp [headerEvents, lowBitsEvents]

/-! ## The write burst -/

theorem byteBits_ne_nil (b : Byte) : byteBits b ≠ [] := by simp [byteBits, numberToBits]

theorem byteBits_last (b : Byte) (u : Bit) : (byteBits b).getLast?.getD u = b.getLsbD 0 := by
  simp [byteBits, numberToBits, BitVec.getLsbD]

theorem sendBytes_eq (k : Nat) (bs : List Byte) (s : State) (u : Bit) (h : s.link = .opened)
    (hp : s.pins = Pins.between u) (hb : bs ≠ []) :
    ∃ p, sendBytes k bs s = .next ((s.emits (writeBodyEvents bs)).atPhase p) := by
  induction bs generalizing k s u with
  | nil => exact absurd rfl hb
  | cons b bs ih =>
    cases bs with
    | nil =>
      refine ⟨.data k 0, ?_⟩
      rw [sendBytes, writeBitLow_atPhase true _ h hp,
        sendBitsHigh_eq (.data k) _ _ true (by simpa using h) (by simp [hp]) (byteBits_ne_nil b),
        State.emits_atPhase, State.emits_emits, State.atPhase_atPhase, writeBodyEvents]
    | cons c cs =>
      let t := ((s.emits (writeBitEvents true ++ clockLowEvents ++ lowBitsEvents (byteBits b))).atPhase (.data k 0))
      have ht : sendBytes k (b :: c :: cs) s = sendBytes (k + 1) (c :: cs) t := by
        rw [sendBytes, writeBitLow_atPhase true _ h hp,
          sendBits_eq (.data k) _ _ true (by simpa using h) (by simp [hp]), if_neg (byteBits_ne_nil b),
          State.emits_atPhase, State.emits_emits, State.atPhase_atPhase, andThen_next]
        exact nofun
      obtain ⟨p, hp'⟩ := ih (k + 1) t ((byteBits b).getLast?.getD true) (by simpa [t] using h) (by simp [t, hp])
        (by simp)
      refine ⟨p, ht.trans (hp'.trans ?_)⟩
      rw [writeBodyEvents_cons]
      simp only [t, State.emits_atPhase, State.emits_emits, State.atPhase_atPhase]

theorem pins_writeBody (u : Bit) (bs : List Byte) (hb : bs ≠ []) :
    (Pins.between u).afterAll (writeBodyEvents bs) = Pins.written ((bs.getLast?.getD 0xFF).getLsbD 0) := by
  induction bs generalizing u with
  | nil => exact absurd rfl hb
  | cons b bs ih =>
    cases bs with
    | nil =>
      rw [writeBodyEvents, Pins.afterAll_append, Pins.afterAll_append, pins_writeBit, pins_clockLow,
        pins_highBits _ _ (byteBits_ne_nil b), byteBits_last]
      rfl
    | cons c cs =>
      rw [writeBodyEvents_cons, Pins.afterAll_append, Pins.afterAll_append, Pins.afterAll_append, pins_writeBit,
        pins_clockLow, pins_lowBits, ih _ (by simp)]
      simp [List.getLast?_cons]

/-- A write burst leaves the pins idle (R26). -/
theorem pins_writeFrame (a : RegIdx) (bs : List Byte) (hb : bs ≠ []) :
    Pins.idle.afterAll (Frame.write a bs).events = Pins.idle := by
  rw [Frame.events, Pins.afterAll_append, Pins.afterAll_append, pins_header, pins_writeBody _ _ hb, writeEndEvents]
  cases (bs.getLast?.getD 0xFF).getLsbD 0 <;> rfl

/-- A whole write burst does to the reference target what `Dev.apply` says, wherever it was before (R61, R64). -/
theorem Dev.watch_writeFrame (m : RegMap) (n : Nat) (d : Dev) (a : RegIdx) (bs : List Byte) (hb : bs ≠ []) :
    d.watch m Pins.idle n (Frame.write a bs).events = d.apply m (.write a bs) := by
  rw [Frame.events, List.append_assoc, Dev.watch_append, Dev.watch_header, pins_header, Dev.watch_append]
  simp only [Bool.false_eq_true, if_false]
  rw [Dev.watch_writeBody, pins_writeBody _ _ hb, writeEndEvents, Dev.watch_writeEnd]
  rfl

/-- END_BURST in phase End (R119). -/
theorem endBurst_eq (s : State) (v : Bit) (hp : s.pins = Pins.written v) :
    endBurst (s.atPhase .endMark) = .next ((s.emits (endBurstEvents v)).atPhase .endMark) := by
  cases v <;> simp [endBurst, hp, Pins.written, endBurstEvents, State.emits_atPhase]

/-- A write burst from a ready state (R115, R78). -/
theorem sendFrame_eq (a : RegIdx) (bs : List Byte) (s : State) (h : s.ready) (hb : bs ≠ []) :
    sendFrame a bs s = .next (s.sent (.write a bs)) := by
  obtain ⟨ho, hp, hq⟩ := h
  rw [sendFrame, if_neg (by simp [hq])]
  generalize hw : ({ s with work := some _ } : State) = t
  have hto : t.link = .opened := by rw [← hw]; exact ho
  have htp : t.pins = Pins.idle := by rw [← hw]; exact hp
  obtain ⟨p, hs⟩ := sendBytes_eq 0 bs ((t.emits (headerEvents a false)).atPhase .dir) false (by simpa using hto)
    (by simp [htp]) hb
  have hend := endBurst_eq (t.emits (headerEvents a false ++ writeBodyEvents bs))
    ((bs.getLast?.getD 0xFF).getLsbD 0) (by simp [htp, pins_writeBody _ _ hb])
  simp only [sendHeader_eq a false t hto htp, andThen_next, hs, State.emits_atPhase, State.emits_emits,
    State.atPhase_atPhase, hend, State.complete_atPhase]
  have he : t.emits (headerEvents a false ++ writeBodyEvents bs ++ endBurstEvents ((bs.getLast?.getD 0xFF).getLsbD 0)) =
      { t.observe (Frame.write a bs).events with dev := t.dev.apply t.map (.write a bs) } :=
    State.emits_of_pins t _ _ (by rw [htp]; exact pins_writeFrame a bs hb)
      (by rw [htp]; exact Dev.watch_writeFrame t.map _ t.dev a bs hb)
  rw [he, ← hw]
  rfl

/-! ## The read burst -/

theorem State.levelAt_congr {s t : State} (ht : t.target = s.target) (hs : t.senses = s.senses) (hd : t.dev.r = s.dev.r)
    (a : RegIdx) (k j i : Nat) : t.levelAt a k j i = s.levelAt a k j i := by
  simp [State.levelAt, Dev.readReg, ht, hs, hd]

theorem State.levelAt_answered (s : State) (n : Nat) (a : RegIdx) (k j i : Nat) :
    (s.answered n).levelAt a k j i = s.levelAt a k j (n + i) := by
  simp only [State.levelAt, State.answered_target, State.answered_senses, State.answered_dev]
  cases s.target with
  | oracle answers => simp [Target.drop, Nat.add_assoc]
  | reference => rfl

/-- After the read pulse of bit j of a byte the next level is the one R62 gives, or the next answer. -/
theorem State.level_answer (s : State) (a : RegIdx) (k j : Nat) (hj : j < 8)
    (hb : s.dev.bus = .answer (a.toNat + k) (8 - j)) : s.level = s.levelAt a k j 0 := by
  have h8 : 8 - j = (7 - j) + 1 := by omega
  have h7 : 7 - (7 - j) = j := by omega
  unfold State.level State.levelAt
  cases s.target with
  | oracle answers => cases answers <;> simp
  | reference => simp [hb, h8, h7]

/-- The levels of the read pulses of bits `n - 1` to 0 of byte k, the first being the i-th `Sense` from now. -/
def State.levelsDown (s : State) (a : RegIdx) (k : Nat) : Nat → Nat → List Bit
  | 0, _ => []
  | j + 1, i => s.levelAt a k j i :: State.levelsDown s a k j (i + 1)

theorem State.levelsDown_eight (s : State) (a : RegIdx) (k i : Nat) :
    s.levelsDown a k 8 i = s.presentedBits a k i := rfl

@[simp] theorem State.levelsDown_length (s : State) (a : RegIdx) (k n i : Nat) : (s.levelsDown a k n i).length = n := by
  induction n generalizing i with
  | zero => rfl
  | succ n ih => simp [State.levelsDown, ih]

theorem State.levelsDown_congr {s t : State} (ht : t.target = s.target) (hs : t.senses = s.senses) (hd : t.dev.r = s.dev.r)
    (a : RegIdx) (k n i : Nat) : t.levelsDown a k n i = s.levelsDown a k n i := by
  induction n generalizing i with
  | zero => rfl
  | succ n ih => simp [State.levelsDown, ih, State.levelAt_congr ht hs hd]

theorem State.levelsDown_answered (s : State) (m : Nat) (a : RegIdx) (k n i : Nat) :
    (s.answered m).levelsDown a k n i = s.levelsDown a k n (m + i) := by
  induction n generalizing i with
  | zero => rfl
  | succ n ih => simp [State.levelsDown, ih, State.levelAt_answered, Nat.add_assoc]

/-- `shift` after the bits, the last of them bit 0. -/
def setBitsDown (b : Byte) : List Bit → Byte
  | [] => b
  | v :: vs => setBitsDown (setBit b vs.length v) vs

/-- Eight bits shifted in, bit 7 first, are the byte (R74, R117). -/
theorem setBitsDown_eight : ∀ b7 b6 b5 b4 b3 b2 b1 b0 : Bool,
    setBitsDown 0 [b7, b6, b5, b4, b3, b2, b1, b0] = byteOfBits [b7, b6, b5, b4, b3, b2, b1, b0] := by
  decide +kernel

theorem setBitsDown_presented (s : State) (a : RegIdx) (k i : Nat) :
    setBitsDown 0 (s.presentedBits a k i) = byteOfBits (s.presentedBits a k i) := setBitsDown_eight _ _ _ _ _ _ _ _

/-- One read pulse moves the reference target on by one bit of its byte. -/
theorem State.emits_readBit_bus {s : State} {u : Bit} {a n : Nat} (hp : s.pins = Pins.listening u)
    (hb : s.dev.bus = .answer a n) (hn : n < 8) (v : Bit) :
    (s.emits (readBitEvents v)).dev.bus = .answer a (n + 1) := by
  rw [State.emits_dev, hp, Dev.bus_eta hb]
  exact congrArg Dev.bus (Dev.watch_readBit s.map u v _ s.dev a n hn)

theorem readBit_eq (s : State) (u : Bit) (a : RegIdx) (k j : Nat) (h : s.link = .opened)
    (hp : s.pins = Pins.listening u) (hj : j < 8) (hb : s.dev.bus = .answer (a.toNat + k) (7 - j)) :
    readBit (s.atPhase (.rx k j)) = .next (s.levelAt a k j 0,
      ((s.answered 1).emits (readBitEvents (s.levelAt a k j 0))).atPhase (.rx k j)) := by
  have hl : ((s.atPhase (.rx k j)).emits [.drive .zcl true, .sleep, .drive .zcl false]).level = s.levelAt a k j 0 := by
    have hbus : ((s.atPhase (.rx k j)).emits [.drive .zcl true, .sleep, .drive .zcl false]).dev.bus =
        .answer (a.toNat + k) (8 - j) := by
      have := State.emits_readBit_bus hp hb (by omega) false
      have h8 : 7 - j + 1 = 8 - j := by omega
      rw [h8, State.emits_dev] at this
      rw [State.emits_dev]
      exact this
    rw [State.level_answer _ a k j hj hbus]
    exact State.levelAt_congr (by simp) (by simp) (by simp) _ _ _ _
  simp only [readBit, State.atPhase_link, State.atPhase_pins, h, hp, Pins.listening, and_self, if_true, hl,
    ← State.emits_answered, State.emits_emits]
  rfl

/-- The working registers replaced. -/
def State.setWork (s : State) (w : Burst) : State := { s with work := some w }

theorem State.modifyWork_eq (s : State) (f : Burst → Burst) (w : Burst) (hw : s.work = some w) :
    s.modifyWork f = s.setWork (f w) := by
  simp [State.modifyWork, State.setWork, hw]

@[simp] theorem State.setWork_work (s : State) (w : Burst) : (s.setWork w).work = some w := rfl
@[simp] theorem State.setWork_link (s : State) (w : Burst) : (s.setWork w).link = s.link := rfl
@[simp] theorem State.setWork_pins (s : State) (w : Burst) : (s.setWork w).pins = s.pins := rfl
@[simp] theorem State.setWork_target (s : State) (w : Burst) : (s.setWork w).target = s.target := rfl
@[simp] theorem State.setWork_senses (s : State) (w : Burst) : (s.setWork w).senses = s.senses := rfl
@[simp] theorem State.setWork_dev (s : State) (w : Burst) : (s.setWork w).dev = s.dev := rfl
@[simp] theorem State.setWork_setWork (s : State) (v w : Burst) : (s.setWork v).setWork w = s.setWork w := rfl
theorem State.setWork_atPhase (s : State) (p : Seq) (w : Burst) :
    (s.atPhase p).setWork w = (s.setWork w).atPhase p := rfl
theorem State.answered_setWork (s : State) (n : Nat) (w : Burst) :
    (s.setWork w).answered n = (s.answered n).setWork w := rfl
theorem State.answered_atPhase (s : State) (n : Nat) (p : Seq) :
    (s.atPhase p).answered n = (s.answered n).atPhase p := rfl
theorem State.emits_setWork (s : State) (w : Burst) (es : List Event) :
    (s.setWork w).emits es = (s.emits es).setWork w := by
  simp [State.emits_eq, State.setWork, State.observe, State.delay]

theorem State.answered_answered (s : State) (m n : Nat) : (s.answered m).answered n = s.answered (m + n) := by
  have h : (s.target.drop m).drop n = s.target.drop (m + n) := by
    cases s.target <;> simp [Target.drop]
  simp only [State.answered, h, Nat.add_assoc]

theorem State.answered_zero (s : State) : s.answered 0 = s := by
  have h : s.target.drop 0 = s.target := by cases s.target <;> rfl
  simp only [State.answered, h, Nat.add_zero]

/-- The n read pulses of bits `n - 1` to 0 of byte k: their levels go into `shift`. -/
theorem recvBits_eq (k n : Nat) (s : State) (u : Bit) (w : Burst) (h : s.link = .opened)
    (hp : s.pins = Pins.listening u) (hw : s.work = some w) (hn : n ≤ 8)
    (hb : s.dev.bus = .answer (w.curReg.toNat + k) (8 - n)) :
    ∃ p, recvBits k n s = .next
      ((((s.answered n).emits ((s.levelsDown w.curReg k n 0).flatMap readBitEvents)).setWork
        { w with shift := setBitsDown w.shift (s.levelsDown w.curReg k n 0) }).atPhase p) := by
  induction n generalizing s w with
  | zero =>
    refine ⟨s.seq, ?_⟩
    simp only [recvBits, State.answered_zero, State.levelsDown, List.flatMap_nil, State.emits_nil, setBitsDown]
    simp [State.setWork, State.atPhase, ← hw]
  | succ n ih =>
    let v := s.levelAt w.curReg k n 0
    let w' : Burst := { w with shift := setBit w.shift n v }
    let t := (((s.answered 1).emits (readBitEvents v)).setWork w').atPhase (.rx k n)
    have ht : recvBits k (n + 1) s = recvBits k n t := by
      rw [recvBits, readBit_eq s u w.curReg k n h hp (by omega) (by rw [hb]; congr 1; omega), andThen_next, State.modifyWork_eq _ _ w (by simpa using hw)]
      rfl
    have hlev : t.levelsDown w'.curReg k n 0 = s.levelsDown w.curReg k n 1 := by
      rw [State.levelsDown_congr (s := s.answered 1) (by simp [t]) (by simp [t]) (by simp [t]),
        State.levelsDown_answered]
    have hbus : t.dev.bus = .answer (w'.curReg.toNat + k) (8 - n) := by
      have := State.emits_readBit_bus (s := s.answered 1) hp hb (by omega) v
      have h8 : 8 - (n + 1) + 1 = 8 - n := by omega
      rwa [h8] at this
    obtain ⟨p, hr⟩ := ih t w' (by simpa [t] using h) (by simp [t, hp, readBitEvents, Pins.after]; rfl) (by simp [t])
      (by omega) hbus
    refine ⟨p, ht.trans (hr.trans ?_)⟩
    rw [hlev]
    simp only [t, State.answered_atPhase, State.answered_setWork, State.emits_atPhase, State.emits_setWork,
      ← State.emits_answered, State.answered_answered, State.emits_emits, State.setWork_setWork,
      State.setWork_atPhase, State.atPhase_atPhase, Nat.add_comm 1 n]
    simp [State.levelsDown, setBitsDown, v, w']

/-- The bits of a byte assembled from eight bits are those bits (R112). -/
theorem byteBits_eight : ∀ b7 b6 b5 b4 b3 b2 b1 b0 : Bool,
    byteBits (byteOfBits [b7, b6, b5, b4, b3, b2, b1, b0]) = [b7, b6, b5, b4, b3, b2, b1, b0] := by
  decide +kernel

theorem byteBits_presented (s : State) (a : RegIdx) (k i : Nat) :
    byteBits (byteOfBits (s.presentedBits a k i)) = s.presentedBits a k i := byteBits_eight _ _ _ _ _ _ _ _

/-- The byte the target presents as byte k when its first bit is the next `Sense`. -/
def State.nextByte (s : State) (a : RegIdx) (k : Nat) : Byte := byteOfBits (s.presentedBits a k 0)

/-- One byte of a read burst (R117). -/
theorem recvByte_eq (k : Nat) (s : State) (u : Bit) (w : Burst) (h : s.link = .opened)
    (hp : s.pins = Pins.between u) (hw : s.work = some w) (hb : s.dev.bus = .answer (w.curReg.toNat + k) 0) :
    ∃ p, recvByte k s = .next
      ((((s.answered 8).emits (readByteEvents (s.nextByte w.curReg k))).setWork
        { w with shift := s.nextByte w.curReg k, rx := w.rx ++ [s.nextByte w.curReg k] }).atPhase p) := by
  let w0 : Burst := { w with shift := 0 }
  let t := (s.emits (roleEvents .sensing)).setWork w0
  have h1 : setDirection .sensing s = .next (s.emits (roleEvents .sensing)) :=
    setDirection_eq _ h (by simp [hp, Pins.between])
  have hlev : t.levelsDown w0.curReg k 8 0 = s.presentedBits w.curReg k 0 := by
    rw [State.levelsDown_congr (s := s) (by simp [t]) (by simp [t]) (by simp [t]), State.levelsDown_eight]
  have hbus : t.dev.bus = .answer (w0.curReg.toNat + k) (8 - 8) := by
    change (s.emits (roleEvents .sensing)).dev.bus = _
    rw [State.emits_dev, Dev.watch_role _ _ _ _ _ (by rw [hp]; rfl), hb]
  obtain ⟨p, h2⟩ := recvBits_eq k 8 t u w0 (by simpa [t] using h) (by simp [t, hp]) (by simp [t]) (by omega) hbus
  rw [hlev, setBitsDown_presented] at h2
  refine ⟨p, ?_⟩
  rw [recvByte, h1, andThen_next, State.modifyWork_eq _ _ w (by simpa using hw), h2, andThen_next,
    setDirection_eq _ (by simpa [t] using h) (by simp [t, hp, pins_listening_role]), andThen_next,
    State.emits_atPhase, State.emits_setWork, State.emits_emits]
  have he : readByteEvents (s.nextByte w.curReg k) = roleEvents .sensing ++
      ((s.presentedBits w.curReg k 0).flatMap readBitEvents ++ roleEvents .driving) := by
    rw [readByteEvents, State.nextByte, byteBits_presented, List.append_assoc]
  rw [he, State.modifyWork_eq _ _ { w0 with shift := byteOfBits (s.presentedBits w.curReg k 0) } rfl]
  simp only [t, State.answered_setWork, State.emits_setWork, ← State.emits_answered, State.emits_emits,
    State.setWork_setWork, State.setWork_atPhase]
  rfl

/-- The bytes from byte k on, the first bit of byte k being the next `Sense`. -/
def State.bytesFrom (s : State) (a : RegIdx) (k n : Nat) : List Byte :=
  (List.range n).map fun m => byteOfBits (s.presentedBits a (k + m) (8 * m))

theorem State.presentedBits_answered (s : State) (m : Nat) (a : RegIdx) (k i : Nat) :
    (s.answered m).presentedBits a k i = s.presentedBits a k (m + i) := by
  rw [← State.levelsDown_eight, ← State.levelsDown_eight, State.levelsDown_answered]

theorem State.presentedBits_congr {s t : State} (ht : t.target = s.target) (hs : t.senses = s.senses)
    (hd : t.dev.r = s.dev.r) (a : RegIdx) (k i : Nat) : t.presentedBits a k i = s.presentedBits a k i := by
  rw [← State.levelsDown_eight, ← State.levelsDown_eight, State.levelsDown_congr ht hs hd]

theorem State.bytesFrom_succ (s : State) (a : RegIdx) (k n : Nat) :
    s.bytesFrom a k (n + 1) = s.nextByte a k :: (s.answered 8).bytesFrom a (k + 1) n := by
  simp only [State.bytesFrom, List.range_succ_eq_map, List.map_cons, List.map_map, State.nextByte, Nat.mul_zero,
    Nat.add_zero, State.presentedBits_answered]
  congr 1
  apply List.map_congr_left
  intro m _
  simp only [Function.comp]
  congr 2 <;> omega

theorem pins_readByte (u : Bit) (b : Byte) : (Pins.between u).afterAll (readByteEvents b) = Pins.between u := by
  rw [readByteEvents, Pins.afterAll_append, Pins.afterAll_append, pins_sense, pins_readBits, pins_drive]

/-- A byte of a read burst and the separator after it: the target goes on to the next index (R58). -/
theorem Dev.watch_gap (m : RegMap) (u : Bit) (n : Nat) (d : Dev) (a : Nat) (b : Byte) :
    ({ d with bus := .answer a 0 } : Dev).watch m (Pins.between u) n
      (readByteEvents b ++ (writeBitEvents false ++ clockLowEvents)) = { d with bus := .answer (a + 1) 0 } := by
  rw [Dev.watch_append, Dev.watch_readByte, pins_readByte, Dev.watch_append, Dev.watch_writeBit, pins_writeBit,
    Dev.watch_clockLow, Dev.pulse_answered]

theorem State.emits_gap_bus {s : State} {u : Bit} {a : Nat} (hp : s.pins = Pins.between u)
    (hb : s.dev.bus = .answer a 0) (b : Byte) :
    (s.emits (readByteEvents b ++ (writeBitEvents false ++ clockLowEvents))).dev.bus = .answer (a + 1) 0 := by
  rw [State.emits_dev, hp, Dev.bus_eta hb, Dev.watch_gap]

theorem recvBytes_eq (k n : Nat) (s : State) (u : Bit) (w : Burst) (h : s.link = .opened)
    (hp : s.pins = Pins.between u) (hw : s.work = some w) (hbus : s.dev.bus = .answer (w.curReg.toNat + k) 0)
    (hn : 1 ≤ n) :
    ∃ p x, recvBytes k n s = .next
      ((((s.answered (8 * n)).emits (readBodyEvents (s.bytesFrom w.curReg k n))).setWork
        { w with shift := x, rx := w.rx ++ s.bytesFrom w.curReg k n }).atPhase p) := by
  induction n generalizing k s u w with
  | zero => omega
  | succ n ih =>
    obtain ⟨p, hb⟩ := recvByte_eq k s u w h hp hw hbus
    cases n with
    | zero =>
      refine ⟨.final, s.nextByte w.curReg k, ?_⟩
      have hf : s.bytesFrom w.curReg k 1 = [s.nextByte w.curReg k] := State.bytesFrom_succ s w.curReg k 0
      rw [recvBytes, hb, andThen_next, State.atPhase_atPhase,
        writeBit_atPhase true (u := u) _ (by simpa using h) (by simp [hp, pins_readByte]), State.emits_setWork,
        State.emits_emits]
      rw [hf, readBodyEvents]
    | succ n =>
      let t := ((((s.answered 8).emits (readByteEvents (s.nextByte w.curReg k) ++ (writeBitEvents false ++
        clockLowEvents))).setWork { w with shift := s.nextByte w.curReg k, rx := w.rx ++ [s.nextByte w.curReg k] }).atPhase
          (.gap k))
      have ht : recvBytes k (n + 2) s = recvBytes (k + 1) (n + 1) t := by
        rw [recvBytes, hb, andThen_next, State.atPhase_atPhase,
          writeBitLow_atPhase false (u := u) _ (by simpa using h) (by simp [hp, pins_readByte]), State.emits_setWork,
          State.emits_emits]
        exact nofun
      have hgap : t.dev.bus = .answer (w.curReg.toNat + (k + 1)) 0 := by
        simp only [t, State.atPhase_dev, State.setWork_dev]
        exact State.emits_gap_bus (s := s.answered 8) hp hbus _
      obtain ⟨q, x, hr⟩ := ih (k + 1) t false
        { w with shift := s.nextByte w.curReg k, rx := w.rx ++ [s.nextByte w.curReg k] } (by simpa [t] using h)
        (by simp [t, hp, pins_readByte]) (by simp [t]) hgap (by omega)
      refine ⟨q, x, ht.trans (hr.trans ?_)⟩
      have hby : t.bytesFrom w.curReg (k + 1) (n + 1) = (s.answered 8).bytesFrom w.curReg (k + 1) (n + 1) := by
        simp only [State.bytesFrom]
        apply List.map_congr_left
        intro m _
        rw [State.presentedBits_congr (s := s.answered 8) (by simp [t]) (by simp [t]) (by simp [t])]
      have hne : ∀ b : Byte, readBodyEvents (b :: (s.answered 8).bytesFrom w.curReg (k + 1) (n + 1)) =
          readByteEvents b ++ writeBitEvents false ++ clockLowEvents ++
            readBodyEvents ((s.answered 8).bytesFrom w.curReg (k + 1) (n + 1)) := by
        intro b
        rw [State.bytesFrom_succ]
        exact readBodyEvents_cons _ _ _
      rw [hby, State.bytesFrom_succ s w.curReg k (n + 1), hne]
      simp only [t, State.answered_atPhase, State.answered_setWork, State.emits_atPhase, State.emits_setWork,
        ← State.emits_answered, State.answered_answered, State.emits_emits, State.setWork_setWork,
        State.setWork_atPhase, State.atPhase_atPhase]
      have h8 : 8 + 8 * (n + 1) = 8 * (n + 1 + 1) := by omega
      rw [h8]
      simp

theorem pins_readBody (u : Bit) (rx : List Byte) (hb : rx ≠ []) :
    (Pins.between u).afterAll (readBodyEvents rx) = Pins.written true := by
  induction rx generalizing u with
  | nil => exact absurd rfl hb
  | cons b rx ih =>
    cases rx with
    | nil => rw [readBodyEvents, Pins.afterAll_append, pins_readByte, pins_writeBit]
    | cons c cs =>
      rw [readBodyEvents_cons, Pins.afterAll_append, Pins.afterAll_append, Pins.afterAll_append, pins_readByte,
        pins_writeBit, pins_clockLow, ih _ (by simp)]

/-- A read burst leaves the pins idle (R26). -/
theorem pins_readFrame (a : RegIdx) (n : Nat) (rx : List Byte) (hb : rx ≠ []) :
    Pins.idle.afterAll (Frame.read a n rx).events = Pins.idle := by
  rw [Frame.events, Pins.afterAll_append, pins_header, pins_readBody _ _ hb]
  rfl

theorem Dev.watch_readBody (m : RegMap) (u : Bit) (n : Nat) (d : Dev) (a : Nat) (rx : List Byte) :
    ({ d with bus := .answer a 0 } : Dev).watch m (Pins.between u) n (readBodyEvents rx) =
      { d with bus := .answer (a + rx.length) 0 } := by
  induction rx generalizing u n a with
  | nil => rfl
  | cons b rx ih =>
    cases rx with
    | nil =>
      rw [readBodyEvents, Dev.watch_append, Dev.watch_readByte, pins_readByte, Dev.watch_writeBit, Dev.pulse_answered]
      rfl
    | cons c cs =>
      have hn : a + 1 + (c :: cs).length = a + (b :: c :: cs).length := by simp only [List.length_cons]; omega
      rw [readBodyEvents_cons, List.append_assoc (readByteEvents b), Dev.watch_append, Dev.watch_gap,
        Pins.afterAll_append, pins_readByte, Pins.afterAll_append, pins_writeBit, pins_clockLow, ih, hn]

/-- A whole read burst does to the reference target what `Dev.apply` says, wherever it was before (R62, R64). -/
theorem Dev.watch_readFrame (m : RegMap) (n : Nat) (d : Dev) (a : RegIdx) (rx : List Byte) :
    d.watch m Pins.idle n (Frame.read a rx.length rx).events = d.apply m (.read a rx.length rx) := by
  rw [Frame.events, Dev.watch_append, Dev.watch_header, pins_header]
  simp only [if_true]
  rw [Dev.watch_readBody]
  rfl

/-- A read burst from a ready state (R117, R78). -/
theorem recvFrame_eq (a : RegIdx) (n : Nat) (s : State) (h : s.ready) (hn : 1 ≤ n) :
    recvFrame a n s = .next (s.presented a n, s.heard a n) := by
  obtain ⟨ho, hp, hq⟩ := h
  rw [recvFrame, if_neg (by simp [hq])]
  let w : Burst := { curReg := a, curDir := true, tx := [], count := n, rx := [], shift := 0 }
  let t := s.setWork w
  have hto : t.link = .opened := ho
  have htp : t.pins = Pins.idle := hp
  have hby : s.bytesFrom a 0 n = s.presented a n := by simp [State.bytesFrom, State.presented]
  have hlen : (s.presented a n).length = n := by simp [State.presented]
  have hne : s.presented a n ≠ [] := by
    intro hc
    rw [hc] at hlen
    simp at hlen
    omega
  have hbus : ((t.emits (headerEvents a true)).atPhase .dir).dev.bus = .answer (w.curReg.toNat + 0) 0 := by
    change (t.emits (headerEvents a true)).dev.bus = _
    rw [State.emits_dev, htp, Dev.watch_header]
    rfl
  obtain ⟨p, x, hr⟩ := recvBytes_eq 0 n ((t.emits (headerEvents a true)).atPhase .dir) true w (by simpa using hto)
    (by simp [htp]) (by simp [t]) hbus hn
  have hby' : ((t.emits (headerEvents a true)).atPhase .dir).bytesFrom w.curReg 0 n = s.presented a n := by
    rw [← hby]
    simp only [State.bytesFrom]
    apply List.map_congr_left
    intro m _
    rw [State.presentedBits_congr (s := s) (by simp [t]) (by simp [t]) (by simp [t])]
  rw [hby'] at hr
  have hh := sendHeader_eq a true t hto htp
  simp only [t, State.answered_atPhase, State.emits_atPhase, ← State.emits_answered, State.answered_setWork,
    State.emits_setWork, State.emits_emits, State.setWork_atPhase, State.setWork_setWork, State.atPhase_atPhase] at hr hh
  let z := ((s.answered (8 * n)).emits (headerEvents a true ++ readBodyEvents (s.presented a n))).setWork
    { w with shift := x, rx := w.rx ++ s.presented a n }
  have hend := endBurst_eq z true (by simp [z, hp, pins_readBody _ _ hne])
  have hfin : z.emits (endBurstEvents true) = z := by simp [endBurstEvents]
  rw [hfin] at hend
  have hrec : (z.atPhase .endMark).received = s.presented a n := by simp [State.received, z, w]
  change andThen (sendHeader a true (s.setWork w)) _ = _
  rw [hh, andThen_next, hr, andThen_next, State.atPhase_atPhase]
  change andThen (endBurst (z.atPhase .endMark)) _ = _
  rw [hend, andThen_next, hrec, State.complete_atPhase]
  have he : (s.answered (8 * n)).emits (headerEvents a true ++ readBodyEvents (s.presented a n)) =
      { (s.answered (8 * n)).observe (Frame.read a n (s.presented a n)).events with
        dev := s.dev.apply s.map (s.readFrame a n) } :=
    State.emits_of_pins _ _ _ (by rw [State.answered_pins, hp]; exact pins_readFrame a n _ hne)
      (by
        have := Dev.watch_readFrame s.map s.trace.length s.dev a (s.presented a n)
        rw [hlen] at this
        rw [State.answered_pins, hp]
        exact this)
  simp only [z, he]
  rfl

end Sys2Proof.Machine
end

