-- ==== Sys2Proof/Laws/Session.lean ====
section
/-! SUPPORT. The shared operations of the Session, once each: what a command made of bursts does from a ready state. -/

namespace Sys2Proof.Machine

/-! ## Bursts keep the controller ready -/

theorem State.sent_ready {s : State} (f : Frame) (h : s.ready) : (s.sent f).ready := ⟨h.1, h.2.1, rfl⟩

theorem State.heard_ready {s : State} (a : RegIdx) (n : Nat) (h : s.ready) : (s.heard a n).ready := ⟨h.1, h.2.1, rfl⟩

theorem State.withSession_ready {s : State} (x : Session) (h : s.ready) : (s.withSession x).ready := h

theorem State.sentAll_ready {s : State} (fs : List Frame) (h : s.ready) : (s.sentAll fs).ready := by
  unfold State.sentAll
  induction fs generalizing s with
  | nil => exact h
  | cons f fs ih => exact ih (State.sent_ready f h)

@[simp] theorem State.sentAll_nil (s : State) : s.sentAll [] = s := rfl
@[simp] theorem State.sentAll_cons (s : State) (f : Frame) (fs : List Frame) :
    s.sentAll (f :: fs) = (s.sent f).sentAll fs := rfl
theorem State.sentAll_append (s : State) (fs gs : List Frame) : s.sentAll (fs ++ gs) = (s.sentAll fs).sentAll gs := by
  simp [State.sentAll]

/-- A part of the state that one burst leaves alone, any number of bursts leave alone. -/
theorem State.sentAll_keeps {α : Type} (g : State → α) (hg : ∀ s f, g (s.sent f) = g s) (s : State)
    (fs : List Frame) : g (s.sentAll fs) = g s := by
  induction fs generalizing s with
  | nil => rfl
  | cons f fs ih => rw [State.sentAll_cons, ih, hg]

@[simp] theorem State.sentAll_map (s : State) (fs : List Frame) : (s.sentAll fs).map = s.map :=
  State.sentAll_keeps State.map (fun _ _ => rfl) s fs
@[simp] theorem State.sentAll_port (s : State) (fs : List Frame) : (s.sentAll fs).port = s.port :=
  State.sentAll_keeps State.port (fun _ _ => rfl) s fs
@[simp] theorem State.sentAll_cfg (s : State) (fs : List Frame) : (s.sentAll fs).cfg = s.cfg :=
  State.sentAll_keeps State.cfg (fun _ _ => rfl) s fs
@[simp] theorem State.sentAll_link (s : State) (fs : List Frame) : (s.sentAll fs).link = s.link :=
  State.sentAll_keeps State.link (fun _ _ => rfl) s fs
@[simp] theorem State.sentAll_pins (s : State) (fs : List Frame) : (s.sentAll fs).pins = s.pins :=
  State.sentAll_keeps State.pins (fun _ _ => rfl) s fs
@[simp] theorem State.sentAll_session (s : State) (fs : List Frame) : (s.sentAll fs).session = s.session :=
  State.sentAll_keeps State.session (fun _ _ => rfl) s fs
@[simp] theorem State.sentAll_responses (s : State) (fs : List Frame) : (s.sentAll fs).responses = s.responses :=
  State.sentAll_keeps State.responses (fun _ _ => rfl) s fs
@[simp] theorem State.sentAll_ret (s : State) (fs : List Frame) : (s.sentAll fs).ret = s.ret :=
  State.sentAll_keeps State.ret (fun _ _ => rfl) s fs
@[simp] theorem State.sentAll_target (s : State) (fs : List Frame) : (s.sentAll fs).target = s.target :=
  State.sentAll_keeps State.target (fun _ _ => rfl) s fs
@[simp] theorem State.sentAll_senses (s : State) (fs : List Frame) : (s.sentAll fs).senses = s.senses :=
  State.sentAll_keeps State.senses (fun _ _ => rfl) s fs
@[simp] theorem State.sentAll_delay (s : State) (fs : List Frame) : (s.sentAll fs).delay = s.delay :=
  State.sentAll_keeps State.delay (fun _ _ => rfl) s fs
@[simp] theorem State.sentAll_dev_r (s : State) (fs : List Frame) : (s.sentAll fs).dev.r = s.dev.r :=
  State.sentAll_keeps (fun s => s.dev.r) (fun s f => Dev.apply_r s.map s.dev f) s fs
@[simp] theorem State.sentAll_frames (s : State) (fs : List Frame) : (s.sentAll fs).frames = s.frames ++ fs := by
  induction fs generalizing s with
  | nil => simp
  | cons f fs ih => simp [ih]
@[simp] theorem State.sentAll_trace (s : State) (fs : List Frame) :
    (s.sentAll fs).trace = s.trace ++ fs.flatMap Frame.events := by
  induction fs generalizing s with
  | nil => simp
  | cons f fs ih => simp [ih]

theorem State.withSession_sentAll (s : State) (x : Session) (fs : List Frame) :
    (s.withSession x).sentAll fs = (s.sentAll fs).withSession x := by
  induction fs generalizing s with
  | nil => rfl
  | cons f fs ih => exact ih (s.sent f)

/-! ## Commands that are one burst -/

theorem memWrite_ok {s : State} (a : Int) (bs : List Byte) (h : s.ready) (hc : checkWrite a bs = none) :
    memWrite a bs s = .next ((s.sent (.write (regIdx a) bs)).respond (.ok .unit)) := by
  have hb : bs ≠ [] := by
    intro hb
    simp only [checkWrite, hb] at hc
    split at hc <;> simp at hc
  simp [memWrite, hc, sendFrame_eq _ bs s h hb]

theorem memWrite_raise (s : State) (a : Int) (bs : List Byte) (c : Cause) (hc : checkWrite a bs = some c) :
    memWrite a bs s = .next (s.respond (.error c)) := by
  simp [memWrite, hc, raise]

theorem checkRead_none {a n : Int} (hc : checkRead a n = none) : 1 ≤ n := by
  simp only [checkRead] at hc
  split at hc
  · simp at hc
  · split at hc
    · simp at hc
    · omega

theorem memRead_ok {s : State} (a n : Int) (f : List Byte → Value) (h : s.ready) (hc : checkRead a n = none) :
    memRead a n f s =
      .next ((s.heard (regIdx a) n.toNat).respond (.ok (f (s.presented (regIdx a) n.toNat)))) := by
  have := checkRead_none hc
  simp [memRead, hc, recvFrame_eq _ n.toNat s h (by omega)]

theorem memRead_raise (s : State) (a n : Int) (f : List Byte → Value) (c : Cause) (hc : checkRead a n = some c) :
    memRead a n f s = .next (s.respond (.error c)) := by
  simp [memRead, hc, raise]

/-- A configured index passes the index check: it has seven bits (R8). -/
@[simp] theorem registerOk_toNat (a : RegIdx) : registerOk a.toNat = true := by
  have := a.isLt
  simp [registerOk]
  omega

@[simp] theorem regIdx_toNat (a : RegIdx) : regIdx a.toNat = a := by simp [regIdx]

theorem checkWrite_configured (a : RegIdx) (bs : List Byte) :
    checkWrite a.toNat bs = if bs = [] then some .emptyBurst else none := by
  simp [checkWrite]

theorem checkRead_configured (a : RegIdx) (n : Int) :
    checkRead a.toNat n = if n < 1 then some .emptyBurst else none := by
  simp [checkRead]

/-! ## The status read, the replay, the control write -/

theorem statusRead_eq {s : State} (h : s.ready) : statusRead s = .next (s.statusByte, s.afterStatus) := by
  simp [statusRead, recvFrame_eq _ 1 s h (Nat.le_refl 1), State.statusByte, State.afterStatus]

theorem sendAll_eq {s : State} (ws : List (RegIdx × Byte)) (h : s.ready) :
    sendAll ws s = .next (s.sentAll (ws.map fun p => .write p.1 [p.2])) := by
  induction ws generalizing s with
  | nil => rfl
  | cons p ws ih =>
    simp only [sendAll, sendFrame_eq p.1 [p.2] s h (by simp), andThen_next, ih (State.sent_ready _ h)]
    rfl

theorem writeCtl_eq {s : State} (h : s.ready) :
    writeCtl s = .next ((s.sent (.write s.map.wBrkCtl [s.session.packCtl])).respond (.ok .unit)) := by
  simp [writeCtl, sendFrame_eq _ [s.session.packCtl] s h (by simp)]

theorem storeByte_eq {s : State} (a : RegIdx) (cached new : Byte) (update : Session → Session) (h : s.ready) :
    storeByte a cached new update s = .next
      (if new = cached then s else (s.sent (.write a [new])).withSession (update s.session)) := by
  unfold storeByte
  split
  · rfl
  · simp [sendFrame_eq a [new] s h (by simp)]

end Sys2Proof.Machine
end

