-- ==== Sys2Proof/Laws/Exec.lean ====
section
/-! SUPPORT. What a command can do, said once: when a burst answers a next state it started from a ready controller and
is the closed form; a host command is a rejection, the opening, the closing, or a run of bursts. -/

namespace Sys2Proof.Machine

/-! ## Bursts, from the answer back -/

/-- START runs only from idle lines of an open Link (R91). -/
theorem start_next {s t : State} (h : start s = .next t) : s.link = .opened ∧ s.pins = Pins.idle := by
  unfold start at h
  split at h
  · rename_i hc
    obtain ⟨h1, h2, h3, h4⟩ := hc
    exact ⟨h1, by cases hp : s.pins; simp_all [Pins.idle]⟩
  · cases h

theorem sendHeader_next {a : RegIdx} {dir : Bit} {s t : State} (h : sendHeader a dir s = .next t) :
    s.link = .opened ∧ s.pins = Pins.idle := by
  obtain ⟨u, hu, -⟩ := andThen_eq_next h
  have := start_next hu
  exact this

/-- A write burst that completes began on a ready controller, had a payload, and is the closed form (R115). -/
theorem sendFrame_next {a : RegIdx} {bs : List Byte} {s t : State} (h : sendFrame a bs s = .next t) :
    s.ready ∧ bs ≠ [] ∧ t = s.sent (.write a bs) := by
  have h0 := h
  unfold sendFrame at h
  split at h
  · cases h
  · rename_i hq
    obtain ⟨u, hu, h⟩ := andThen_eq_next h
    obtain ⟨h1, h2⟩ := sendHeader_next hu
    replace h2 : s.pins = Pins.idle := h2
    have hr : s.ready := ⟨h1, h2, Decidable.not_not.mp hq⟩
    by_cases hb : bs = []
    · exfalso
      subst hb
      rw [sendHeader_eq a false _ h1 h2] at hu
      cases hu
      simp [sendBytes, endBurst, h2, Pins.between] at h
    · rw [sendFrame_eq a bs s hr hb] at h0
      cases h0
      exact ⟨hr, hb, rfl⟩

/-- A read burst that completes began on a ready controller, asked for at least one byte, and is the closed form
(R117). -/
theorem recvFrame_next {a : RegIdx} {n : Nat} {s t : State} {rx : List Byte}
    (h : recvFrame a n s = .next (rx, t)) : s.ready ∧ 1 ≤ n ∧ rx = s.presented a n ∧ t = s.heard a n := by
  have h0 := h
  unfold recvFrame at h
  split at h
  · cases h
  · rename_i hq
    obtain ⟨u, hu, h⟩ := andThen_eq_next h
    obtain ⟨h1, h2⟩ := sendHeader_next hu
    replace h2 : s.pins = Pins.idle := h2
    have hr : s.ready := ⟨h1, h2, Decidable.not_not.mp hq⟩
    by_cases hn : 1 ≤ n
    · rw [recvFrame_eq a n s hr hn] at h0
      cases h0
      exact ⟨hr, hn, rfl, rfl⟩
    · exfalso
      have : n = 0 := by omega
      subst this
      rw [sendHeader_eq a true _ h1 h2] at hu
      cases hu
      simp [recvBytes, endBurst, h2, Pins.between] at h

theorem statusRead_next {s t : State} {b : Byte} (h : statusRead s = .next (b, t)) :
    s.ready ∧ b = s.statusByte ∧ t = s.afterStatus := by
  obtain ⟨⟨rx, u⟩, hu, h⟩ := andThen_eq_next h
  obtain ⟨hr, -, rfl, rfl⟩ := recvFrame_next hu
  cases h
  exact ⟨hr, rfl, rfl⟩

/-! ## Runs of bursts -/

/-- From `s` to `t` by completed bursts, each from a ready controller, and updates of the Session. -/
inductive Bursts : State → State → Prop where
  | refl (s : State) : Bursts s s
  | sent {s t : State} (a : RegIdx) (bs : List Byte) (hr : s.ready) (hb : bs ≠ []) :
      Bursts (s.sent (.write a bs)) t → Bursts s t
  | heard {s t : State} (a : RegIdx) (n : Nat) (hr : s.ready) (hn : 1 ≤ n) : Bursts (s.heard a n) t → Bursts s t
  | session {s t : State} (x : Session) : Bursts (s.withSession x) t → Bursts s t

theorem Bursts.trans {s t u : State} (h : Bursts s t) (k : Bursts t u) : Bursts s u := by
  induction h with
  | refl => exact k
  | sent a bs hr hb _ ih => exact .sent a bs hr hb (ih k)
  | heard a n hr hn _ ih => exact .heard a n hr hn (ih k)
  | session x _ ih => exact .session x (ih k)

/-- What a host command made of bursts does when it answers a next state: it is rejected with nothing changed, or it runs
its bursts and answers Ok. -/
def BurstCommand (s t : State) : Prop :=
  (∃ c, t = s.respond (.error c)) ∨ ∃ u v, Bursts s u ∧ t = u.respond (.ok v)

theorem sendFrame_bursts {a : RegIdx} {bs : List Byte} {s t : State} (h : sendFrame a bs s = .next t) : Bursts s t := by
  obtain ⟨hr, hb, rfl⟩ := sendFrame_next h
  exact .sent a bs hr hb (.refl _)

theorem recvFrame_bursts {a : RegIdx} {n : Nat} {s : State} {p : List Byte × State}
    (h : recvFrame a n s = .next p) : Bursts s p.2 := by
  obtain ⟨hr, hn, -, ht⟩ := recvFrame_next (rx := p.1) (t := p.2) h
  rw [ht]
  exact .heard a n hr hn (.refl _)

theorem statusRead_bursts {s : State} {p : Byte × State} (h : statusRead s = .next p) : Bursts s p.2 := by
  obtain ⟨q, hq, h⟩ := andThen_eq_next h
  cases h
  exact recvFrame_bursts hq

theorem memWrite_command {a : Int} {bs : List Byte} {s t : State} (h : memWrite a bs s = .next t) :
    BurstCommand s t := by
  unfold memWrite at h
  split at h
  · exact .inl ⟨_, (Host.Outcome.next.inj h).symm⟩
  · obtain ⟨u, hu, h⟩ := andThen_eq_next h
    exact .inr ⟨u, _, sendFrame_bursts hu, (Host.Outcome.next.inj h).symm⟩

theorem memRead_command {a n : Int} {f : List Byte → Value} {s t : State} (h : memRead a n f s = .next t) :
    BurstCommand s t := by
  unfold memRead at h
  split at h
  · exact .inl ⟨_, (Host.Outcome.next.inj h).symm⟩
  · obtain ⟨p, hp, h⟩ := andThen_eq_next h
    exact .inr ⟨p.2, _, recvFrame_bursts hp, (Host.Outcome.next.inj h).symm⟩

theorem sendAll_bursts {ws : List (RegIdx × Byte)} {s t : State} (h : sendAll ws s = .next t) : Bursts s t := by
  induction ws generalizing s with
  | nil => cases h; exact .refl _
  | cons p ws ih =>
    obtain ⟨u, hu, h⟩ := andThen_eq_next h
    exact (sendFrame_bursts hu).trans (ih h)

theorem writeCtl_command {s t : State} (h : writeCtl s = .next t) : ∃ u v, Bursts s u ∧ t = u.respond (.ok v) := by
  obtain ⟨u, hu, h⟩ := andThen_eq_next h
  exact ⟨u, _, sendFrame_bursts hu, (Host.Outcome.next.inj h).symm⟩

theorem storeByte_bursts {a : RegIdx} {cached new : Byte} {update : Session → Session} {s t : State}
    (h : storeByte a cached new update s = .next t) : Bursts s t := by
  unfold storeByte at h
  split at h
  · cases h; exact .refl _
  · obtain ⟨u, hu, h⟩ := andThen_eq_next h
    cases h
    exact (sendFrame_bursts hu).trans (.session _ (.refl _))

theorem storeAddress_bursts {x : SetArgs} {s t : State} (h : storeAddress x s = .next t) : Bursts s t := by
  obtain ⟨u, hu, h⟩ := andThen_eq_next h
  obtain ⟨v, hv, h⟩ := andThen_eq_next h
  refine ((storeByte_bursts hu).trans (storeByte_bursts hv)).trans ?_
  split at h
  · exact storeByte_bursts h
  · cases h; exact .refl _

theorem whenOpen_eq_next {s t : State} {k : Out State} (h : whenOpen s k = .next t) :
    s.link = .opened ∧ k = .next t := by
  unfold whenOpen at h
  split at h
  · exact ⟨‹_›, h⟩
  · cases h

/-! ## Host commands -/

/-- The state after LINK_OPEN with a positive frequency (R90); a ZCL line that was low before gives the target one clock
pulse (R236). -/
def State.linkOpened (s : State) (c d : PinId) (f : Rat) : State :=
  { ({ s with cfg := some { clkPin := c, dataPin := d, fTarget := f, delay := 3 / f } }).observe linkOpenEvents with
    pins := Pins.idle, session := Session.cleared, seq := .idle, work := none, link := .opened,
    responses := s.responses ++ [.ok .unit]
    dev := if Config.undriven s.trace.length then s.dev
           else s.dev.pulse s.map (Config.undriven (s.trace.length + 1)) }

/-- The state after CLOSE (R99); a low clock that it raises is one more pulse to the target, and a role switch at a high
clock may look like a START (log 31). -/
def State.linkClosed (s : State) : State :=
  { s.observe ((if s.pins.role = .sensing then [.setRole .driving] else []) ++ closeEvents) with
    link := .closed, pins := Pins.idle, session := Session.cleared, responses := s.responses ++ [.ok .unit],
    dev := if s.pins.zcl = false then s.dev.pulse s.map s.pins.zdaOut
           else if s.pins.role = .sensing ∧ Config.undriven s.trace.length = true then { s.dev with bus := .address [] }
           else s.dev }

theorem execLinkOpen_eq (c d : PinId) (f : Rat) (s : State) :
    execLinkOpen c d f s =
      if s.link ≠ .unopened then .refused .lifecycle
      else if f ≤ 0 then .next (s.respond (.error .badFrequency))
      else .next (s.linkOpened c d f) := by
  unfold execLinkOpen
  split
  · rfl
  · split
    · rfl
    · simp only [State.emits_eq, State.linkOpened, State.observe, State.respond, State.emit, State.delay,
        linkOpenEvents, timeAfter, Config.delayFactor]
      cases hz : Config.undriven s.trace.length <;>
        simp [State.unacquired, Pins.idle, Pins.after, Dev.watch, Dev.see, hz]

theorem execClose_eq {s : State} (h : s.link = .opened) : execClose s = .next s.linkClosed := by
  unfold execClose
  rw [whenOpen_opened h]
  simp only [State.linkClosed, closeEvents]
  cases hr : s.pins.role with
  | driving =>
    cases hz : s.pins.zcl <;>
    simp [State.emits_eq, State.observe, State.respond, Pins.after, Pins.idle, Dev.watch, Dev.see, hr, hz]
  | sensing =>
    cases hz : s.pins.zcl <;> cases hu : Config.undriven s.trace.length <;>
    simp [State.emits_eq, State.observe, State.respond, Pins.after, Pins.idle, State.emit, State.delay, timeAfter,
      Dev.watch, Dev.see, hz, hu]

theorem execSetBreakpoint_command {n u h : Int} {l : Option Int} {s t : State}
    (hx : execSetBreakpoint n u h l s = .next t) : BurstCommand s t := by
  obtain ⟨-, hx⟩ := whenOpen_eq_next hx
  split at hx
  · exact .inl ⟨_, (Host.Outcome.next.inj hx).symm⟩
  · obtain ⟨v, hv, hx⟩ := andThen_eq_next hx
    obtain ⟨w, r, hw, rfl⟩ := writeCtl_command hx
    exact .inr ⟨w, r, (storeAddress_bursts hv).trans (.session _ hw), rfl⟩

theorem execDisableBreakpoint_command {n : Int} {s t : State} (hx : execDisableBreakpoint n s = .next t) :
    BurstCommand s t := by
  obtain ⟨-, hx⟩ := whenOpen_eq_next hx
  split at hx
  · exact .inl ⟨_, (Host.Outcome.next.inj hx).symm⟩
  · obtain ⟨w, r, hw, rfl⟩ := writeCtl_command hx
    exact .inr ⟨w, r, .session _ hw, rfl⟩

theorem execReadSp_command {s t : State} (hx : execReadSp s = .next t) : BurstCommand s t := by
  obtain ⟨-, hx⟩ := whenOpen_eq_next hx
  obtain ⟨p, hp, hx⟩ := andThen_eq_next hx
  obtain ⟨q, hq, hx⟩ := andThen_eq_next hx
  exact .inr ⟨q.2, _, (statusRead_bursts hp).trans (recvFrame_bursts hq), (Host.Outcome.next.inj hx).symm⟩

theorem execWriteSp_command {bs : List Byte} {s t : State} (hx : execWriteSp bs s = .next t) : BurstCommand s t := by
  obtain ⟨-, hx⟩ := whenOpen_eq_next hx
  split at hx
  · exact .inl ⟨_, (Host.Outcome.next.inj hx).symm⟩
  · obtain ⟨p, hp, hx⟩ := andThen_eq_next hx
    split at hx
    · cases hx
    · obtain ⟨q, hq, hx⟩ := andThen_eq_next hx
      exact .inr ⟨q, _, (statusRead_bursts hp).trans (sendFrame_bursts hq), (Host.Outcome.next.inj hx).symm⟩

theorem execExecuteInstructions_command {ops : List Byte} {s t : State}
    (hx : execExecuteInstructions ops s = .next t) : BurstCommand s t := by
  obtain ⟨-, hx⟩ := whenOpen_eq_next hx
  split at hx
  · exact .inl ⟨_, (Host.Outcome.next.inj hx).symm⟩
  · exact memWrite_command hx

theorem execReset_command {s t : State} (hx : execReset s = .next t) : BurstCommand s t := by
  obtain ⟨-, hx⟩ := whenOpen_eq_next hx
  obtain ⟨u, hu, hx⟩ := andThen_eq_next hx
  exact .inr ⟨u, _, sendAll_bursts hu, (Host.Outcome.next.inj hx).symm⟩

theorem ctlCommand {s t : State} {x : Session} (hx : whenOpen s (writeCtl (s.withSession x)) = .next t) :
    BurstCommand s t := by
  obtain ⟨w, r, hw, rfl⟩ := writeCtl_command (whenOpen_eq_next hx).2
  exact .inr ⟨w, r, .session _ hw, rfl⟩

/-- What a host command can do when it answers a next state (R80, R90, R99, R190). -/
theorem hostCommand_cases {i : Instr} {s t : State} (hi : i.isHostCommand = true) (hx : exec i s = .next t) :
    (∃ c d f, i = .linkOpen c d f ∧ s.link = .unopened ∧
      ((f ≤ 0 ∧ t = s.respond (.error .badFrequency)) ∨ (0 < f ∧ t = s.linkOpened c d f))) ∨
    (i = .close ∧ s.link = .opened ∧ t = s.linkClosed) ∨
    (s.link = .opened ∧ BurstCommand s t) := by
  have hopen : ∀ k, exec i s = whenOpen s k → s.link = .opened := fun k hk => (whenOpen_eq_next (hk ▸ hx)).1
  cases i
  case linkOpen c d f =>
    left
    refine ⟨c, d, f, rfl, ?_⟩
    simp only [exec, execLinkOpen_eq] at hx
    split at hx
    · cases hx
    · rename_i hl
      refine ⟨Decidable.not_not.mp hl, ?_⟩
      split at hx
      · exact .inl ⟨‹_›, (Host.Outcome.next.inj hx).symm⟩
      · exact .inr ⟨not_le.mp ‹_›, (Host.Outcome.next.inj hx).symm⟩
  case close =>
    right; left
    have hl := hopen _ rfl
    rw [exec, execClose_eq hl] at hx
    exact ⟨rfl, hl, (Host.Outcome.next.inj hx).symm⟩
  case getBreakpointState =>
    right; right
    obtain ⟨hl, hx⟩ := whenOpen_eq_next hx
    exact ⟨hl, .inr ⟨s, _, .refl s, (Host.Outcome.next.inj hx).symm⟩⟩
  all_goals first
    | exact absurd hi Bool.false_ne_true
    | exact .inr (.inr ⟨hopen _ rfl, memRead_command (whenOpen_eq_next hx).2⟩)
    | exact .inr (.inr ⟨hopen _ rfl, memWrite_command (whenOpen_eq_next hx).2⟩)
    | exact .inr (.inr ⟨hopen _ rfl, execSetBreakpoint_command hx⟩)
    | exact .inr (.inr ⟨hopen _ rfl, execDisableBreakpoint_command hx⟩)
    | exact .inr (.inr ⟨hopen _ rfl, execReadSp_command hx⟩)
    | exact .inr (.inr ⟨hopen _ rfl, execWriteSp_command hx⟩)
    | exact .inr (.inr ⟨hopen _ rfl, execExecuteInstructions_command hx⟩)
    | exact .inr (.inr ⟨hopen _ rfl, execReset_command hx⟩)
    | exact .inr (.inr ⟨hopen _ rfl, ctlCommand hx⟩)

/-- The instruction of a port entry is a host command (R81). -/
theorem decodeCommand_host {c : Command} {i : Instr} (h : decodeCommand c = .ok i) : i.isHostCommand = true := by
  unfold decodeCommand at h
  split at h
  · cases h
  · rename_i row hrow
    have hm := List.mem_of_find?_eq_some hrow
    split at h
    · rename_i j hj
      cases h
      simp only [portTable, List.mem_cons, List.not_mem_nil, or_false] at hm
      rcases hm with rfl | rfl | rfl | rfl | rfl | rfl | rfl | rfl | rfl | rfl | rfl | rfl | rfl | rfl | rfl | rfl |
        rfl | rfl | rfl | rfl | rfl | rfl | rfl | rfl | rfl <;>
      simp only [PortRow.plain, PortRow.withBytes, PortRow.withInt] at hj <;>
      (split at hj <;> first | (cases hj; rfl) | cases hj)
    · cases h

/-- What a step can do when it answers a next state: wait, answer an unassigned selector, or run a host command. -/
theorem step_cases {s t : State} (h : step s = .next t) :
    t = s ∨
    (∃ rest, t = ({ s with port := rest }).respond (.error .unknownCommand)) ∨
    (s.seq = .idle ∧ ∃ rest i, i.isHostCommand = true ∧ exec i { s with port := rest } = .next t) := by
  unfold step at h
  split at h
  · exact .inl (Host.Outcome.next.inj h).symm
  · rename_i hq
    split at h
    · exact .inl (Host.Outcome.next.inj h).symm
    · rename_i c rest hp
      dsimp only at h
      split at h
      · rename_i i hi
        exact .inr (.inr ⟨Decidable.not_not.mp hq, rest, i, decodeCommand_host hi, h⟩)
      · exact .inr (.inl ⟨rest, (Host.Outcome.next.inj h).symm⟩)
      · cases h

end Sys2Proof.Machine
end

