-- ==== Sys2Proof/Laws/Commands.lean ====
section
/-! SUPPORT. The breakpoint operations in closed form, the internal operations, what runs of bursts keep, and the
induction over steps. -/

namespace Sys2Proof.Machine

/-! ## Operands of the breakpoint operations -/

theorem slotOf_val (i : Fin 4) : slotOf i.val = some i := by revert i; decide

theorem slotOf_none (id : Int) (h : id < 0 ∨ 3 < id) : slotOf id = none := by
  unfold slotOf; repeat' split
  all_goals first | omega | rfl

theorem slotOf_some {id : Int} {i : Fin 4} (h : slotOf id = some i) : id = i.val := by
  unfold slotOf at h
  repeat' split at h
  all_goals simp at h
  all_goals subst h; simpa

theorem byteOk_toNat (v : Byte) : byteOk v.toNat = true := by
  have := v.isLt; simp [byteOk]; omega

theorem byteOf_toNat (v : Byte) : byteOf v.toNat = v := by simp [byteOf]

/-- Valid operands pass the checks of SET_BREAKPOINT (R174). -/
theorem checkSet_ok (i : Fin 4) (u h : Byte) (l : Option Byte) (hl : l = none → i.val < 2) :
    checkSet i.val u.toNat h.toNat (l.map fun v => (v.toNat : Int)) = .ok ⟨i, u, h, l⟩ := by
  simp only [checkSet, slotOf_val, byteOk_toNat, byteOf_toNat]
  rw [if_neg, if_pos]
  · cases l <;> simp [byteOf_toNat]
  · cases l <;> simp [byteOk_toNat]
  · rintro ⟨h1, h2⟩
    exact h2 (hl (by simpa using h1))

/-! ## The breakpoint operations -/

/-- The address writes of SET_BREAKPOINT: the frames of the differing bytes, and the slot as supplied (R174). -/
theorem storeAddress_eq {s : State} (q : SetArgs) (h : s.ready) :
    storeAddress q s = .next ((s.sentAll (addressFrames s.map s.session q)).withSession
      (s.session.setSlot q.slot ⟨q.upper, q.high, q.low.getD (s.session.slot q.slot).low⟩)) := by
  obtain ⟨i, u, hh, l⟩ := q
  have hset : ∀ v : Session, ∀ (x y : Slot), (v.setSlot i x).setSlot i y = v.setSlot i y := by
    intro v x y; simp [Session.setSlot]
  have hget : ∀ v : Session, ∀ (x : Slot), (v.setSlot i x).slot i = x := by
    intro v x; simp [Session.setSlot, Session.slot]
  have hself : ∀ v : Session, v.setSlot i (v.slot i) = v := by
    intro v; simp [Session.setSlot, Session.slot]
  simp only [storeAddress, addressFrames]
  rw [storeByte_eq _ _ _ _ h, andThen_next]
  have e1 : (if u = (s.session.slot i).upper then s
      else (s.sent (.write s.map.wAddrU[i] [u])).withSession (s.session.setUpper i u)) =
      (s.sentAll (if u = (s.session.slot i).upper then [] else [.write s.map.wAddrU[i] [u]])).withSession
        (s.session.setUpper i u) := by
    split
    · rename_i hu
      subst hu
      simp only [State.sentAll_nil]
      show s = s.withSession _
      have : s.session.setUpper i (s.session.slot i).upper = s.session := by
        unfold Session.setUpper; exact hself _
      rw [this]; rfl
    · rfl
  rw [e1]
  generalize hf1 : (if u = (s.session.slot i).upper then [] else [Frame.write s.map.wAddrU[i] [u]]) = F1
  have r1 : ((s.sentAll F1).withSession (s.session.setUpper i u)).ready :=
    State.withSession_ready _ (State.sentAll_ready F1 h)
  rw [storeByte_eq _ _ _ _ r1, andThen_next]
  have e2 : (if hh = (((s.sentAll F1).withSession (s.session.setUpper i u)).session.slot i).high then
      (s.sentAll F1).withSession (s.session.setUpper i u)
      else (((s.sentAll F1).withSession (s.session.setUpper i u)).sent (.write ((s.sentAll F1).withSession (s.session.setUpper i u)).map.wAddrH[i] [hh])).withSession (((s.sentAll F1).withSession (s.session.setUpper i u)).session.setHigh i hh)) =
      (s.sentAll (F1 ++ if hh = (s.session.slot i).high then [] else [.write s.map.wAddrH[i] [hh]])).withSession
        (s.session.setSlot i ⟨u, hh, (s.session.slot i).low⟩) := by
    have hhigh : (((s.sentAll F1).withSession (s.session.setUpper i u)).session.slot i).high = (s.session.slot i).high := by
      simp [State.withSession, Session.setUpper, hget]
    rw [hhigh]
    split
    · rename_i hu
      subst hu
      simp only [List.append_nil]
      rfl
    · rw [State.sentAll_append]
      have : (s.session.setUpper i u).setHigh i hh = s.session.setSlot i ⟨u, hh, (s.session.slot i).low⟩ := by
        simp [Session.setHigh, Session.setUpper, hset, hget]
      simp only [State.withSession_session, this, State.withSession_map, State.sentAll_map]
      rfl
  rw [e2]
  generalize hf2 : (F1 ++ if hh = (s.session.slot i).high then [] else [Frame.write s.map.wAddrH[i] [hh]]) = F2
  cases l with
  | none => simp
  | some v =>
    dsimp only
    rw [storeByte_eq _ _ _ _ (State.withSession_ready _ (State.sentAll_ready F2 h))]
    have hlow : (((s.sentAll F2).withSession (s.session.setSlot i ⟨u, hh, (s.session.slot i).low⟩)).session.slot i).low = (s.session.slot i).low := by
      simp [hget]
    rw [hlow]
    split
    · rename_i hu
      subst hu
      simp
    · rw [State.sentAll_append]
      have : (s.session.setSlot i ⟨u, hh, (s.session.slot i).low⟩).setLow i v = s.session.setSlot i ⟨u, hh, v⟩ := by
        simp [Session.setLow, hset, hget]
      simp only [State.withSession_session, this, State.withSession_map, State.sentAll_map]
      rfl

theorem State.withSession_sent (s : State) (x : Session) (f : Frame) :
    (s.sent f).withSession x = (s.withSession x).sent f := rfl

/-- SET_BREAKPOINT after validation, from a ready controller (R174). -/
theorem execSetBreakpoint_ok {s : State} {n u h : Int} {l : Option Int} {q : SetArgs} (hr : s.ready)
    (hc : checkSet n u h l = .ok q) :
    execSetBreakpoint n u h l s = .next (((s.sentAll (addressFrames s.map s.session q ++
      [.write s.map.wBrkCtl [(s.session.afterSet q).packCtl]])).withSession (s.session.afterSet q)).respond (.ok .unit)) := by
  simp only [execSetBreakpoint, whenOpen_opened hr.1, hc, storeAddress_eq q hr, andThen_next]
  rw [writeCtl_eq (State.withSession_ready _ (State.withSession_ready _ (State.sentAll_ready _ hr)))]
  rw [State.sentAll_append]
  simp only [State.withSession_session, State.withSession_map, State.sentAll_map]
  rw [← State.withSession_sent, ← State.withSession_sent]
  rfl

/-- A control write that completes began on a ready controller (R171). -/
theorem writeCtl_next {s t : State} (h : writeCtl s = .next t) : s.ready ∧ t = (s.sent (.write s.map.wBrkCtl [s.session.packCtl])).respond (.ok .unit) := by
  obtain ⟨u, hu, h⟩ := andThen_eq_next h
  obtain ⟨h1, -, rfl⟩ := sendFrame_next hu
  exact ⟨h1, (Host.Outcome.next.inj h).symm⟩

/-! ## What runs of bursts keep -/

/-- A part of the state that a burst and an update of the Session leave alone, a run of bursts leaves alone. -/
theorem Bursts.keeps {α : Type} (g : State → α) (h1 : ∀ s f, g (s.sent f) = g s) (h2 : ∀ s a n, g (s.heard a n) = g s)
    (h3 : ∀ s x, g (s.withSession x) = g s) {s t : State} (h : Bursts s t) : g t = g s := by
  induction h with
  | refl => rfl
  | sent a bs _ _ _ ih => rw [ih, h1]
  | heard a n _ _ _ ih => rw [ih, h2]
  | session x _ ih => rw [ih, h3]

theorem Bursts.responses {s t : State} (h : Bursts s t) : t.responses = s.responses :=
  h.keeps State.responses (fun _ _ => rfl) (fun _ _ _ => rfl) (fun _ _ => rfl)

/-- Bursts only append frames. -/
theorem Bursts.frames {s t : State} (h : Bursts s t) : ∃ fs, t.frames = s.frames ++ fs := by
  induction h with
  | refl => exact ⟨[], by simp⟩
  | sent a bs _ _ _ ih => obtain ⟨fs, h⟩ := ih; exact ⟨.write a bs :: fs, by rw [h]; simp⟩
  | @heard s _ a n _ _ _ ih => obtain ⟨fs, h⟩ := ih; exact ⟨s.readFrame a n :: fs, by rw [h]; simp⟩
  | session x _ ih => exact ih

theorem Bursts.link {s t : State} (h : Bursts s t) : t.link = s.link :=
  h.keeps State.link (fun _ _ => rfl) (fun _ _ _ => rfl) (fun _ _ => rfl)

theorem Bursts.map {s t : State} (h : Bursts s t) : t.map = s.map :=
  h.keeps State.map (fun _ _ => rfl) (fun _ _ _ => rfl) (fun _ _ => rfl)

theorem Bursts.cfg {s t : State} (h : Bursts s t) : t.cfg = s.cfg :=
  h.keeps State.cfg (fun _ _ => rfl) (fun _ _ _ => rfl) (fun _ _ => rfl)

theorem Bursts.pins {s t : State} (h : Bursts s t) : t.pins = s.pins :=
  h.keeps State.pins (fun _ _ => rfl) (fun _ _ _ => rfl) (fun _ _ => rfl)

theorem Bursts.port {s t : State} (h : Bursts s t) : t.port = s.port :=
  h.keeps State.port (fun _ _ => rfl) (fun _ _ _ => rfl) (fun _ _ => rfl)

theorem Bursts.ret {s t : State} (h : Bursts s t) : t.ret = s.ret :=
  h.keeps State.ret (fun _ _ => rfl) (fun _ _ _ => rfl) (fun _ _ => rfl)

/-- A run of bursts that ends ready began ready. -/
theorem Bursts.ready_of {s t : State} (h : Bursts s t) (ht : t.ready) : s.ready := by
  induction h with
  | refl => exact ht
  | sent _ _ hr _ _ _ => exact hr
  | heard _ _ hr _ _ _ => exact hr
  | session x _ ih => exact ih ht

/-- SET_BREAKPOINT that answers a next state: rejected, or its whole effect from a ready controller. -/
theorem execSetBreakpoint_next {n u h : Int} {l : Option Int} {s t : State} (hx : execSetBreakpoint n u h l s = .next t) :
    s.link = .opened ∧ ((∃ c, checkSet n u h l = .error c ∧ t = s.respond (.error c)) ∨ ∃ q, checkSet n u h l = .ok q ∧ s.ready ∧
      t = ((s.sentAll (addressFrames s.map s.session q ++
      [.write s.map.wBrkCtl [(s.session.afterSet q).packCtl]])).withSession (s.session.afterSet q)).respond (.ok .unit)) := by
  obtain ⟨ho, hx'⟩ := whenOpen_eq_next hx
  refine ⟨ho, ?_⟩
  split at hx'
  · rename_i c hc
    exact .inl ⟨c, hc, (Host.Outcome.next.inj hx').symm⟩
  · rename_i q hq
    obtain ⟨v, hv, hx'⟩ := andThen_eq_next hx'
    obtain ⟨w, hw, hx'⟩ := andThen_eq_next hx'
    obtain ⟨hr, -, -⟩ := sendFrame_next hw
    have hrs : s.ready := (storeAddress_bursts hv).ready_of hr
    refine .inr ⟨q, hq, hrs, ?_⟩
    rw [execSetBreakpoint_ok hrs hq] at hx
    exact (Host.Outcome.next.inj hx).symm

/-! ## Internal operations and steps -/

/-- What an internal operation can do when it answers a next state. -/
theorem internal_cases {i : Instr} {s t : State} (hi : i.isHostCommand = false) (hx : exec i s = .next t) :
    (∃ c, t = s.returnUp (.error c)) ∨ (∃ u v, Bursts s u ∧ t = u.returnUp (.ok v)) ∨ (∃ es, t = s.emits es) ∨
    (∃ es v fs, t = (((s.emits es).answered 1).emits (.sense v :: fs)).returnUp (.ok (.bit v))) := by
  cases i <;> first | exact absurd hi.symm Bool.false_ne_true | skip
  case start =>
    simp only [exec, execStart, start] at hx
    split at hx
    · exact .inr (.inr (.inl ⟨_, (Host.Outcome.next.inj hx).symm⟩))
    · cases hx
  case writeBit v =>
    simp only [exec, execWriteBit, writeBit] at hx
    split at hx
    · exact .inr (.inr (.inl ⟨_, (Host.Outcome.next.inj hx).symm⟩))
    · cases hx
  case clockLow =>
    simp only [exec, execClockLow, clockLow] at hx
    split at hx
    · exact .inr (.inr (.inl ⟨_, (Host.Outcome.next.inj hx).symm⟩))
    · cases hx
  case readBit =>
    simp only [exec, execReadBit, readBit] at hx
    split at hx
    · exact .inr (.inr (.inr ⟨_, _, _, (Host.Outcome.next.inj hx).symm⟩))
    · cases hx
  case setDataDirection r =>
    simp only [exec, execSetDataDirection, setDirection] at hx
    obtain ⟨-, hx⟩ := whenOpen_eq_next hx
    split at hx
    · exact .inr (.inr (.inl ⟨[], (Host.Outcome.next.inj hx).symm⟩))
    · exact .inr (.inr (.inl ⟨_, (Host.Outcome.next.inj hx).symm⟩))
  case writeBurst a bs =>
    obtain ⟨-, hx⟩ := whenOpen_eq_next hx
    split at hx
    · exact .inl ⟨_, (Host.Outcome.next.inj hx).symm⟩
    · obtain ⟨u, hu, hx⟩ := andThen_eq_next hx
      exact .inr (.inl ⟨u, _, sendFrame_bursts hu, (Host.Outcome.next.inj hx).symm⟩)
  case readBurst a bs =>
    obtain ⟨-, hx⟩ := whenOpen_eq_next hx
    split at hx
    · exact .inl ⟨_, (Host.Outcome.next.inj hx).symm⟩
    · obtain ⟨u, hu, hx⟩ := andThen_eq_next hx
      exact .inr (.inl ⟨u.2, _, recvFrame_bursts hu, (Host.Outcome.next.inj hx).symm⟩)
  case endBurst =>
    obtain ⟨-, hx⟩ := whenOpen_eq_next hx
    simp only [endBurst] at hx
    split at hx
    · split at hx
      · exact .inr (.inr (.inl ⟨_, (Host.Outcome.next.inj hx).symm⟩))
      · exact .inr (.inr (.inl ⟨[], (Host.Outcome.next.inj hx).symm⟩))
    · cases hx
  case readStatus =>
    obtain ⟨-, hx⟩ := whenOpen_eq_next hx
    obtain ⟨u, hu, hx⟩ := andThen_eq_next hx
    exact .inr (.inl ⟨u.2, _, statusRead_bursts hu, (Host.Outcome.next.inj hx).symm⟩)

/-- Induction over one step: what the port, a response, LINK_OPEN, CLOSE and a run of bursts each keep, a step keeps. -/
theorem step_keeps (P : State → Prop)
    (hport : ∀ s p, P s → P { s with port := p })
    (hresp : ∀ s r, P s → P (s.respond r))
    (hopen : ∀ s c d f, s.seq = .idle → s.link = .unopened → 0 < f → P s → P (s.linkOpened c d f))
    (hclose : ∀ s, s.seq = .idle → s.link = .opened → P s → P s.linkClosed)
    (hb : ∀ s t, s.link = .opened → Bursts s t → P s → P t)
    {s t : State} (hs : P s) (hx : step s = .next t) : P t := by
  rcases step_cases hx with rfl | ⟨rest, rfl⟩ | ⟨hq, rest, i, hi, hx⟩
  · exact hs
  · exact hresp _ _ (hport _ _ hs)
  · rcases hostCommand_cases hi hx with ⟨cc, d, f, rfl, hl, ⟨-, rfl⟩ | ⟨hf, rfl⟩⟩ | ⟨rfl, hl, rfl⟩ | ⟨hl, ⟨c', rfl⟩ | ⟨u, v, hu, rfl⟩⟩
    · exact hresp _ _ (hport _ _ hs)
    · exact hopen _ _ _ _ hq hl hf (hport _ _ hs)
    · exact hclose _ hq hl (hport _ _ hs)
    · exact hresp _ _ (hport _ _ hs)
    · exact hresp _ _ (hb _ _ hl hu (hport _ _ hs))

end Sys2Proof.Machine
end

