-- ==== Sys2Proof/Laws/PerInstr.lean ====
section
/-! SUPPORT. A fact about every instruction as it is written down, one lemma for each constructor: an operation is encoded
at the command port, with a selector, exactly when it is a host command; the nine internal operations have no selector
(R81). -/

namespace Sys2Proof.Laws.HostCommand

/-- The instruction has a selector if and only if it is a host command (R81). -/
def Statement (i : Instr) : Prop := ∀ m : RegMap, i.isHostCommand = true ↔ ∃ c, encode m i = .cmd c

theorem linkOpen (c : PinId) (d : PinId) (f : Rat) : Statement (.linkOpen c d f) :=
  fun _ => ⟨fun _ => ⟨_, rfl⟩, fun _ => rfl⟩
theorem close : Statement .close :=
  fun _ => ⟨fun _ => ⟨_, rfl⟩, fun _ => rfl⟩
theorem readProductId : Statement .readProductId :=
  fun _ => ⟨fun _ => ⟨_, rfl⟩, fun _ => rfl⟩
theorem readProductRevision : Statement .readProductRevision :=
  fun _ => ⟨fun _ => ⟨_, rfl⟩, fun _ => rfl⟩
theorem readMbaseFA : Statement .readMbaseFA :=
  fun _ => ⟨fun _ => ⟨_, rfl⟩, fun _ => rfl⟩
theorem writeMbaseFA (bs : List Byte) : Statement (.writeMbaseFA bs) :=
  fun _ => ⟨fun _ => ⟨_, rfl⟩, fun _ => rfl⟩
theorem readBcuBC : Statement .readBcuBC :=
  fun _ => ⟨fun _ => ⟨_, rfl⟩, fun _ => rfl⟩
theorem writeBcuBC (bs : List Byte) : Statement (.writeBcuBC bs) :=
  fun _ => ⟨fun _ => ⟨_, rfl⟩, fun _ => rfl⟩
theorem readDeuDE : Statement .readDeuDE :=
  fun _ => ⟨fun _ => ⟨_, rfl⟩, fun _ => rfl⟩
theorem writeDeuDE (bs : List Byte) : Statement (.writeDeuDE bs) :=
  fun _ => ⟨fun _ => ⟨_, rfl⟩, fun _ => rfl⟩
theorem readIx : Statement .readIx :=
  fun _ => ⟨fun _ => ⟨_, rfl⟩, fun _ => rfl⟩
theorem writeIx (bs : List Byte) : Statement (.writeIx bs) :=
  fun _ => ⟨fun _ => ⟨_, rfl⟩, fun _ => rfl⟩
theorem readIy : Statement .readIy :=
  fun _ => ⟨fun _ => ⟨_, rfl⟩, fun _ => rfl⟩
theorem writeIy (bs : List Byte) : Statement (.writeIy bs) :=
  fun _ => ⟨fun _ => ⟨_, rfl⟩, fun _ => rfl⟩
theorem readSp : Statement .readSp :=
  fun _ => ⟨fun _ => ⟨_, rfl⟩, fun _ => rfl⟩
theorem writeSp (bs : List Byte) : Statement (.writeSp bs) :=
  fun _ => ⟨fun _ => ⟨_, rfl⟩, fun _ => rfl⟩
theorem readMem (n : Int) : Statement (.readMem n) :=
  fun _ => ⟨fun _ => ⟨_, rfl⟩, fun _ => rfl⟩
theorem writeMem (bs : List Byte) : Statement (.writeMem bs) :=
  fun _ => ⟨fun _ => ⟨_, rfl⟩, fun _ => rfl⟩
theorem executeInstructions (ops : List Byte) : Statement (.executeInstructions ops) :=
  fun _ => ⟨fun _ => ⟨_, rfl⟩, fun _ => rfl⟩
theorem reset : Statement .reset :=
  fun _ => ⟨fun _ => ⟨_, rfl⟩, fun _ => rfl⟩
theorem setBreakpoint (n : Int) (u : Int) (h : Int) (l : Option Int) : Statement (.setBreakpoint n u h l) :=
  fun _ => ⟨fun _ => ⟨_, rfl⟩, fun _ => rfl⟩
theorem disableBreakpoint (n : Int) : Statement (.disableBreakpoint n) :=
  fun _ => ⟨fun _ => ⟨_, rfl⟩, fun _ => rfl⟩
theorem breakNow : Statement .breakNow :=
  fun _ => ⟨fun _ => ⟨_, rfl⟩, fun _ => rfl⟩
theorem continueAfterBreak (b : Bool) : Statement (.continueAfterBreak b) :=
  fun _ => ⟨fun _ => ⟨_, rfl⟩, fun _ => rfl⟩
theorem getBreakpointState : Statement .getBreakpointState :=
  fun _ => ⟨fun _ => ⟨_, rfl⟩, fun _ => rfl⟩
theorem start : Statement .start :=
  fun _ => ⟨fun h => absurd h Bool.false_ne_true, fun ⟨_, h⟩ => nomatch h⟩
theorem writeBit (v : Bit) : Statement (.writeBit v) :=
  fun _ => ⟨fun h => absurd h Bool.false_ne_true, fun ⟨_, h⟩ => nomatch h⟩
theorem clockLow : Statement .clockLow :=
  fun _ => ⟨fun h => absurd h Bool.false_ne_true, fun ⟨_, h⟩ => nomatch h⟩
theorem readBit : Statement .readBit :=
  fun _ => ⟨fun h => absurd h Bool.false_ne_true, fun ⟨_, h⟩ => nomatch h⟩
theorem setDataDirection (r : Role) : Statement (.setDataDirection r) :=
  fun _ => ⟨fun h => absurd h Bool.false_ne_true, fun ⟨_, h⟩ => nomatch h⟩
theorem writeBurst (a : Int) (bs : List Byte) : Statement (.writeBurst a bs) :=
  fun _ => ⟨fun h => absurd h Bool.false_ne_true, fun ⟨_, h⟩ => nomatch h⟩
theorem readBurst (a : Int) (n : Int) : Statement (.readBurst a n) :=
  fun _ => ⟨fun h => absurd h Bool.false_ne_true, fun ⟨_, h⟩ => nomatch h⟩
theorem endBurst : Statement .endBurst :=
  fun _ => ⟨fun h => absurd h Bool.false_ne_true, fun ⟨_, h⟩ => nomatch h⟩
theorem readStatus : Statement .readStatus :=
  fun _ => ⟨fun h => absurd h Bool.false_ne_true, fun ⟨_, h⟩ => nomatch h⟩

end Sys2Proof.Laws.HostCommand
end

