-- ==== Sys2Proof/Tests/Slice0.lean ====
section
/-! SUPPORT. The model's own tests. Expected values are transcribed from spec/95_test_vectors.md (E<n>, V<n>, P<n>) or
written out from the encoding rules R70 to R81; each test is about one step on a small state. Then, for each statement
with hypotheses, a state and operands that meet them. -/

namespace Sys2Proof.Tests

open Sys2Proof Sys2Proof.Machine

/-! ## States -/

/-- The register map of the test vectors: the defaults, `IS_BASE = 0x21`. -/
def map0 : RegMap := Config.defaultMap 0x21

/-- An open, idle controller just after LINK_OPEN 17, 27, 18432000 (V1). -/
def opened : State := { State.reset with
  map := map0
  cfg := some { clkPin := 17, dataPin := 27, fTarget := 18432000, delay := 3 / 18432000 }
  link := .opened
  trace := linkOpenEvents
  elapsed := 3 / 18432000 }

/-- The same, with the answers of the target given as bytes. -/
def hearing (bs : List Byte) : State := { opened with target := .oracle (bs.flatMap byteBits) }

/-- Inside a burst, after a clock fall: ZDA driven, ZCL low. -/
def clockedLow : State := { opened with pins := { zcl := false, zdaOut := false, role := .driving } }

/-- Inside a read burst: ZDA sensed, ZCL low, the target about to answer `v`. -/
def listening (v : Bit) : State := { opened with
  pins := { zcl := false, zdaOut := true, role := .sensing }, target := .oracle [v] }

/-- At the end mark of a burst whose last bit was `v`. -/
def atEnd (v : Bit) : State := { opened with
  pins := { zcl := true, zdaOut := v, role := .driving }, seq := .endMark }

/-- One command waiting at the port. -/
def asked (selector : Byte) (operands : List Operand) : State := { opened with port := [⟨selector, operands⟩] }

/-- After CLOSE. -/
def closed : State := { opened with link := .closed, trace := linkOpenEvents ++ closeEvents }

/-- The session of V21: slot 0 at 0x001234, enabled. -/
def armed : State := { opened with
  session := { Session.cleared with bp := #v[⟨0x00, 0x12, 0x34⟩, ⟨0, 0, 0⟩, ⟨0, 0, 0⟩, ⟨0, 0, 0⟩],
                                    en := #v[true, false, false, false] }
  dev := { w := [(0x00, 0x34), (0x01, 0x12), (0x10, 0x08)], r := [], bus := .waiting } }

/-- The reference target at a place in a burst. -/
def targetAt (s : State) (x : Bus) : State := { s with target := .reference, dev := { s.dev with bus := x } }

/-- What an outcome that goes on leaves in one part of the state. -/
def see {α : Type} (g : State → α) : Out State → Option α
  | .next t => some (g t)
  | .fault _ => none
  | .refused _ => none

/-- The frames, the last response and the last result of an outcome. -/
def heardOf (o : Out State) : Option (List Frame × List Response × Option Response) :=
  see (fun t => (t.frames, t.responses, t.ret)) o

/-- The pin events of an outcome after those of LINK_OPEN. -/
def eventsOf (o : Out State) : Option (List Event) := see (fun t => t.trace.drop 5) o

/-! ## WellFormed (R82) -/

theorem test_wf_register_below : (Instr.writeBurst (-1) [0x00]).wellFormed = false := by decide
theorem test_wf_register_above : (Instr.writeBurst 128 [0x00]).wellFormed = false := by decide
theorem test_wf_read_register_above : (Instr.readBurst 128 1).wellFormed = false := by decide
theorem test_wf_write_empty : (Instr.writeBurst 0 []).wellFormed = false := by decide
theorem test_wf_read_empty : (Instr.readBurst 0 0).wellFormed = false := by decide
theorem test_wf_read_negative : (Instr.readBurst 0 (-3)).wellFormed = false := by decide
theorem test_wf_accepts : (Instr.writeBurst 127 [0x00]).wellFormed = true ∧ (Instr.readBurst 127 1).wellFormed = true := by
  decide

/-! ## Decoding, from the spec's encodings (R81, the encoding column of the opcode table) -/

theorem test_decode_link_selectors :
    decodeTableWord 8 0x00 = some (.linkOpen 0 0 0) ∧ decodeTableWord 8 0x01 = some .close := by decide
theorem test_decode_identification_selectors :
    decodeTableWord 8 0x20 = some .readProductId ∧ decodeTableWord 8 0x21 = some .readProductRevision := by decide
theorem test_decode_group_reads :
    [0x30, 0x32, 0x34, 0x36, 0x38].map (decodeTableWord 8) =
      [some .readMbaseFA, some .readBcuBC, some .readDeuDE, some .readIx, some .readIy] := by decide
theorem test_decode_group_writes :
    [0x31, 0x33, 0x35, 0x37, 0x39].map (decodeTableWord 8) =
      [some (.writeMbaseFA [0]), some (.writeBcuBC [0]), some (.writeDeuDE [0]), some (.writeIx [0]),
        some (.writeIy [0])] := by decide
theorem test_decode_sp_and_memory :
    [0x3A, 0x3B, 0x3C, 0x3D].map (decodeTableWord 8) =
      [some .readSp, some (.writeSp [0, 0]), some (.readMem 0), some (.writeMem [0])] := by decide
theorem test_decode_injection_and_reset :
    [0x40, 0x41].map (decodeTableWord 8) = [some (.executeInstructions [0]), some .reset] := by decide
theorem test_decode_breakpoints :
    [0x50, 0x51, 0x52, 0x53, 0x54].map (decodeTableWord 8) =
      [some (.setBreakpoint 0 0 0 (some 0)), some (.disableBreakpoint 0), some .breakNow,
        some (.continueAfterBreak false), some .getBreakpointState] := by decide
theorem test_decode_unassigned :
    [0x02, 0x1F, 0x22, 0x3E, 0x42, 0x55, 0x7F, 0x80, 0xFF].map (decodeTableWord 8) = List.replicate 9 none := by decide
theorem test_decode_not_a_selector : decodeTableWord 16 0x20 = none ∧ decodeTableWord 8 0x120 = none := by decide
theorem test_decode_operands :
    decodeCommand ⟨0x50, [.int 1, .int 0xAB, .int 0, .optInt none]⟩ = .ok (.setBreakpoint 1 0xAB 0 none) ∧
    decodeCommand ⟨0x53, []⟩ = .ok (.continueAfterBreak false) ∧
    decodeCommand ⟨0x3C, [.bool true]⟩ = .error (.operandTypes 0x3C) := ⟨rfl, rfl, rfl⟩
theorem test_decode_link_primitives :
    decode map0 (.link .start) = .ok .start ∧ decode map0 (.link (.drive true)) = .ok (.writeBit true) ∧
    decode map0 (.link .fall) = .ok .clockLow ∧ decode map0 (.link .sensed) = .ok .readBit ∧
    decode map0 (.link (.turn .sensing)) = .ok (.setDataDirection .sensing) ∧
    decode map0 (.framer .endMark) = .ok .endBurst := ⟨rfl, rfl, rfl, rfl, rfl, rfl⟩

/-- V7: `0100100 0 1 00000001 1 00111110` is WRITE_BURST 0x24, [0x01, 0x3E]. -/
theorem test_decode_write_burst :
    decode map0 (.w ([false, true, false, false, true, false, false, false,
      true, false, false, false, false, false, false, false, true,
      true, false, false, true, true, true, true, true, false].map .drive)) =
      .ok (.writeBurst 0x24 [0x01, 0x3E]) := rfl

/-- V9: `0000011 1 [8 read pulses] 1` is READ_BURST 0x03, 1. -/
theorem test_decode_read_burst :
    decode map0 (.r ([false, false, false, false, false, true, true, true].map .drive ++
      List.replicate 8 .sensed ++ [.drive true])) = .ok (.readBurst 0x03 1) := rfl

/-- `00000111rrrrrrrr1` is READ_STATUS, by the opcode table. -/
theorem test_decode_read_status :
    decode map0 (.session ([false, false, false, false, false, true, true, true].map .drive ++
      List.replicate 8 .sensed ++ [.drive true])) = .ok .readStatus := rfl

/-- A payload that ends inside a byte is no write burst; a separator 0 is none either (R71). -/
theorem test_decode_rejects :
    decode map0 (.w ((List.replicate 8 false ++ [true, true]).map .drive)) = .error .notWriteBurst ∧
    decode map0 (.w ((List.replicate 17 false).map .drive)) = .error .notWriteBurst := ⟨rfl, rfl⟩

/-! ## The Link (V1 to V4) -/

theorem test_linkOpen_events :
    see (fun t => (t.trace, t.link, t.cfg.map (·.delay))) (exec (.linkOpen 17 27 18432000) State.reset) =
      some ([.acquire .zcl, .drive .zcl true, .acquire .zda, .drive .zda true, .sleep], .opened, some (1 / 6144000)) := by
  decide +kernel
theorem test_linkOpen_zero : see (fun t => (t.trace, t.link, t.responses)) (exec (.linkOpen 17 27 0) State.reset) =
    some ([], .unopened, [.error .badFrequency]) := by decide +kernel
theorem test_close : eventsOf (exec .close opened) =
    some [.drive .zcl true, .drive .zda true, .sleep, .release .zcl, .release .zda] := by decide
theorem test_close_ends : exec .close closed = .refused .lifecycle := rfl
theorem test_start : eventsOf (exec .start opened) = some [.drive .zda false, .sleep, .drive .zcl false, .sleep] := by
  decide
theorem test_start_misuse : exec .start clockedLow = .fault (.linkMisuse .startNotIdle) := rfl
theorem test_writeBit : eventsOf (exec (.writeBit false) clockedLow) =
    some [.drive .zda false, .sleep, .drive .zcl true, .sleep] := by decide
theorem test_writeBit_misuse : exec (.writeBit true) (listening true) = .fault (.linkMisuse .writeBitBadState) := rfl
theorem test_clockLow : eventsOf (exec .clockLow opened) = some [.drive .zcl false] := by decide
theorem test_clockLow_misuse : exec .clockLow clockedLow = .fault (.linkMisuse .clockAlreadyLow) := rfl
theorem test_readBit : see (fun t => (t.trace.drop 5, t.ret, t.pins.zcl)) (exec .readBit (listening true)) =
    some ([.drive .zcl true, .sleep, .drive .zcl false, .sense true, .sleep], some (.ok (.bit true)), false) := by decide
theorem test_readBit_misuse : exec .readBit clockedLow = .fault (.linkMisuse .readBitBadState) := rfl
theorem test_setDataDirection : eventsOf (exec (.setDataDirection .sensing) opened) =
    some [.setRole .sensing, .sleep] := by decide
theorem test_setDataDirection_same : eventsOf (exec (.setDataDirection .driving) opened) = some [] := by decide

/-! ## The Framer (V5 to V11) -/

/-- V5: 90 events, the wire string, 37 sleeps. -/
theorem test_writeBurst_trace :
    (eventsOf (exec (.writeBurst 0x10 [0xAA]) opened)).map
      (fun es => (es.length, sleeps es, sampled Pins.idle es)) =
      some (90, 37, [false, false, true, false, false, false, false, false, true,
        true, false, true, false, true, false, true, false]) := by decide +kernel
theorem test_writeBurst_checks_index_first :
    heardOf (exec (.writeBurst 200 []) opened) = some ([], [], some (.error .badRegister)) := by decide
/-- V8: 141 events, 58 sleeps, the bytes in the order received. -/
theorem test_readBurst_trace :
    (see (fun t => ((t.trace.drop 5).length, sleeps (t.trace.drop 5), t.ret))
      (exec (.readBurst 0x00 2) (hearing [0x00, 0x07]))) = some (141, 58, some (.ok (.bytes [0x00, 0x07]))) := by
  decide +kernel
theorem test_readBurst_negative :
    heardOf (exec (.readBurst 0 (-3)) opened) = some ([], [], some (.error .emptyBurst)) := by decide
theorem test_endBurst : eventsOf (exec .endBurst (atEnd false)) = some [.drive .zda true, .sleep] ∧
    eventsOf (exec .endBurst (atEnd true)) = some [] := by decide

/-! ## The reference target (R53, R61 to R64) -/

/-- The rows of R53 that stand behind the register group transfers and the injection. -/
theorem test_defaults :
    (map0.wWrDataL, map0.wWrDataH, map0.wWrDataU, map0.wRwCtl) = (0x13, 0x14, 0x15, 0x16) ∧
    [4, 3, 2, 1, 0].map (fun i : Fin 5 => map0.wIs[i]) = [0x21, 0x22, 0x23, 0x24, 0x25] ∧
    (map0.rRdL, map0.rRdH, map0.rRdU) = (0x10, 0x11, 0x12) := by decide
/-- R64: a START in the middle of a byte begins a new burst; nothing of the old one is stored. -/
theorem test_start_resynchronises :
    see (fun t => (t.dev.w, t.dev.bus)) (exec .start (targetAt opened (.data 0x20 (List.replicate 7 true)))) =
      some ([], .address []) := by decide
/-- R98: with the clock low a role switch is no START. With the clock high it may look like one, or not (R234). -/
theorem test_role_switch_low : see (fun t => t.dev.bus) (exec (.setDataDirection .driving)
    (targetAt (listening true) (.answer 0x03 8))) = some (.answer 0x03 8) := by decide
/-- R64, R61: a whole burst after an abandoned one is stored as if the target had been at rest. -/
theorem test_burst_after_an_abandoned_one :
    see (fun t => t.dev.w) (exec (.writeBurst 0x30 [0x3E]) (targetAt opened (.data 0x20 (List.replicate 7 true)))) =
      some [(0x30, 0x3E)] := by decide +kernel
/-- R62, R64: a read burst of the reference target, which was in another read burst before. -/
theorem test_reference_read :
    see (fun t => t.ret) (exec (.readBurst 0x7F 2) { opened with
      target := .reference, dev := { w := [], r := [(0x7F, 0xA6)], bus := .answer 0x03 5 } }) =
      some (some (.ok (.bytes [0xA6, 0x00]))) := by decide +kernel

/-! ## Registers, memory, injection, reset (V12 to V17) -/

theorem test_readProductId : heardOf (exec .readProductId (hearing [0x12, 0x34])) =
    some ([.read 0x00 2 [0x12, 0x34]], [.ok (.word 0x1234)], none) := by decide +kernel
theorem test_readProductRevision : heardOf (exec .readProductRevision (hearing [0xAA])) =
    some ([.read 0x02 1 [0xAA]], [.ok (.byte 0xAA)], none) := by decide +kernel
theorem test_readStatus : heardOf (exec .readStatus (hearing [0x10])) =
    some ([.read 0x03 1 [0x10]], [], some (.ok (.byte 0x10))) := by decide +kernel
theorem test_readMbaseFA : heardOf (exec .readMbaseFA (hearing [1, 2, 3])) =
    some ([.read 0x10 3 [1, 2, 3]], [.ok (.bytes [1, 2, 3])], none) := by decide +kernel
theorem test_writeMbaseFA : heardOf (exec (.writeMbaseFA [7, 8]) opened) =
    some ([.write 0x13 [7, 8]], [.ok .unit], none) := by decide +kernel
theorem test_readBcuBC : heardOf (exec .readBcuBC (hearing [9, 0, 1])) =
    some ([.read 0x10 3 [9, 0, 1]], [.ok (.bytes [9, 0, 1])], none) := by decide +kernel
theorem test_writeBcuBC : heardOf (exec (.writeBcuBC [0x01]) opened) =
    some ([.write 0x13 [0x01]], [.ok .unit], none) := by decide +kernel
theorem test_readDeuDE : heardOf (exec .readDeuDE (hearing [0xFF, 0, 0x80])) =
    some ([.read 0x10 3 [0xFF, 0, 0x80]], [.ok (.bytes [0xFF, 0, 0x80])], none) := by decide +kernel
theorem test_writeDeuDE_empty : heardOf (exec (.writeDeuDE []) opened) =
    some ([], [.error .emptyBurst], none) := by decide
theorem test_readIx : heardOf (exec .readIx (hearing [0x34, 0x12, 0x00])) =
    some ([.read 0x10 3 [0x34, 0x12, 0x00]], [.ok (.bytes [0x34, 0x12, 0x00])], none) := by decide +kernel
theorem test_writeIx : heardOf (exec (.writeIx [5]) opened) =
    some ([.write 0x13 [5]], [.ok .unit], none) := by decide +kernel
theorem test_readIy : heardOf (exec .readIy (hearing [4, 5, 6])) =
    some ([.read 0x10 3 [4, 5, 6]], [.ok (.bytes [4, 5, 6])], none) := by decide +kernel
theorem test_writeIy : heardOf (exec (.writeIy [0x78, 0x56, 0x00]) opened) =
    some ([.write 0x13 [0x78, 0x56, 0x00]], [.ok .unit], none) := by decide +kernel
theorem test_readSp_adl : heardOf (exec .readSp (hearing [0x10, 0xFE, 0xFF, 0x00])) =
    some ([.read 0x03 1 [0x10], .read 0x10 3 [0xFE, 0xFF, 0x00]], [.ok (.bytes [0xFE, 0xFF, 0x00])], none) := by
  decide +kernel
theorem test_readSp_mask : heardOf (exec .readSp (hearing [0xEF, 0xFE, 0xFF])) =
    some ([.read 0x03 1 [0xEF], .read 0x10 2 [0xFE, 0xFF]], [.ok (.bytes [0xFE, 0xFF])], none) := by decide +kernel
theorem test_writeSp : heardOf (exec (.writeSp [0xFE, 0xFF]) (hearing [0x00])) =
    some ([.read 0x03 1 [0x00], .write 0x13 [0xFE, 0xFF]], [.ok .unit], none) := by decide +kernel
theorem test_writeSp_mismatch : (match exec (.writeSp [0xFE, 0xFF]) (hearing [0x10]) with
    | .refused r => decide (r = .spLengthMismatch (.read 0x03 1 [0x10]) 2)
    | _ => false) = true := by decide +kernel
theorem test_readMem : heardOf (exec (.readMem 4) (hearing [0xF3, 0xC3, 0x00, 0x01])) =
    some ([.read 0x20 4 [0xF3, 0xC3, 0x00, 0x01]], [.ok (.bytes [0xF3, 0xC3, 0x00, 0x01])], none) := by decide +kernel
theorem test_writeMem : heardOf (exec (.writeMem [0x3E, 0x01]) opened) =
    some ([.write 0x30 [0x3E, 0x01]], [.ok .unit], none) := by decide +kernel
/-- E6: reversed order from `IS_BASE + 3` on, and what the reference target holds. -/
theorem test_executeInstructions :
    see (fun t => (t.frames, t.dev.w)) (exec (.executeInstructions [0x3E, 0x01]) opened) =
      some ([.write 0x24 [0x01, 0x3E]], [(0x24, 0x01), (0x25, 0x3E)]) := by decide +kernel
theorem test_executeInstructions_six : heardOf (exec (.executeInstructions [1, 2, 3, 4, 5, 6]) opened) =
    some ([], [.error .tooManyOpcodes], none) := by decide
/-- E7 for one armed slot: the replay in the order upper, high, low, and the control byte last. -/
theorem test_reset :
    see (fun t => (t.frames.take 4, t.frames.length, t.dev.w, t.session == armed.session)) (exec .reset armed) =
      some ([.write 0x11 [0xF0], .write 0x02 [0x00], .write 0x01 [0x12], .write 0x00 [0x34]], 14,
        [(0x00, 0x34), (0x01, 0x12), (0x10, 0x08), (0x11, 0xF0)], true) := by decide +kernel

/-! ## Breakpoints (V18 to V21, E5) -/

theorem test_packCtl :
    packFlags false true false true false true false true = 0xAA ∧
    packFlags true false false false false false false false = 0x01 ∧
    packFlags false false false false false false false true = 0x80 ∧
    packFlags true true true true true true true true = 0xFF := by decide
theorem test_setBreakpoint : heardOf (exec (.setBreakpoint 0 0x00 0x12 (some 0x34)) opened) =
    some ([.write 0x01 [0x12], .write 0x00 [0x34], .write 0x10 [0x08]], [.ok .unit], none) := by decide +kernel
theorem test_setBreakpoint_wildcard : heardOf (exec (.setBreakpoint 1 0 0x80 none) opened) =
    some ([.write 0x05 [0x80], .write 0x10 [0x14]], [.ok .unit], none) := by decide +kernel
theorem test_disableBreakpoint :
    see (fun t => (t.frames, t.session.slot 0)) (exec (.disableBreakpoint 0) armed) =
      some ([.write 0x10 [0x00]], ⟨0x00, 0x12, 0x34⟩) := by decide +kernel
theorem test_disableBreakpoint_bad : heardOf (exec (.disableBreakpoint 4) armed) =
    some ([], [.error .badSlot], none) := by decide
theorem test_breakNow : see (fun t => (t.frames, t.session.inBreak)) (exec .breakNow opened) =
    some ([.write 0x10 [0x80]], true) := by decide +kernel
theorem test_continueAfterBreak : see (fun t => (t.frames, t.session.inBreak)) (exec (.continueAfterBreak true) opened) =
    some ([.write 0x10 [0x01]], true) := by decide +kernel
theorem test_getBreakpointState : see (fun t => t.responses) (exec .getBreakpointState armed) =
    some [.ok (.snapshot ⟨#v[true, false, false, false],
      #v[⟨0x00, 0x12, 0x34⟩, ⟨0, 0, 0⟩, ⟨0, 0, 0⟩, ⟨0, 0, 0⟩], #v[false, false], false⟩)] := by decide

/-! ## Steps (V22, P4) -/

theorem test_step_unknown_selector : heardOf (step (asked 0x7F [])) =
    some ([], [.error .unknownCommand], none) := by decide
theorem test_step_from_reset : step (State.reset.withFetchWord 8 0x41) = .refused .lifecycle := rfl
theorem test_step_first_command : see (fun t => (t.responses, t.port)) (step (State.reset.withFetchWord 8 0x00)) =
    some ([.error .badFrequency], []) := by decide +kernel
theorem test_step_operand_types : step (asked 0x3C [.bool true]) = .refused (.operandTypes 0x3C) := rfl

/-! ## States and operands that meet the hypotheses of the statements -/

theorem witness_ready : opened.ready ∧ armed.ready ∧ (hearing [0x10]).ready := by decide
theorem witness_BitListsRoundTrip : (0 < 2 ^ 0) ∧ (127 < 2 ^ 7) ∧ bitsToNumber [true, true, true, true, true, true, true] = 127 :=
  by decide
theorem witness_DecodeOfEncodeIsTheInstruction :
    (Instr.writeBurst 0 [0xAA]).wellFormed = true ∧ (Instr.writeBurst 127 [0x00]).wellFormed = true ∧
    (Instr.readBurst 0 1).wellFormed = true ∧ (Instr.readBurst 127 300).wellFormed = true := by decide
theorem witness_ParsingTheTraceGivesTheFrames :
    ∀ f ∈ [Frame.write 0x10 [0xAA], .read 0x00 2 [0x00, 0x07], .write 0x7F [0xFF, 0x00]], frameComplete f = true := by decide
theorem witness_WriteBurstOnTheWire : [(0xAA : Byte)] ≠ [] := by decide
theorem witness_ReadBurstOnTheWire : [(0x00 : Byte), 0x07] ≠ [] := by decide
theorem witness_BurstSleepCounts :
    sleeps (Frame.write 0x7F [0xFF]).events = 36 ∧ sleeps (Frame.write 0x10 [0xAA]).events = 37 ∧
    sleeps (Frame.read 0x00 2 [0x00, 0x07]).events = 58 := by decide +kernel
theorem witness_LinkOpenCreatesTheController :
    State.reset.link = .unopened ∧ ((0 : Rat) ≤ 0 ∧ (-5 : Rat) ≤ 0) ∧ ¬ (1 / 2 : Rat) ≤ 0 := by decide +kernel
theorem witness_CloseEndsTheController :
    opened.link = .opened ∧ (listening true).link = .opened ∧ (listening true).pins.role = .sensing := by decide
theorem witness_StartMakesTheStartCondition :
    opened.link = .opened ∧ opened.pins = { zcl := true, zdaOut := true, role := .driving } := by decide
theorem witness_WriteBitDrivesThenClocks :
    clockedLow.link = .opened ∧ clockedLow.pins.role = .driving ∧ clockedLow.pins.zcl = false := by decide
theorem witness_WriteBitDrivesThenClocks_separator : ∀ v,
    see (fun t => t.dev.bus) (exec (.writeBit v) (targetAt clockedLow (.separator 0x10))) = some (.data 0x10 []) ∧
    see (fun t => t.dev.bus) (exec (.writeBit v) (targetAt clockedLow (.answer 0x7F 8))) = some (.answer 0x80 0) := by
  decide
/-- The eighth bit of a byte: stored at index 127, discarded past it, or a reset trigger (R61, R63). -/
theorem witness_WriteBitDrivesThenClocks_byte :
    see (fun t => t.dev.w) (exec (.writeBit true)
      (targetAt clockedLow (.data 0x7F [false, false, true, true, false, false, true]))) = some [(0x7F, 0x33)] ∧
    see (fun t => t.dev.w) (exec (.writeBit true)
      (targetAt clockedLow (.data 0x80 [false, false, true, true, false, false, true]))) = some [] ∧
    see (fun t => t.dev.w) (exec (.writeBit false)
      (targetAt { clockedLow with dev := armed.dev } (.data 0x11 [true, true, true, true, false, false, false]))) =
        some [(0x11, 0xF0)] := by decide +kernel
theorem witness_ClockLowLowersTheClock :
    opened.link = .opened ∧ opened.pins.zcl = true ∧
    ({ listening true with pins := { zcl := true, zdaOut := true, role := .sensing } } : State).pins.zcl = true := by
  decide
theorem witness_ReadBitSensesAfterTheFall : ∀ v,
    (listening v).link = .opened ∧ (listening v).pins.role = .sensing ∧ (listening v).pins.zcl = false ∧
    (listening v).target = .oracle [v] := by decide
/-- The first and the last read pulse of a byte of the reference target (R62). -/
theorem witness_ReadBitSensesAfterTheFall_reference :
    (targetAt (listening true) (.answer 0x03 0)).target = .reference ∧
    (targetAt (listening true) (.answer 0x03 7)).dev.bus = .answer 0x03 7 ∧ 0 < 8 ∧ 7 < 8 := by decide
theorem witness_SetDataDirectionSwitchesTheRole :
    opened.link = .opened ∧ Role.driving = opened.pins.role ∧ Role.sensing ≠ opened.pins.role ∧
    opened.pins.zcl = true ∧ (listening true).link = .opened ∧ Role.driving ≠ (listening true).pins.role ∧
    (listening true).pins.zcl = false := by decide
theorem witness_WriteBurstSendsItsFrame :
    opened.ready ∧ ((0 : Int) ≤ 0 ∧ (0 : Int) ≤ 127) ∧ ((0 : Int) ≤ 127 ∧ (127 : Int) ≤ 127) ∧ [(0xAA : Byte)] ≠ [] := by
  decide
theorem witness_ReadBurstReturnsWhatTheTargetPresents :
    (hearing [0x07]).ready ∧ ((0 : Int) ≤ 127 ∧ (127 : Int) ≤ 127 ∧ (1 : Int) ≤ 1) ∧
    (hearing [0x07]).presented 0x7F 1 = [0x07] := by decide +kernel
theorem witness_ReadBurstReturnsTheTargetsBytes_oracle :
    ({ opened with target := .oracle (([0x00, 0x07] : List Byte).flatMap (fun b => numberToBits b.toNat 8) ++ [true]) } : State).ready ∧
    [(0x00 : Byte), 0x07] ≠ [] := by decide
theorem witness_ReadBurstReturnsTheTargetsBytes_reference :
    ({ opened with target := .reference } : State).ready ∧ 1 ≤ 1 ∧
    ({ opened with target := .reference } : State).target = .reference ∧ (0x7F : RegIdx).toNat + 0 ≤ 127 ∧
    ¬ (0x7F : RegIdx).toNat + 1 ≤ 127 := by decide
theorem witness_BurstArgumentChecks :
    opened.link = .opened ∧ ((-1 : Int) < 0 ∨ (127 : Int) < -1) ∧ ((128 : Int) < 0 ∨ (127 : Int) < 128) ∧
    ((0 : Int) ≤ 0 ∧ (0 : Int) ≤ 127 ∧ (0 : Int) < 1) ∧ ((0 : Int) ≤ 127 ∧ (127 : Int) ≤ 127 ∧ (-3 : Int) < 1) := by decide
theorem witness_EndBurstRaisesTheDataLine : ∀ v,
    (atEnd v).link = .opened ∧ (atEnd v).pins.zcl = true ∧ (atEnd v).pins.role = .driving ∧ (atEnd v).seq = .endMark ∧
    (atEnd v).pins.zdaOut = v := by decide
/-- For the statements whose one hypothesis is a ready controller: ReadProductIdCombinesTwoBytes,
RevisionAndStatusReadOneByte, ReadSpChoosesTheWidthFromTheStatus, WriteSpChecksTheLengthAgainstTheStatus,
MemoryBurstsAreOneBurst, ResetReplaysTheBreakpoints, BreakNowSetsTheFlag, ContinueAfterBreakSetsSingleStep; in a break or
not. -/
theorem witness_Ready :
    opened.ready ∧ armed.ready ∧ (hearing [0x10]).ready ∧
    ({ opened with session := { opened.session with breakNow := true } } : State).ready := by decide
theorem witness_GroupReadsAreOneReadBurst :
    opened.ready ∧ opened.map.ix.len ≠ 0 ∧
    (Instr.readIx, opened.map.ix) ∈ [(Instr.readMbaseFA, opened.map.mbaseFA), (Instr.readBcuBC, opened.map.bcuBC),
      (Instr.readDeuDE, opened.map.deuDE), (Instr.readIx, opened.map.ix), (Instr.readIy, opened.map.iy)] := by decide
/-- The other clause: a group configured with length 0. -/
theorem witness_GroupReadsAreOneReadBurst_zero :
    heardOf (exec .readIy { opened with map := { map0 with iy := { Config.defaultGroup 0x10 0x13 with len := 0 } } }) =
      some ([], [.error .emptyBurst], none) := by decide
theorem witness_GroupWritesAreOneWriteBurst : ∀ bs : List Byte,
    opened.ready ∧ (Instr.writeIy bs, opened.map.iy) ∈ [(Instr.writeMbaseFA bs, opened.map.mbaseFA),
      (Instr.writeBcuBC bs, opened.map.bcuBC), (Instr.writeDeuDE bs, opened.map.deuDE), (Instr.writeIx bs, opened.map.ix),
      (Instr.writeIy bs, opened.map.iy)] := fun _ => ⟨by decide, by simp⟩
theorem witness_WriteSpChecksTheLengthAgainstTheStatus_empty :
    heardOf (exec (.writeSp []) (hearing [0x10])) = some ([], [.error .emptyBurst], none) := by decide
/-- The injection's start index at its limit and past it (V16). -/
theorem witness_ExecuteInstructionsWritesReversed :
    see (fun t => t.frames) (exec (.executeInstructions [1, 2]) { opened with map := Config.defaultMap 0x7C }) =
      some [.write 0x7F [2, 1]] ∧
    heardOf (exec (.executeInstructions [1, 2, 3]) { opened with map := Config.defaultMap 0x7C }) =
      some ([], [.error .badRegister], none) ∧
    heardOf (exec (.executeInstructions []) opened) = some ([], [.error .emptyBurst], none) := by decide +kernel
theorem witness_SetBreakpointWritesWhatDiffers :
    opened.ready ∧ ((none : Option Byte) = none → (1 : Fin 4).val < 2) ∧
    ((some 0xFF : Option Byte) = none → (3 : Fin 4).val < 2) := by decide
theorem witness_SnapshotAfterSetBreakpoint :
    armed.ready ∧ ((none : Option Byte) = none → (0 : Fin 4).val < 2) ∧
    ((some 0x00 : Option Byte) = none → (2 : Fin 4).val < 2) := by decide
theorem witness_SetBreakpointChecksInOrder_slot :
    heardOf (exec (.setBreakpoint (-1) 0 0 (some 0)) opened) = some ([], [.error .badSlot], none) ∧
    heardOf (exec (.setBreakpoint 4 300 0 none) opened) = some ([], [.error .badSlot], none) := by decide
theorem witness_SetBreakpointChecksInOrder_wildcard :
    heardOf (exec (.setBreakpoint 2 300 0 none) opened) = some ([], [.error .wildcardSlot], none) ∧
    heardOf (exec (.setBreakpoint 3 0 0 none) opened) = some ([], [.error .wildcardSlot], none) := by decide
theorem witness_SetBreakpointChecksInOrder_bytes :
    heardOf (exec (.setBreakpoint 0 256 0 (some 0)) opened) = some ([], [.error .badAddressByte], none) ∧
    heardOf (exec (.setBreakpoint 1 0 (-1) none) opened) = some ([], [.error .badAddressByte], none) ∧
    heardOf (exec (.setBreakpoint 3 0 0 (some 256)) opened) = some ([], [.error .badAddressByte], none) := by decide
theorem witness_DisableBreakpointKeepsTheAddress :
    armed.ready ∧ opened.link = .opened ∧ ((-1 : Int) < 0 ∨ (3 : Int) < -1) ∧ ((4 : Int) < 0 ∨ (3 : Int) < 4) := by decide
theorem witness_GetBreakpointStateIsReadOnly : armed.link = .opened ∧ clockedLow.link = .opened := by decide
theorem witness_BreakpointOperationsEndWithTheControlWrite :
    ∃ t, exec .breakNow opened = .next t ∧ t.responses = opened.responses ++ [.ok .unit] :=
  ⟨_, by rw [exec, execBreakNow, whenOpen_opened rfl, writeCtl_eq (State.withSession_ready _ (by decide))], rfl⟩
theorem witness_ContractViolationChangesNothing :
    ∃ t, exec (.disableBreakpoint 7) opened = .next t ∧ t.responses = opened.responses ++ [.error .badSlot] :=
  ⟨_, rfl, rfl⟩
theorem witness_EveryCommandIsAnsweredOnce :
    (∃ t, exec .getBreakpointState opened = .next t) ∧ (∃ t, exec .clockLow opened = .next t) ∧
    Instr.getBreakpointState.isHostCommand = true ∧ Instr.clockLow.isHostCommand = false := ⟨⟨_, rfl⟩, ⟨_, rfl⟩, rfl, rfl⟩
theorem witness_CommandsOutsideTheLinksLifeAreRefused :
    opened.link ≠ .unopened ∧ closed.link ≠ .unopened ∧ closed.link ≠ .opened ∧ State.reset.link ≠ .opened := by decide
theorem witness_OneBurstStoresOnlyItsBytes :
    storeOf opened.map (.writeMem [0x3E, 0x01]) = some (0x30, [0x3E, 0x01]) ∧
    (∃ t, exec (.writeMem [0x3E, 0x01]) opened = .next t ∧ t.frames ≠ opened.frames) ∧
    (∃ t, exec (.writeMem []) opened = .next t ∧ t.frames = opened.frames) ∧ opened.dev.w.wf = true :=
  ⟨rfl, ⟨_, by rw [exec, execWriteMem, whenOpen_opened rfl, memWrite_ok _ _ (by decide) (by decide)], by decide⟩,
    ⟨_, rfl, rfl⟩, rfl⟩
/-- The clauses of a reset trigger inside a burst: byte 0 at the control register and the slots are cleared, the byte
after the trigger stays. -/
theorem witness_OneBurstStoresOnlyItsBytes_trigger :
    see (fun t => (t.dev.w, armed.dev.w)) (exec (.writeBurst 0x10 [0xFF, 0xF0, 0x55]) armed) =
      some ([(0x11, 0xF0), (0x12, 0x55)], [(0x00, 0x34), (0x01, 0x12), (0x10, 0x08)]) := by decide +kernel
/-- A byte past index 127 is discarded. -/
theorem witness_OneBurstStoresOnlyItsBytes_edge :
    see (fun t => t.dev.w) (exec (.writeBurst 0x7F [0x01, 0x02]) opened) = some [(0x7F, 0x01)] := by decide +kernel
theorem witness_OtherOperationsStoreOnlyAClockedByte :
    storeOf opened.map .getBreakpointState = none ∧ (∃ t, exec .getBreakpointState opened = .next t) ∧
    storeOf opened.map (.writeBit true) = none ∧
    let s := targetAt clockedLow (.data 0x7F (List.replicate 7 false))
    s.dev.w.wf = true ∧ s.dev.bus = .data 0x7F (List.replicate 7 false) ∧ 7 ≤ (List.replicate 7 false).length ∧
    ∃ t, exec (.writeBit true) s = .next t ∧ t.dev.w = [(0x7F, 0x01)] :=
  ⟨rfl, ⟨_, rfl⟩, rfl, rfl, rfl, by decide, _, rfl, by decide +kernel⟩
theorem witness_BreakpointOperationsStoreOnlyTheirRegisters :
    mapDistinct opened.map = true ∧ opened.dev.w.wf = true ∧ (∃ t, exec .breakNow opened = .next t) ∧
    (∃ t, exec (.setBreakpoint 3 0xFF 0xFF (some 0xFF)) opened = .next t ∧ t.frames.length = 4) := by
  refine ⟨by decide, by decide, ⟨_, by
    rw [exec, execBreakNow, whenOpen_opened rfl, writeCtl_eq (State.withSession_ready _ (by decide))]⟩, ?_⟩
  have h : see (fun t => t.frames.length) (exec (.setBreakpoint 3 0xFF 0xFF (some 0xFF)) opened) = some 4 := by
    decide +kernel
  generalize exec (.setBreakpoint 3 0xFF 0xFF (some 0xFF)) opened = o at h
  cases o with
  | next t => exact ⟨t, rfl, by simpa [see] using h⟩
  | fault r => simp [see] at h
  | refused r => simp [see] at h
theorem witness_StepRunsTheDecodedCommand :
    (asked 0x54 []).seq = .idle ∧ (asked 0x54 []).port = ⟨0x54, []⟩ :: [] ∧
    decodeCommand ⟨0x54, []⟩ = .ok .getBreakpointState := ⟨rfl, rfl, rfl⟩
theorem witness_StepWithoutACommand :
    (asked 0x7F []).seq = .idle ∧ (asked 0x7F []).port = ⟨0x7F, []⟩ :: [] ∧
    (0x7F : Byte) ∉ [0x00, 0x01, 0x20, 0x21, 0x30, 0x31, 0x32, 0x33, 0x34, 0x35, 0x36, 0x37, 0x38, 0x39, 0x3A, 0x3B, 0x3C,
      0x3D, 0x40, 0x41, 0x50, 0x51, 0x52, 0x53, 0x54] ∧ opened.port = [] ∧ (atEnd true).seq ≠ .idle := by decide
/-- An idle, configured, traced, timed, canonical state and its step. -/
theorem witness_Invariants :
    IdleInv (asked 0x54 []) ∧ CfgInv (asked 0x54 []) ∧ BanksInv (asked 0x54 []) ∧ TraceInv (asked 0x54 []) ∧
    TimeInv (asked 0x54 []) ∧ ∃ t, step (asked 0x54 []) = .next t := by
  refine ⟨⟨rfl, rfl, fun _ => rfl⟩, fun _ => ⟨_, rfl, ?_, ?_, rfl⟩, ⟨rfl, rfl, rfl⟩, ⟨?_, rfl⟩, ?_, ⟨_, rfl⟩⟩
  · norm_num
  · norm_num
  · intro f hf; cases hf
  · show ((1 : Nat) : Rat) * (3 / 18432000) ≤ 3 / 18432000
    norm_num
theorem witness_StepKeepsTheConfiguration_unopened :
    CfgInv State.reset ∧ State.reset.link = .unopened ∧ ∃ t, step State.reset = .next t :=
  ⟨fun h => absurd rfl h, rfl, _, rfl⟩
theorem witness_TracesObeyTheEdgeRules : TraceInv closed ∧ TraceInv State.reset :=
  ⟨⟨(fun _ hf => nomatch hf), rfl⟩, ⟨(fun _ hf => nomatch hf), rfl, rfl⟩⟩
/-- A trace with a burst in it. -/
theorem witness_TracesObeyTheEdgeRules_burst :
    TraceInv { opened with
      frames := [.write 0x10 [0xAA]], trace := linkOpenEvents ++ [Frame.write 0x10 [0xAA]].flatMap Frame.events } :=
  ⟨by decide, rfl⟩
theorem witness_ResetEstablishesCoherence :
    opened.ready ∧ mapDistinct opened.map = true ∧ opened.dev.w.wf = true := by decide
theorem witness_StepKeepsCoherence :
    IdleInv { armed with port := [⟨0x54, []⟩] } ∧ armed.link = .opened ∧ mapDistinct armed.map = true ∧
    mapSeparate armed.map = true ∧ armed.dev.w.wf = true ∧ Coherent { armed with port := [⟨0x54, []⟩] } ∧
    ∃ t, step { armed with port := [⟨0x54, []⟩] } = .next t ∧ t.link = .opened := by
  refine ⟨⟨rfl, rfl, fun _ => rfl⟩, rfl, by decide, by decide, by decide, ⟨?_, by decide⟩, ⟨_, rfl, rfl⟩⟩
  show ∀ i : Fin 4, armed.dev.w.read armed.map.wAddrU[i].toNat = (armed.session.slot i).upper ∧
    armed.dev.w.read armed.map.wAddrH[i].toNat = (armed.session.slot i).high ∧
    armed.dev.w.read armed.map.wAddrL[i].toNat = (armed.session.slot i).low
  decide
theorem witness_OnlyOpenAndCloseMoveTheLink :
    (∃ t, exec .close opened = .next t ∧ t.link ≠ opened.link) ∧
    (∃ t, exec (.linkOpen 17 27 1) State.reset = .next t ∧ t.link ≠ State.reset.link) := by
  refine ⟨⟨_, rfl, by decide⟩, ⟨State.reset.linkOpened 17 27 1, ?_, by decide⟩⟩
  rw [exec, execLinkOpen_eq, if_neg (by decide), if_neg (by decide +kernel)]
theorem witness_WhoWritesTheSession :
    ∃ t, exec .breakNow opened = .next t ∧ t.session.breakNow ≠ opened.session.breakNow :=
  ⟨_, by rw [exec, execBreakNow, whenOpen_opened rfl, writeCtl_eq (State.withSession_ready _ (by decide))], by decide⟩
theorem witness_SensedDataSteersOnlyTheStackPointer :
    SameController (listening true) (listening false) ∧ ∃ t, exec .readBit (listening true) = .next t :=
  ⟨⟨rfl, rfl, rfl, rfl, rfl, rfl, rfl, rfl, rfl, rfl, rfl, rfl, rfl, rfl, rfl, rfl⟩, _, rfl⟩

end Sys2Proof.Tests
end

section
/-! PROOF. O50: the configuration along one step. LINK_OPEN is the only command that writes it, and it runs on an unopened
controller only (R6, R21, R90). -/

namespace Sys2Proof.Machine

/-- What a step that began in `s` has kept so far, in `t`: the statement of O50, and that an opened controller never
becomes unopened again (R22), which the induction over the step needs. -/
structure KeepsConfiguration (s t : State) : Prop where
  inv    : CfgInv t
  map    : t.map = s.map
  opened : s.link ≠ .unopened → t.link ≠ .unopened
  cfg    : s.link ≠ .unopened → t.cfg = s.cfg

theorem KeepsConfiguration.refl {s : State} (h : CfgInv s) : KeepsConfiguration s s :=
  ⟨h, rfl, id, fun _ => rfl⟩

/-- A change that leaves the map, the configuration and whether the controller was ever opened alone. -/
theorem KeepsConfiguration.of_eq {s t u : State} (h : KeepsConfiguration s t) (hm : u.map = t.map)
    (hc : u.cfg = t.cfg) (hl : u.link = .unopened ↔ t.link = .unopened) : KeepsConfiguration s u where
  inv hu := by
    rw [hc]
    exact h.inv (hl.not.mp hu)
  map := hm.trans h.map
  opened hs := hl.not.mpr (h.opened hs)
  cfg hs := hc.trans (h.cfg hs)

@[simp] theorem State.linkOpened_cfg (s : State) (c d : PinId) (f : Rat) :
    (s.linkOpened c d f).cfg = some { clkPin := c, dataPin := d, fTarget := f, delay := 3 / f } := rfl

/-- LINK_OPEN with a positive frequency sets `DELAY = 3 / F_TARGET` (R6, R90). -/
theorem State.linkOpened_cfgInv (s : State) (c d : PinId) {f : Rat} (hf : 0 < f) : CfgInv (s.linkOpened c d f) :=
  fun _ => ⟨_, State.linkOpened_cfg s c d f, hf, div_pos three_pos hf, rfl⟩

/-- LINK_OPEN runs on an unopened controller only, so it rewrites no configuration (R22, R90). -/
theorem KeepsConfiguration.linkOpened {s t : State} (h : KeepsConfiguration s t) (hl : t.link = .unopened)
    (c d : PinId) {f : Rat} (hf : 0 < f) : KeepsConfiguration s (t.linkOpened c d f) where
  inv := State.linkOpened_cfgInv t c d hf
  map := h.map
  opened hs := absurd hl (h.opened hs)
  cfg hs := absurd hl (h.opened hs)

theorem KeepsConfiguration.linkClosed {s t : State} (h : KeepsConfiguration s t) (hl : t.link = .opened) :
    KeepsConfiguration s t.linkClosed :=
  h.of_eq rfl rfl (by simp [State.linkClosed, hl])

theorem KeepsConfiguration.bursts {s t u : State} (h : KeepsConfiguration s t) (hb : Bursts t u) :
    KeepsConfiguration s u :=
  h.of_eq hb.map hb.cfg (by rw [hb.link])

theorem KeepsConfiguration.step {s t : State} (h : CfgInv s) (hx : Machine.step s = .next t) :
    KeepsConfiguration s t :=
  step_keeps (KeepsConfiguration s)
    (hport := fun _ _ hu => hu.of_eq rfl rfl .rfl)
    (hresp := fun _ _ hu => hu.of_eq rfl rfl .rfl)
    (hopen := fun _ c d _ _ hl hf hu => hu.linkOpened hl c d hf)
    (hclose := fun _ _ hl hu => hu.linkClosed hl)
    (hb := fun _ _ _ hb hu => hu.bursts hb)
    (.refl h) hx

/-- Settles O50, by the case analysis of one step: LINK_OPEN writes the configuration of an unopened controller, every other
change leaves map and configuration alone (R6, R21, R44). -/
theorem stepKeepsTheConfiguration : Obligations.StepKeepsTheConfiguration := by
  intro s t h hx
  obtain ⟨hinv, hmap, -, hcfg⟩ := KeepsConfiguration.step h hx
  exact ⟨hinv, hmap, hcfg⟩

end Sys2Proof.Machine
end

section
/-! PROOF. O49, O52, O53, O47, O48: the idle, trace and time invariants along one step. Each is kept by a run of bursts, by
LINK_OPEN and by CLOSE, and looks at no port entry and no response; `step_keeps` does the rest. -/

namespace Sys2Proof.Machine

/-! ## The idle invariant (R26) -/

/-- An idle controller on an open Link is ready to accept a command. -/
theorem IdleInv.ready {s : State} (h : IdleInv s) (ho : s.link = .opened) : s.ready := by
  obtain ⟨hseq, -, hpins⟩ := h
  exact ⟨ho, hpins ho, hseq⟩

/-- A completed burst leaves the sequencer idle without working registers, and moves no pin for good. -/
theorem IdleInv.bursts {s t : State} (h : Bursts s t) (hs : IdleInv s) : IdleInv t := by
  induction h with
  | refl => exact hs
  | sent a bs hr _ _ ih =>
    obtain ⟨-, hpins, -⟩ := hr
    exact ih ⟨rfl, rfl, fun _ => hpins⟩
  | heard a n hr _ _ ih =>
    obtain ⟨-, hpins, -⟩ := hr
    exact ih ⟨rfl, rfl, fun _ => hpins⟩
  | session x _ ih => exact ih hs

/-- LINK_OPEN creates the controller with idle lines (R43, R90). -/
theorem IdleInv.linkOpened (s : State) (c d : PinId) (f : Rat) : IdleInv (s.linkOpened c d f) :=
  ⟨rfl, rfl, fun _ => rfl⟩

theorem IdleInv.linkClosed {s : State} (h : IdleInv s) : IdleInv s.linkClosed := by
  obtain ⟨hseq, hwork, -⟩ := h
  exact ⟨hseq, hwork, nofun⟩

/-- Settles O49: a burst ends idle, LINK_OPEN begins idle, CLOSE leaves no open Link. -/
theorem stepKeepsTheIdleInvariant : Obligations.StepKeepsTheIdleInvariant := fun _ _ hs hx =>
  step_keeps IdleInv
    (hport := fun _ _ h => h)
    (hresp := fun _ _ h => h)
    (hopen := fun u c d f _ _ _ _ => IdleInv.linkOpened u c d f)
    (hclose := fun _ _ _ h => h.linkClosed)
    (hb := fun _ _ _ hb h => h.bursts hb)
    hs hx

/-! ## The trace invariant (R42, R43, R79) -/

theorem traceInv_unopened {s : State} (h : s.link = .unopened) : TraceInv s ↔ s.trace = [] ∧ s.frames = [] := by
  simp only [TraceInv, h]
  exact ⟨And.right, fun hs => ⟨by simp [hs.2], hs⟩⟩

theorem traceInv_opened {s : State} (h : s.link = .opened) :
    TraceInv s ↔ (∀ f ∈ s.frames, frameComplete f = true) ∧
      s.trace = linkOpenEvents ++ s.frames.flatMap Frame.events := by
  simp only [TraceInv, h]

theorem traceInv_closed {s : State} (h : s.link = .closed) :
    TraceInv s ↔ (∀ f ∈ s.frames, frameComplete f = true) ∧
      s.trace = linkOpenEvents ++ s.frames.flatMap Frame.events ++ closeEvents := by
  simp only [TraceInv, h]

/-- The target presents as many bytes as the burst asks for. -/
@[simp] theorem State.presented_length (s : State) (a : RegIdx) (n : Nat) : (s.presented a n).length = n := by
  simp [State.presented]

theorem frameComplete_readFrame (s : State) (a : RegIdx) {n : Nat} (hn : 1 ≤ n) :
    frameComplete (s.readFrame a n) = true := by
  simp [frameComplete, State.readFrame, hn]

/-- One more complete frame with its events keeps the trace invariant of an open Link. -/
theorem TraceInv.frame {s t : State} (h : TraceInv s) (ho : s.link = .opened) {f : Frame} (hf : frameComplete f = true)
    (hl : t.link = s.link) (hfs : t.frames = s.frames ++ [f]) (hes : t.trace = s.trace ++ f.events) : TraceInv t := by
  obtain ⟨hall, htrace⟩ := (traceInv_opened ho).mp h
  refine (traceInv_opened (hl.trans ho)).mpr ⟨?_, ?_⟩
  · intro g hg
    rw [hfs, List.mem_append, List.mem_singleton] at hg
    rcases hg with hg | rfl
    · exact hall g hg
    · exact hf
  · rw [hes, hfs, htrace]
    simp

theorem TraceInv.bursts {s t : State} (hb : Bursts s t) (ho : s.link = .opened) (h : TraceInv s) : TraceInv t := by
  induction hb with
  | refl => exact h
  | sent a bs _ hne _ ih => exact ih ho (h.frame ho (by simpa [frameComplete] using hne) rfl rfl rfl)
  | heard a n _ hn _ ih => exact ih ho (h.frame ho (frameComplete_readFrame _ a hn) rfl rfl rfl)
  | session x _ ih => exact ih ho h

/-- LINK_OPEN begins the trace with its own events (R90). -/
theorem TraceInv.linkOpened {s : State} (hl : s.link = .unopened) (h : TraceInv s) (c d : PinId) (f : Rat) :
    TraceInv (s.linkOpened c d f) := by
  obtain ⟨htrace, hframes⟩ := (traceInv_unopened hl).mp h
  refine (traceInv_opened rfl).mpr ⟨?_, ?_⟩ <;> simp [State.linkOpened, htrace, hframes]

/-- CLOSE from the drive role ends the trace with its events (R99). -/
theorem TraceInv.linkClosed {s : State} (hl : s.link = .opened) (hi : IdleInv s) (h : TraceInv s) :
    TraceInv s.linkClosed := by
  obtain ⟨hall, htrace⟩ := (traceInv_opened hl).mp h
  obtain ⟨-, hpins, -⟩ := hi.ready hl
  refine (traceInv_closed rfl).mpr ⟨hall, ?_⟩
  simp [State.linkClosed, htrace, hpins, Pins.idle]

/-- The idle invariant goes with the trace invariant: it says that CLOSE begins in the drive role. -/
theorem step_keeps_idle_trace {s t : State} (hi : IdleInv s) (ht : TraceInv s) (hx : step s = .next t) :
    IdleInv t ∧ TraceInv t :=
  step_keeps (fun u => IdleInv u ∧ TraceInv u)
    (hport := fun _ _ h => h)
    (hresp := fun _ _ h => h)
    (hopen := fun u c d f _ hl _ ⟨_, ht⟩ => ⟨IdleInv.linkOpened u c d f, ht.linkOpened hl c d f⟩)
    (hclose := fun _ _ hl ⟨hi, ht⟩ => ⟨hi.linkClosed, ht.linkClosed hl hi⟩)
    (hb := fun _ _ hl hb ⟨hi, ht⟩ => ⟨hi.bursts hb, ht.bursts hb hl⟩)
    ⟨hi, ht⟩ hx

/-- Settles O52: a burst appends its frame to the one trace and its events to the other, LINK_OPEN begins the event trace,
CLOSE ends it. -/
theorem stepKeepsTheTrace : Obligations.StepKeepsTheTrace := fun _ _ hi ht hx =>
  (step_keeps_idle_trace hi ht hx).2

/-! ## The time invariant (R41, R203) -/

theorem Config.slack_nonneg (n : Nat) : 0 ≤ Config.slack n := Rat.mkRat_nonneg (Int.natCast_nonneg _) _

theorem sleeps_append (es fs : List Event) : sleeps (es ++ fs) = sleeps es + sleeps fs := List.countP_append

/-- What the events of a list take at least is `DELAY` for each `Sleep`. -/
theorem sleeps_cons_mul (delay : Rat) (e : Event) (es : List Event) :
    (sleeps (e :: es) : Rat) * delay = eventTime delay e + sleeps es * delay := by
  cases e <;> simp [sleeps, eventTime, add_mul, add_comm]

/-- Events take at least their minimum, whatever their excess (R41, D12). -/
theorem le_timeAfter (delay : Rat) (n : Nat) (t : Rat) (es : List Event) :
    t + sleeps es * delay ≤ timeAfter delay n t es := by
  induction es generalizing n t with
  | nil => simp [timeAfter, sleeps]
  | cons e es ih =>
    have hs := Config.slack_nonneg n
    calc t + sleeps (e :: es) * delay
        = t + (eventTime delay e + 0) + sleeps es * delay := by rw [sleeps_cons_mul]; ring
      _ ≤ t + (eventTime delay e + Config.slack n) + sleeps es * delay := by gcongr
      _ ≤ timeAfter delay n t (e :: es) := ih _ _

/-- Events with their time keep the time invariant. -/
theorem TimeInv.events {s t : State} (h : TimeInv s) (es : List Event) (hd : t.delay = s.delay)
    (hes : t.trace = s.trace ++ es) (ht : t.elapsed = timeAfter s.delay s.trace.length s.elapsed es) : TimeInv t := by
  unfold TimeInv at h ⊢
  rw [hd, hes, ht, sleeps_append, Nat.cast_add, add_mul]
  exact (add_le_add_left h _).trans (le_timeAfter _ _ _ _)

theorem TimeInv.bursts {s t : State} (hb : Bursts s t) (h : TimeInv s) : TimeInv t := by
  induction hb with
  | refl => exact h
  | @sent s _ a bs _ _ _ ih => exact ih (h.events (Frame.write a bs).events rfl rfl rfl)
  | @heard s _ a n _ _ _ ih => exact ih (h.events (s.readFrame a n).events rfl rfl rfl)
  | session x _ ih => exact ih h

/-- LINK_OPEN sets `DELAY` while the trace is still empty. -/
theorem TimeInv.linkOpened {s : State} (htrace : s.trace = []) (h : TimeInv s) (c d : PinId) (f : Rat) :
    TimeInv (s.linkOpened c d f) := by
  have hcfg : TimeInv { s with cfg := some { clkPin := c, dataPin := d, fTarget := f, delay := 3 / f } } := by
    simp only [TimeInv, htrace, sleeps, List.countP_nil, Nat.cast_zero, zero_mul] at h ⊢
    exact h
  exact hcfg.events linkOpenEvents rfl rfl rfl

theorem TimeInv.linkClosed {s : State} (h : TimeInv s) : TimeInv s.linkClosed :=
  h.events _ rfl rfl rfl

/-- Settles O53: every event takes at least its minimum, and LINK_OPEN, which sets `DELAY`, runs on an empty trace. -/
theorem stepKeepsTheTime : Obligations.StepKeepsTheTime := fun _ _ hi _ ht htime hx =>
  And.right <| And.right <| step_keeps (fun u => IdleInv u ∧ TraceInv u ∧ TimeInv u)
    (hport := fun _ _ h => h)
    (hresp := fun _ _ h => h)
    (hopen := fun u c d f _ hl _ ⟨_, ht, htime⟩ =>
      have ⟨htrace, _⟩ := (traceInv_unopened hl).mp ht
      ⟨IdleInv.linkOpened u c d f, ht.linkOpened hl c d f, htime.linkOpened htrace c d f⟩)
    (hclose := fun _ _ hl ⟨hi, ht, htime⟩ => ⟨hi.linkClosed, ht.linkClosed hl hi, htime.linkClosed⟩)
    (hb := fun _ _ hl hb ⟨hi, ht, htime⟩ => ⟨hi.bursts hb, ht.bursts hb hl, htime.bursts hb⟩)
    ⟨hi, ht, htime⟩ hx

/-! ## The reset state (R22, R34, R43) -/

/-- Settles O47: every field is written out in the reset state. -/
theorem resetValues : Obligations.ResetValues :=
  ⟨rfl, rfl, rfl, by decide, rfl, rfl, rfl, rfl, rfl, rfl, rfl, rfl⟩

/-- Settles O48: the reset state is unopened with empty traces, so each invariant asks for nothing yet. -/
theorem resetMeetsTheInvariants : Obligations.ResetMeetsTheInvariants := by
  refine ⟨⟨rfl, rfl, nofun⟩, fun h => absurd rfl h, ⟨rfl, rfl, rfl⟩, (traceInv_unopened rfl).mpr ⟨rfl, rfl⟩, ?_⟩
  simp [TimeInv, State.reset, sleeps]

end Sys2Proof.Machine
end

section
/-! PROOF. O58, O59: which operations move the link state and which write the Session. A command that is no operation on
the Session only transfers bytes: `transfer_cases` says where its write bursts begin, which the coherence proof needs too. -/

namespace Sys2Proof.Machine

/-! ## The link state (R22) -/

/-- An internal operation leaves the link state alone. -/
theorem internal_link {i : Instr} {s t : State} (hi : i.isHostCommand = false) (hx : exec i s = .next t) :
    t.link = s.link := by
  rcases internal_cases hi hx with ⟨c, rfl⟩ | ⟨u, v, hb, rfl⟩ | ⟨es, rfl⟩ | ⟨es, v, fs, rfl⟩
  · rfl
  · exact hb.link
  · exact State.emits_link s es
  · simp

/-- Settles O58, by what a host command can do: a rejection and a run of bursts leave the link state alone. -/
theorem onlyOpenAndCloseMoveTheLink : Obligations.OnlyOpenAndCloseMoveTheLink := by
  intro i s t hx hne
  cases hi : i.isHostCommand with
  | false => exact absurd (internal_link hi hx) hne
  | true =>
    rcases hostCommand_cases hi hx with
      ⟨c, d, f, rfl, hl, ⟨-, rfl⟩ | ⟨-, rfl⟩⟩ | ⟨rfl, hl, rfl⟩ | ⟨-, ⟨c, rfl⟩ | ⟨u, v, hb, rfl⟩⟩
    · exact absurd rfl hne
    · exact .inl ⟨⟨c, d, f, rfl⟩, hl, rfl⟩
    · exact .inr ⟨rfl, hl, rfl⟩
    · exact absurd rfl hne
    · exact absurd hb.link hne

/-! ## Transfers: runs of bursts that leave the Session alone -/

/-- From `s` to `t` by completed bursts, a write burst beginning only at an index of which `P` holds; no update of the
Session. -/
inductive Transfers (P : RegIdx → Prop) : State → State → Prop where
  | refl (s : State) : Transfers P s s
  | sent {s t : State} (a : RegIdx) (bs : List Byte) (ha : P a) :
      Transfers P (s.sent (.write a bs)) t → Transfers P s t
  | heard {s t : State} (a : RegIdx) (n : Nat) : Transfers P (s.heard a n) t → Transfers P s t

section Transfers

variable {P : RegIdx → Prop}

theorem Transfers.trans {s t u : State} (h : Transfers P s t) (k : Transfers P t u) : Transfers P s u := by
  induction h with
  | refl => exact k
  | sent a bs ha _ ih => exact .sent a bs ha (ih k)
  | heard a n _ ih => exact .heard a n (ih k)

theorem Transfers.session {s t : State} (h : Transfers P s t) : t.session = s.session := by
  induction h with
  | refl => rfl
  | sent _ _ _ _ ih => exact ih
  | heard _ _ _ ih => exact ih

theorem Transfers.map {s t : State} (h : Transfers P s t) : t.map = s.map := by
  induction h with
  | refl => rfl
  | sent _ _ _ _ ih => exact ih
  | heard _ _ _ ih => exact ih

theorem sendFrame_transfers {a : RegIdx} {bs : List Byte} {s t : State} (ha : P a) (h : sendFrame a bs s = .next t) :
    Transfers P s t := by
  obtain ⟨-, -, rfl⟩ := sendFrame_next h
  exact .sent a bs ha (.refl _)

theorem recvFrame_transfers {a : RegIdx} {n : Nat} {s : State} {p : List Byte × State}
    (h : recvFrame a n s = .next p) : Transfers P s p.2 := by
  obtain ⟨-, -, -, ht⟩ := recvFrame_next (rx := p.1) (t := p.2) h
  rw [ht]
  exact .heard a n (.refl _)

theorem statusRead_transfers {s : State} {p : Byte × State} (h : statusRead s = .next p) : Transfers P s p.2 := by
  obtain ⟨q, hq, h⟩ := andThen_eq_next h
  cases h
  exact recvFrame_transfers hq

theorem sendAll_transfers {ws : List (RegIdx × Byte)} {s t : State} (hP : ∀ p ∈ ws, P p.1)
    (h : sendAll ws s = .next t) : Transfers P s t := by
  induction ws generalizing s with
  | nil => cases h; exact .refl _
  | cons p ws ih =>
    obtain ⟨u, hu, h⟩ := andThen_eq_next h
    obtain ⟨hp, hws⟩ := List.forall_mem_cons.mp hP
    exact (sendFrame_transfers hp hu).trans (ih hws h)

/-- What a host command that only transfers bytes does: its bursts, if it is not rejected, and a response. -/
def TransferCommand (P : RegIdx → Prop) (s t : State) : Prop := ∃ u r, Transfers P s u ∧ t = u.respond r

theorem TransferCommand.session {s t : State} (h : TransferCommand P s t) : t.session = s.session := by
  obtain ⟨u, r, hu, rfl⟩ := h
  exact hu.session

theorem raise_transfer {c : Cause} {s t : State} (h : raise c s = .next t) : TransferCommand P s t :=
  ⟨s, _, .refl s, (Host.Outcome.next.inj h).symm⟩

theorem registerOk_of_checkWrite {a : Int} {bs : List Byte} (h : checkWrite a bs = none) : registerOk a = true := by
  unfold checkWrite at h
  split at h
  · cases h
  · exact Bool.eq_true_of_not_eq_false ‹_›

theorem memWrite_transfer {a : Int} {bs : List Byte} {s t : State} (hP : registerOk a = true → P (regIdx a))
    (h : memWrite a bs s = .next t) : TransferCommand P s t := by
  unfold memWrite at h
  split at h
  · exact raise_transfer h
  · rename_i hc
    obtain ⟨u, hu, h⟩ := andThen_eq_next h
    exact ⟨u, _, sendFrame_transfers (hP (registerOk_of_checkWrite hc)) hu, (Host.Outcome.next.inj h).symm⟩

theorem memRead_transfer {a n : Int} {f : List Byte → Value} {s t : State} (h : memRead a n f s = .next t) :
    TransferCommand P s t := by
  unfold memRead at h
  split at h
  · exact raise_transfer h
  · obtain ⟨p, hp, h⟩ := andThen_eq_next h
    exact ⟨p.2, _, recvFrame_transfers hp, (Host.Outcome.next.inj h).symm⟩

theorem execReadSp_transfer {s t : State} (hx : execReadSp s = .next t) : TransferCommand P s t := by
  obtain ⟨-, hx⟩ := whenOpen_eq_next hx
  obtain ⟨p, hp, hx⟩ := andThen_eq_next hx
  obtain ⟨q, hq, hx⟩ := andThen_eq_next hx
  exact ⟨q.2, _, (statusRead_transfers hp).trans (recvFrame_transfers hq), (Host.Outcome.next.inj hx).symm⟩

theorem execWriteSp_transfer {bs : List Byte} {s t : State} (hP : P s.map.spWrReg)
    (hx : execWriteSp bs s = .next t) : TransferCommand P s t := by
  obtain ⟨-, hx⟩ := whenOpen_eq_next hx
  split at hx
  · exact raise_transfer hx
  · obtain ⟨p, hp, hx⟩ := andThen_eq_next hx
    split at hx
    · cases hx
    · obtain ⟨q, hq, hx⟩ := andThen_eq_next hx
      have hst : Transfers P s p.2 := statusRead_transfers hp
      rw [← hst.map] at hP
      exact ⟨q, _, hst.trans (sendFrame_transfers hP hq), (Host.Outcome.next.inj hx).symm⟩

/-- The operations that write the Session or the slot file: its creation, its end, and the breakpoint operations. -/
def writesSession : Instr → Bool
  | .linkOpen _ _ _ => true
  | .close => true
  | .setBreakpoint _ _ _ _ => true
  | .disableBreakpoint _ => true
  | .breakNow => true
  | .continueAfterBreak _ => true
  | _ => false

/-- A host command that neither writes the Session nor resets the target transfers bytes, and its write burst begins at the
index `storeOf` names. -/
theorem transfer_cases {i : Instr} {s t : State} (hi : i.isHostCommand = true) (hw : writesSession i = false)
    (hr : i ≠ .reset) (hP : ∀ a bs, storeOf s.map i = some (a, bs) → registerOk a = true → P (regIdx a))
    (hx : exec i s = .next t) : TransferCommand P s t := by
  cases i
  case readProductId | readProductRevision | readMbaseFA | readBcuBC | readDeuDE | readIx | readIy | readMem =>
    exact memRead_transfer (whenOpen_eq_next hx).2
  case writeMbaseFA | writeBcuBC | writeDeuDE | writeIx | writeIy | writeMem =>
    exact memWrite_transfer (hP _ _ rfl) (whenOpen_eq_next hx).2
  case readSp => exact execReadSp_transfer hx
  case writeSp bs => exact execWriteSp_transfer (by simpa using hP _ bs rfl (registerOk_toNat _)) hx
  case executeInstructions ops =>
    obtain ⟨-, hx⟩ := whenOpen_eq_next hx
    split at hx
    · exact raise_transfer hx
    · exact memWrite_transfer (hP _ _ rfl) hx
  case getBreakpointState => exact ⟨s, _, .refl s, (Host.Outcome.next.inj (whenOpen_eq_next hx).2).symm⟩
  case reset => exact absurd rfl hr
  case linkOpen | close | setBreakpoint | disableBreakpoint | breakNow | continueAfterBreak =>
    exact absurd hw.symm Bool.false_ne_true
  case start | writeBit | clockLow | readBit | setDataDirection | writeBurst | readBurst | endBurst | readStatus =>
    exact absurd hi Bool.false_ne_true

end Transfers

/-! ## Who writes the Session (R27, R29 to R32, R45) -/

/-- A guarded operation that answers a next state is the guarded branch. -/
theorem eq_of_guarded {α : Type} {c : Prop} [Decidable c] {a b : α} {r : Fault}
    (h : (if c then .next a else .fault r : Out α) = .next b) : b = a := by
  split at h
  · exact (Host.Outcome.next.inj h).symm
  · cases h

/-- An internal operation leaves the Session alone. -/
theorem internal_session {i : Instr} {s t : State} (hi : i.isHostCommand = false) (hx : exec i s = .next t) :
    t.session = s.session := by
  cases i with
  | start | writeBit _ | clockLow => rw [eq_of_guarded hx, State.emits_session]
  | readBit =>
    obtain ⟨p, hp, hx⟩ := andThen_eq_next hx
    cases hx
    rw [eq_of_guarded hp]
    simp
  | setDataDirection r =>
    obtain ⟨-, hx⟩ := whenOpen_eq_next hx
    split at hx <;> cases hx
    · rfl
    · exact State.emits_session _ _
  | writeBurst a bs =>
    obtain ⟨-, hx⟩ := whenOpen_eq_next hx
    split at hx
    · cases hx; rfl
    · obtain ⟨u, hu, hx⟩ := andThen_eq_next hx
      cases hx
      exact (sendFrame_transfers (P := fun _ => True) trivial hu).session
  | readBurst a n =>
    obtain ⟨-, hx⟩ := whenOpen_eq_next hx
    split at hx
    · cases hx; rfl
    · obtain ⟨p, hp, hx⟩ := andThen_eq_next hx
      cases hx
      exact (recvFrame_transfers (P := fun _ => True) hp).session
  | endBurst =>
    rw [eq_of_guarded (whenOpen_eq_next hx).2]
    split
    · exact State.emits_session _ _
    · rfl
  | readStatus =>
    obtain ⟨p, hp, hx⟩ := andThen_eq_next (whenOpen_eq_next hx).2
    cases hx
    exact (statusRead_transfers (P := fun _ => True) hp).session
  | _ => exact absurd hi.symm Bool.false_ne_true

theorem execReset_session {s t : State} (hx : execReset s = .next t) : t.session = s.session := by
  obtain ⟨u, hu, hx⟩ := andThen_eq_next (whenOpen_eq_next hx).2
  cases hx
  exact (sendAll_transfers (P := fun _ => True) (fun _ _ => trivial) hu).session

/-- RESET, every transfer and every internal operation leave the Session alone. -/
theorem exec_session {i : Instr} {s t : State} (hw : writesSession i = false) (hx : exec i s = .next t) :
    t.session = s.session := by
  cases hi : i.isHostCommand with
  | false => exact internal_session hi hx
  | true =>
    by_cases hr : i = .reset
    · subst hr
      exact execReset_session hx
    · exact (transfer_cases (P := fun _ => True) hi hw hr (fun _ _ _ _ => trivial) hx).session

/-- The control write that ends an operation leaves the Session as the operation set it (R171). -/
theorem ctlCommand_session {s t : State} {x : Session} (hx : whenOpen s (writeCtl (s.withSession x)) = .next t) :
    t.session = x := by
  obtain ⟨-, rfl⟩ := writeCtl_next (whenOpen_eq_next hx).2
  rfl

theorem execSetBreakpoint_session {n u h : Int} {l : Option Int} {s t : State}
    (hx : execSetBreakpoint n u h l s = .next t) : t.session = s.session ∨ ∃ q, t.session = s.session.afterSet q := by
  obtain ⟨-, ⟨c, -, rfl⟩ | ⟨q, -, -, rfl⟩⟩ := execSetBreakpoint_next hx
  · exact .inl rfl
  · exact .inr ⟨q, rfl⟩

theorem execDisableBreakpoint_session {n : Int} {s t : State} (hx : execDisableBreakpoint n s = .next t) :
    t.session = s.session ∨ ∃ i, t.session = s.session.setEnabled i false := by
  obtain ⟨-, hx⟩ := whenOpen_eq_next hx
  split at hx
  · cases hx
    exact .inl rfl
  · obtain ⟨-, rfl⟩ := writeCtl_next hx
    exact .inr ⟨_, rfl⟩

/-- Settles O59: SET_BREAKPOINT writes a slot and its flags, DISABLE_BREAKPOINT an enabled flag, BREAK_NOW and
CONTINUE_AFTER_BREAK their flags; no other operation writes the Session. -/
theorem whoWritesTheSession : Obligations.WhoWritesTheSession := by
  intro i s t hx hopen hclose
  by_cases hw : writesSession i = false
  · have hs := exec_session hw hx
    simp [hs]
  cases i with
  | linkOpen c d f => exact absurd rfl (hopen c d f)
  | close => exact absurd rfl hclose
  | setBreakpoint n u h l =>
    have ⟨hbreak, hstep⟩ : t.session.breakNow = s.session.breakNow ∧ t.session.singleStep = s.session.singleStep := by
      rcases execSetBreakpoint_session hx with hs | ⟨q, hs⟩ <;> rw [hs] <;> exact ⟨rfl, rfl⟩
    exact ⟨fun _ => .inl ⟨n, u, h, l, rfl⟩, fun _ => ⟨n, u, h, l, rfl⟩, fun _ => ⟨n, u, h, l, rfl⟩,
      fun hne => absurd hbreak hne, fun hne => absurd hstep hne⟩
  | disableBreakpoint n =>
    refine ⟨fun _ => .inr ⟨n, rfl⟩, ?_⟩
    rcases execDisableBreakpoint_session hx with hs | ⟨j, hs⟩ <;> simp [hs, Session.setEnabled]
  | breakNow => simp [ctlCommand_session hx]
  | continueAfterBreak b => simp [ctlCommand_session hx]
  | _ => exact absurd rfl hw

end Sys2Proof.Machine
end

section
/-! PROOF. O56, O57: coherence of the reference target with the copy of the Session (R39). In a distinct map a one-byte
write changes one register; RESET writes every breakpoint register once, SET_BREAKPOINT the bytes that differ, and every
other command writes above them (R58, R63, R161, R174). -/

namespace Sys2Proof.Machine

/-! ## The breakpoint registers of a map (R50, R63) -/

theorem mem_breakRegs {m : RegMap} {r : RegIdx} :
    r ∈ breakRegs m ↔ r ∈ m.wAddrL.toList ∨ r ∈ m.wAddrH.toList ∨ r ∈ m.wAddrU.toList ∨ r = m.wBrkCtl := by
  simp [breakRegs]

theorem wAddrL_mem_breakRegs (m : RegMap) (i : Fin 4) : m.wAddrL[i] ∈ breakRegs m :=
  mem_breakRegs.mpr (.inl (by simp))

theorem wAddrH_mem_breakRegs (m : RegMap) (i : Fin 4) : m.wAddrH[i] ∈ breakRegs m :=
  mem_breakRegs.mpr (.inr (.inl (by simp)))

theorem wAddrU_mem_breakRegs (m : RegMap) (i : Fin 4) : m.wAddrU[i] ∈ breakRegs m :=
  mem_breakRegs.mpr (.inr (.inr (.inl (by simp))))

theorem wBrkCtl_mem_breakRegs (m : RegMap) : m.wBrkCtl ∈ breakRegs m :=
  mem_breakRegs.mpr (.inr (.inr (.inr rfl)))

theorem mapDistinct_iff {m : RegMap} : mapDistinct m = true ↔ m.wMasterCtl ∉ breakRegs m ∧ (breakRegs m).Nodup := by
  rw [mapDistinct, decide_eq_true_eq, List.nodup_cons]

/-- An entry of a vector without repetitions has one place. -/
theorem getElem_inj_of_nodup {v : Vector RegIdx 4} (h : v.toList.Nodup) (i j : Fin 4) : v[i].toNat = v[j].toNat ↔ i = j := by
  have hi := h.getElem_inj_iff (i := i) (hi := by simp) (j := j) (hj := by simp)
  simpa [BitVec.toNat_inj, Fin.ext_iff] using hi

/-- The breakpoint registers of a distinct map, told apart. -/
structure DistinctRegs (m : RegMap) : Prop where
  low_inj    : ∀ i j : Fin 4, m.wAddrL[i].toNat = m.wAddrL[j].toNat ↔ i = j
  high_inj   : ∀ i j : Fin 4, m.wAddrH[i].toNat = m.wAddrH[j].toNat ↔ i = j
  upper_inj  : ∀ i j : Fin 4, m.wAddrU[i].toNat = m.wAddrU[j].toNat ↔ i = j
  low_high   : ∀ i j : Fin 4, m.wAddrL[i].toNat ≠ m.wAddrH[j].toNat
  low_upper  : ∀ i j : Fin 4, m.wAddrL[i].toNat ≠ m.wAddrU[j].toNat
  high_upper : ∀ i j : Fin 4, m.wAddrH[i].toNat ≠ m.wAddrU[j].toNat
  low_ctl    : ∀ i : Fin 4, m.wAddrL[i].toNat ≠ m.wBrkCtl.toNat
  high_ctl   : ∀ i : Fin 4, m.wAddrH[i].toNat ≠ m.wBrkCtl.toNat
  upper_ctl  : ∀ i : Fin 4, m.wAddrU[i].toNat ≠ m.wBrkCtl.toNat
  master     : ∀ r ∈ breakRegs m, r ≠ m.wMasterCtl

theorem distinctRegs {m : RegMap} (h : mapDistinct m = true) : DistinctRegs m := by
  obtain ⟨hmaster, hnodup⟩ := mapDistinct_iff.mp h
  simp only [breakRegs, List.nodup_append, List.mem_append, List.mem_singleton, Vector.mem_toList_iff] at hnodup
  obtain ⟨⟨⟨hl, hh, hlh⟩, hu, hlhu⟩, -, hctl⟩ := hnodup
  exact {
    low_inj := getElem_inj_of_nodup hl
    high_inj := getElem_inj_of_nodup hh
    upper_inj := getElem_inj_of_nodup hu
    low_high := fun i j => mt BitVec.eq_of_toNat_eq (hlh _ (by simp) _ (by simp))
    low_upper := fun i j => mt BitVec.eq_of_toNat_eq (hlhu _ (.inl (by simp)) _ (by simp))
    high_upper := fun i j => mt BitVec.eq_of_toNat_eq (hlhu _ (.inr (by simp)) _ (by simp))
    low_ctl := fun i => mt BitVec.eq_of_toNat_eq (hctl _ (.inl (.inl (by simp))) _ rfl)
    high_ctl := fun i => mt BitVec.eq_of_toNat_eq (hctl _ (.inl (.inr (by simp))) _ rfl)
    upper_ctl := fun i => mt BitVec.eq_of_toNat_eq (hctl _ (.inr (by simp)) _ rfl)
    master := fun r hr heq => hmaster (heq ▸ hr) }

/-! ## What writes do to a register (R58, R61, R63) -/

/-- A frame of one byte away from the master-control register changes one register. -/
theorem Dev.read_write_one {m : RegMap} {d : Dev} (hw : d.w.wf = true) {a : RegIdx} (ha : a ≠ m.wMasterCtl) (b : Byte)
    (x : Nat) : (d.apply m (.write a [b])).w.read x = if x = a.toNat then b else d.w.read x := by
  have hne : a.toNat ≠ m.wMasterCtl.toNat := fun h => ha (BitVec.eq_of_toNat_eq h)
  change (d.store m a.toNat b).w.read x = _
  simp [Dev.read_store m d _ x b hw, hne, regIdx_le a]

/-- The reset trigger clears the breakpoint registers and stays in the master-control register (R63). -/
theorem Dev.read_reset_trigger {m : RegMap} {d : Dev} (hw : d.w.wf = true) (x : Nat) :
    (d.apply m (.write m.wMasterCtl [Config.resetCmd])).w.read x =
      if x ∈ (breakRegs m).map BitVec.toNat then 0 else if x = m.wMasterCtl.toNat then 0xF0 else d.w.read x := by
  change (d.store m m.wMasterCtl.toNat Config.resetCmd).w.read x = _
  simp [Dev.read_store m d _ x _ hw, regIdx_le m.wMasterCtl]

/-- A write burst that begins above the master-control register leaves what lies below it alone. -/
theorem Dev.read_storeAll_below (m : RegMap) {d : Dev} (hw : d.w.wf = true) {a x : Nat}
    (hmaster : m.wMasterCtl.toNat < a) (hx : x < a) (bs : List Byte) : (d.storeAll m a bs).w.read x = d.w.read x := by
  induction bs generalizing d a with
  | nil => rfl
  | cons b bs ih =>
    have hne : a ≠ m.wMasterCtl.toNat := by omega
    have hxa : x ≠ a := by omega
    rw [Dev.storeAll, ih (Dev.wf_store m d a b hw) (by omega) (by omega), Dev.read_store m d a x b hw]
    simp [hne, hxa]

theorem State.sent_wf {s : State} (hw : s.dev.w.wf = true) (f : Frame) : (s.sent f).dev.w.wf = true :=
  Dev.wf_apply s.map s.dev f hw

theorem State.sentAll_wf {s : State} (hw : s.dev.w.wf = true) (fs : List Frame) : (s.sentAll fs).dev.w.wf = true := by
  induction fs generalizing s with
  | nil => exact hw
  | cons f fs ih => exact ih (State.sent_wf hw f)

/-- The frame of one byte for one register. -/
def byteFrame (p : RegIdx × Byte) : Frame := .write p.1 [p.2]

/-- One-byte frames leave every other register alone. -/
theorem State.read_byteFrames_of_not_mem {s : State} (hw : s.dev.w.wf = true) {ws : List (RegIdx × Byte)}
    (hmaster : ∀ p ∈ ws, p.1 ≠ s.map.wMasterCtl) {x : Nat} (hx : ∀ p ∈ ws, x ≠ p.1.toNat) :
    (s.sentAll (ws.map byteFrame)).dev.w.read x = s.dev.w.read x := by
  induction ws generalizing s with
  | nil => rfl
  | cons p ws ih =>
    obtain ⟨hp, hws⟩ := List.forall_mem_cons.mp hmaster
    obtain ⟨hxp, hxs⟩ := List.forall_mem_cons.mp hx
    rw [List.map_cons, State.sentAll_cons, ih (State.sent_wf hw _) hws hxs, State.sent_dev, byteFrame,
      Dev.read_write_one hw hp, if_neg hxp]

/-- One-byte frames for different registers leave every one with its byte. -/
theorem State.read_byteFrames_of_mem {s : State} (hw : s.dev.w.wf = true) {ws : List (RegIdx × Byte)}
    (hmaster : ∀ p ∈ ws, p.1 ≠ s.map.wMasterCtl) (hnodup : (ws.map Prod.fst).Nodup) {p : RegIdx × Byte} (hp : p ∈ ws) :
    (s.sentAll (ws.map byteFrame)).dev.w.read p.1.toNat = p.2 := by
  induction ws generalizing s with
  | nil => cases hp
  | cons q ws ih =>
    obtain ⟨hq, hws⟩ := List.forall_mem_cons.mp hmaster
    obtain ⟨hfresh, hnodup⟩ := List.nodup_cons.mp hnodup
    have hwf := State.sent_wf hw (byteFrame q)
    rw [List.map_cons, State.sentAll_cons]
    rcases List.mem_cons.mp hp with rfl | hp
    · have hx : ∀ q ∈ ws, p.1.toNat ≠ q.1.toNat := fun q hq heq =>
        hfresh (List.mem_map.mpr ⟨q, hq, (BitVec.eq_of_toNat_eq heq).symm⟩)
      rw [State.read_byteFrames_of_not_mem hwf hws hx, State.sent_dev, byteFrame, Dev.read_write_one hw hq, if_pos rfl]
    · exact ih hwf hws hnodup hp

/-! ## RESET (R160, R161) -/

/-- The thirteen writes of RESET after the trigger. -/
def replayWrites (m : RegMap) (x : Session) : List (RegIdx × Byte) :=
  (List.finRange 4).flatMap (replaySlot m x) ++ [(m.wBrkCtl, x.packCtl)]

theorem resetWrites_eq (m : RegMap) (x : Session) :
    resetWrites m x = (m.wMasterCtl, Config.resetCmd) :: replayWrites m x := by
  rfl

theorem toList_four (v : Vector RegIdx 4) : v.toList = [v[(0 : Fin 4)], v[(1 : Fin 4)], v[(2 : Fin 4)], v[(3 : Fin 4)]] :=
  match v with
  | ⟨⟨[_, _, _, _]⟩, rfl⟩ => rfl

/-- The replay writes every breakpoint register, each once. -/
theorem replayWrites_perm (m : RegMap) (x : Session) : ((replayWrites m x).map Prod.fst).Perm (breakRegs m) := by
  rw [List.perm_iff_count]
  intro r
  have hslots : List.finRange 4 = [0, 1, 2, 3] := rfl
  simp only [replayWrites, replaySlot, breakRegs, hslots, toList_four, List.flatMap_cons, List.flatMap_nil, List.map_append,
    List.map_cons, List.map_nil, List.count_append, List.count_cons, List.count_nil]
  ring

theorem mem_breakRegs_of_replay {m : RegMap} {x : Session} {p : RegIdx × Byte} (hp : p ∈ replayWrites m x) :
    p.1 ∈ breakRegs m :=
  (replayWrites_perm m x).mem_iff.mp (List.mem_map_of_mem hp)

/-- To be coherent is to hold the bytes of the replay. -/
theorem coherent_iff_replay {s : State} :
    Coherent s ↔ ∀ p ∈ replayWrites s.map s.session, s.dev.w.read p.1.toNat = p.2 := by
  simp only [Coherent, replayWrites, replaySlot, List.forall_mem_append, List.forall_mem_flatMap, List.forall_mem_cons]
  simp

theorem resetFrames_eq (m : RegMap) (x : Session) :
    resetFrames m x = .write m.wMasterCtl [Config.resetCmd] :: (replayWrites m x).map byteFrame := by
  simp [resetFrames, resetWrites_eq, byteFrame]

theorem execReset_eq {s : State} (h : s.ready) :
    execReset s = .next ((s.sentAll (resetFrames s.map s.session)).respond (.ok .unit)) := by
  simp [execReset, h.1, sendAll_eq _ h, resetFrames]

/-- RESET leaves every breakpoint register at the byte of the replay, whatever it held (R161). -/
theorem State.read_resetFrames_of_mem {s : State} {x : Session} (hd : mapDistinct s.map = true)
    (hw : s.dev.w.wf = true) {p : RegIdx × Byte} (hp : p ∈ replayWrites s.map x) :
    (s.sentAll (resetFrames s.map x)).dev.w.read p.1.toNat = p.2 := by
  obtain ⟨-, hnodup⟩ := mapDistinct_iff.mp hd
  rw [resetFrames_eq, State.sentAll_cons]
  exact State.read_byteFrames_of_mem (State.sent_wf hw _)
    (fun q hq => (distinctRegs hd).master _ (mem_breakRegs_of_replay hq)) ((replayWrites_perm _ _).nodup_iff.mpr hnodup) hp

/-- Outside the breakpoint registers RESET stores the trigger only (R63). -/
theorem State.read_resetFrames_of_not_mem {s : State} {x : Session} (hd : mapDistinct s.map = true)
    (hw : s.dev.w.wf = true) {y : Nat} (hy : ∀ r ∈ breakRegs s.map, y ≠ r.toNat) :
    (s.sentAll (resetFrames s.map x)).dev.w.read y =
      if y = s.map.wMasterCtl.toNat then 0xF0 else s.dev.w.read y := by
  have hcleared : y ∉ (breakRegs s.map).map BitVec.toNat := fun hmem =>
    have ⟨r, hr, heq⟩ := List.mem_map.mp hmem
    hy r hr heq.symm
  rw [resetFrames_eq, State.sentAll_cons, State.read_byteFrames_of_not_mem (State.sent_wf hw _)
    (fun q hq => (distinctRegs hd).master _ (mem_breakRegs_of_replay hq)) (fun q hq => hy _ (mem_breakRegs_of_replay hq)),
    State.sent_dev, Dev.read_reset_trigger hw, if_neg hcleared]

/-- After RESET the target is coherent (R161). -/
theorem State.resetFrames_coherent {s : State} (hd : mapDistinct s.map = true) (hw : s.dev.w.wf = true) :
    Coherent (s.sentAll (resetFrames s.map s.session)) := by
  rw [coherent_iff_replay, State.sentAll_map, State.sentAll_session]
  exact fun p hp => State.read_resetFrames_of_mem hd hw hp

theorem Coherent.respond {s : State} (h : Coherent s) (r : Response) : Coherent (s.respond r) := h

/-- Settles O56: the replay writes each of the thirteen registers once, after the trigger. -/
theorem resetEstablishesCoherence : Obligations.ResetEstablishesCoherence := by
  intro s hr hd hw
  have hmaster : ∀ r ∈ breakRegs s.map, s.map.wMasterCtl.toNat ≠ r.toNat := fun r hr heq =>
    (distinctRegs hd).master r hr (BitVec.eq_of_toNat_eq heq).symm
  refine ⟨_, execReset_eq hr, (State.resetFrames_coherent hd hw).respond _, by simp, by simp, ?_, ?_⟩
  · rw [State.respond_dev, State.read_resetFrames_of_not_mem hd hw hmaster, if_pos rfl]
  · intro y hne hy
    rw [State.respond_dev, State.read_resetFrames_of_not_mem hd hw hy, if_neg hne]

/-! ## The breakpoint operations (R171, R174) -/

/-- The twelve address registers of the reference target equal the slots of the Session: the part of `Coherent` that the
control write does not touch. -/
def AddressesCoherent (s : State) : Prop :=
  ∀ i : Fin 4,
    s.dev.w.read s.map.wAddrU[i].toNat = (s.session.slot i).upper ∧
    s.dev.w.read s.map.wAddrH[i].toNat = (s.session.slot i).high ∧
    s.dev.w.read s.map.wAddrL[i].toNat = (s.session.slot i).low

theorem coherent_iff {s : State} :
    Coherent s ↔ AddressesCoherent s ∧ s.dev.w.read s.map.wBrkCtl.toNat = s.session.packCtl := Iff.rfl

/-- The flags of the Session do not matter to the addresses. -/
theorem AddressesCoherent.withSession {s : State} (h : AddressesCoherent s) {x : Session}
    (hx : x.bp = s.session.bp) : AddressesCoherent (s.withSession x) := by
  have hslot : ∀ i, x.slot i = s.session.slot i := fun i => by rw [Session.slot, Session.slot, hx]
  intro i
  rw [State.withSession_session, hslot]
  exact h i

/-- With coherent addresses the control write makes the target coherent (R171). -/
theorem AddressesCoherent.writeCtl {s : State} (h : AddressesCoherent s) (hd : DistinctRegs s.map)
    (hw : s.dev.w.wf = true) : Coherent (s.sent (.write s.map.wBrkCtl [s.session.packCtl])) := by
  have hread := Dev.read_write_one hw (hd.master _ (wBrkCtl_mem_breakRegs _)) s.session.packCtl
  refine coherent_iff.mpr ⟨fun i => ?_, (hread _).trans (if_pos rfl)⟩
  obtain ⟨hu, hh, hl⟩ := h i
  simp only [State.sent_dev, State.sent_map, State.sent_session, hread, hd.upper_ctl, hd.high_ctl, hd.low_ctl,
    if_false]
  exact ⟨hu, hh, hl⟩

/-- The frames of a differential write of a byte, if one is given (R174). -/
def differential (a : RegIdx) (cached : Byte) : Option Byte → List Frame
  | none => []
  | some v => if v = cached then [] else [.write a [v]]

theorem addressFrames_eq (m : RegMap) (x : Session) (q : SetArgs) :
    addressFrames m x q =
      differential m.wAddrU[q.slot] (x.slot q.slot).upper (some q.upper) ++
      differential m.wAddrH[q.slot] (x.slot q.slot).high (some q.high) ++
      differential m.wAddrL[q.slot] (x.slot q.slot).low q.low := by
  unfold addressFrames
  cases q.low <;> rfl

/-- The idea of SET_BREAKPOINT: when the register holds the cached byte, writing only a byte that differs does what writing
it always would do (R39, R174). -/
theorem State.read_differential {s : State} (hw : s.dev.w.wf = true) {a : RegIdx} (ha : a ≠ s.map.wMasterCtl)
    {cached : Byte} (hc : s.dev.w.read a.toNat = cached) (v : Option Byte) (x : Nat) :
    (s.sentAll (differential a cached v)).dev.w.read x = if x = a.toNat then v.getD cached else s.dev.w.read x := by
  have hsame : s.dev.w.read x = if x = a.toNat then cached else s.dev.w.read x := by
    split
    · rw [‹x = a.toNat›, hc]
    · rfl
  cases v with
  | none => exact hsame
  | some v =>
    rw [differential]
    split
    · rw [‹v = cached›]
      exact hsame
    · exact Dev.read_write_one hw ha v x

/-- The write space after the address writes of SET_BREAKPOINT: the three registers of the slot hold its address. -/
theorem AddressesCoherent.read_addressFrames {s : State} (hd : DistinctRegs s.map) (hw : s.dev.w.wf = true)
    (h : AddressesCoherent s) (q : SetArgs) (x : Nat) :
    (s.sentAll (addressFrames s.map s.session q)).dev.w.read x =
      if x = s.map.wAddrL[q.slot].toNat then q.low.getD (s.session.slot q.slot).low
      else if x = s.map.wAddrH[q.slot].toNat then q.high
      else if x = s.map.wAddrU[q.slot].toNat then q.upper
      else s.dev.w.read x := by
  obtain ⟨hu, hh, hl⟩ := h q.slot
  have hmU := hd.master _ (wAddrU_mem_breakRegs s.map q.slot)
  have hmH := hd.master _ (wAddrH_mem_breakRegs s.map q.slot)
  have hmL := hd.master _ (wAddrL_mem_breakRegs s.map q.slot)
  have hrU := State.read_differential hw hmU hu (some q.upper)
  have hh' := (hrU _).trans ((if_neg (hd.high_upper _ _)).trans hh)
  have hrH := State.read_differential (State.sentAll_wf hw _) (by rwa [State.sentAll_map]) hh' (some q.high)
  have hl' := (hrH _).trans ((if_neg (hd.low_high _ _)).trans ((hrU _).trans ((if_neg (hd.low_upper _ _)).trans hl)))
  have hrL := State.read_differential (State.sentAll_wf (State.sentAll_wf hw _) _)
    (by rwa [State.sentAll_map, State.sentAll_map]) hl' q.low
  rw [addressFrames_eq, State.sentAll_append, State.sentAll_append, hrL, hrH, hrU, Option.getD_some, Option.getD_some]

/-- The slots after SET_BREAKPOINT (R174). -/
theorem Session.afterSet_slot (x : Session) (q : SetArgs) (j : Fin 4) :
    (x.afterSet q).slot j =
      if j = q.slot then ⟨q.upper, q.high, q.low.getD (x.slot q.slot).low⟩ else x.slot j := by
  change (x.bp.set q.slot _)[j] = _
  simp [Vector.getElem_set, Session.slot, Fin.ext_iff, eq_comm]

/-- SET_BREAKPOINT changes the slot and its three registers together (R174). -/
theorem AddressesCoherent.afterSet {s : State} (hd : DistinctRegs s.map) (hw : s.dev.w.wf = true)
    (h : AddressesCoherent s) (q : SetArgs) :
    AddressesCoherent ((s.sentAll (addressFrames s.map s.session q)).withSession (s.session.afterSet q)) := by
  intro j
  obtain ⟨hu, hh, hl⟩ := h j
  simp only [State.withSession_dev, State.withSession_map, State.sentAll_map, State.withSession_session,
    h.read_addressFrames hd hw q, Session.afterSet_slot, hd.low_inj, hd.high_inj, hd.upper_inj, (hd.low_high _ _).symm,
    (hd.low_upper _ _).symm, (hd.high_upper _ _).symm, hd.low_high, hd.low_upper, hd.high_upper, if_false]
  split
  · exact ⟨rfl, rfl, rfl⟩
  · exact ⟨hu, hh, hl⟩

/-- BREAK_NOW, CONTINUE_AFTER_BREAK and DISABLE_BREAKPOINT keep the slots and write the control byte (R171). -/
theorem Coherent.writeCtl {s t : State} {x : Session} (hd : DistinctRegs s.map) (hw : s.dev.w.wf = true)
    (h : Coherent s) (hc : Machine.writeCtl (s.withSession x) = .next t) (hx : x.bp = s.session.bp) : Coherent t := by
  obtain ⟨haddr, -⟩ := coherent_iff.mp h
  obtain ⟨-, rfl⟩ := writeCtl_next hc
  exact ((haddr.withSession hx).writeCtl hd hw).respond _

theorem Coherent.execSetBreakpoint {s t : State} (hd : DistinctRegs s.map) (hw : s.dev.w.wf = true) (h : Coherent s)
    {n u hi : Int} {l : Option Int} (hx : Machine.execSetBreakpoint n u hi l s = .next t) : Coherent t := by
  obtain ⟨haddr, -⟩ := coherent_iff.mp h
  obtain ⟨-, ⟨c, -, rfl⟩ | ⟨q, -, -, rfl⟩⟩ := execSetBreakpoint_next hx
  · exact h.respond _
  · have hset := haddr.afterSet hd hw q
    have hwf := State.sentAll_wf hw (addressFrames s.map s.session q)
    have hctl := hset.writeCtl (by rwa [State.withSession_map, State.sentAll_map]) hwf
    rw [State.withSession_map, State.sentAll_map, State.withSession_session, ← State.withSession_sent] at hctl
    rw [State.sentAll_append]
    exact hctl.respond _

theorem Coherent.execDisableBreakpoint {s t : State} (hd : DistinctRegs s.map) (hw : s.dev.w.wf = true)
    (h : Coherent s) {n : Int} (hx : Machine.execDisableBreakpoint n s = .next t) : Coherent t := by
  obtain ⟨-, hx⟩ := whenOpen_eq_next hx
  split at hx
  · cases hx
    exact h.respond _
  · exact h.writeCtl hd hw hx rfl

/-! ## Transfers above the breakpoint registers (R58) -/

/-- The index lies above the breakpoint registers and the master-control register. -/
def AboveBreakRegs (m : RegMap) (a : RegIdx) : Prop := ∀ r ∈ m.wMasterCtl :: breakRegs m, r < a

/-- In a separate map every write burst of a transfer begins above these registers. -/
theorem aboveBreakRegs_of_storeOf {m : RegMap} (hm : mapSeparate m = true) {i : Instr} (hi : i.isHostCommand = true)
    {a : Int} {bs : List Byte} (hs : storeOf m i = some (a, bs)) (ha : registerOk a = true) :
    AboveBreakRegs m (regIdx a) := by
  intro r hr
  have hr := List.all_eq_true.mp hm r hr
  simp only [Bool.and_eq_true, decide_eq_true_eq] at hr
  obtain ⟨⟨⟨⟨⟨⟨⟨hmem, hmbase⟩, hbcu⟩, hdeu⟩, hix⟩, hiy⟩, hsp⟩, hbase⟩ := hr
  cases i with
  | writeMbaseFA _ | writeBcuBC _ | writeDeuDE _ | writeIx _ | writeIy _ | writeSp _ | writeMem _ =>
    cases hs
    rwa [regIdx_toNat]
  | executeInstructions ops =>
    cases hs
    simp only [registerOk, Bool.and_eq_true, decide_eq_true_eq] at ha
    rw [BitVec.le_def] at hbase
    rw [BitVec.lt_def, regIdx, BitVec.toNat_ofInt]
    simp only [isStart] at ha ⊢
    omega
  | writeBurst _ _ => exact absurd hi Bool.false_ne_true
  | _ => cases hs

/-- A transfer above the breakpoint registers leaves them alone. -/
theorem Transfers.read_breakReg {s t : State} {m : RegMap} (h : Transfers (AboveBreakRegs m) s t) (hm : s.map = m)
    (hw : s.dev.w.wf = true) {r : RegIdx} (hr : r ∈ breakRegs m) :
    t.dev.w.read r.toNat = s.dev.w.read r.toNat := by
  induction h with
  | refl => rfl
  | @sent s _ a bs ha _ ih =>
    have hmaster : s.map.wMasterCtl < a := hm ▸ ha _ List.mem_cons_self
    have hra : r < a := ha _ (List.mem_cons_of_mem _ hr)
    exact (ih hm (State.sent_wf hw _)).trans (Dev.read_storeAll_below s.map hw hmaster hra bs)
  | heard a n _ ih => exact ih hm hw

theorem Coherent.transfers {s t : State} (h : Coherent s) (hw : s.dev.w.wf = true)
    (ht : Transfers (AboveBreakRegs s.map) s t) : Coherent t := by
  obtain ⟨haddr, hctl⟩ := coherent_iff.mp h
  rw [coherent_iff, ht.map, ht.session, ht.read_breakReg rfl hw (wBrkCtl_mem_breakRegs _)]
  refine ⟨fun i => ?_, hctl⟩
  rw [ht.map, ht.session, ht.read_breakReg rfl hw (wAddrU_mem_breakRegs _ i),
    ht.read_breakReg rfl hw (wAddrH_mem_breakRegs _ i), ht.read_breakReg rfl hw (wAddrL_mem_breakRegs _ i)]
  exact haddr i

/-! ## One step -/

/-- Every host command that leaves the Link open keeps coherence. -/
theorem Coherent.hostCommand {s t : State} (h : Coherent s) (hr : s.ready) (hd : mapDistinct s.map = true)
    (hm : mapSeparate s.map = true) (hw : s.dev.w.wf = true) {i : Instr} (hi : i.isHostCommand = true)
    (hx : exec i s = .next t) (ho : t.link = .opened) : Coherent t := by
  by_cases hws : writesSession i = false
  · by_cases hreset : i = .reset
    · subst hreset
      obtain ⟨u, hu, hc, -⟩ := resetEstablishesCoherence s hr hd hw
      cases hu.symm.trans hx
      exact hc
    · obtain ⟨u, r, hu, rfl⟩ := transfer_cases hi hws hreset (fun _ _ => aboveBreakRegs_of_storeOf hm hi) hx
      exact (h.transfers hw hu).respond r
  · have hd := distinctRegs hd
    cases i with
    | linkOpen c d f =>
      obtain ⟨hopen, -⟩ := hr
      rw [exec, execLinkOpen_eq, if_pos (by simp [hopen])] at hx
      cases hx
    | close =>
      obtain ⟨hopen, -⟩ := hr
      rw [exec, execClose_eq hopen] at hx
      cases hx
      cases ho
    | setBreakpoint n u v l => exact h.execSetBreakpoint hd hw hx
    | disableBreakpoint n => exact h.execDisableBreakpoint hd hw hx
    | breakNow => exact h.writeCtl hd hw (whenOpen_eq_next hx).2 rfl
    | continueAfterBreak b => exact h.writeCtl hd hw (whenOpen_eq_next hx).2 rfl
    | _ => exact absurd rfl hws

/-- Settles O57: RESET establishes coherence, the breakpoint operations change the copy and its registers together, every
transfer stays above them. -/
theorem stepKeepsCoherence : Obligations.StepKeepsCoherence := by
  intro s t hidle hl hd hm hw hc hx ho
  rcases step_cases hx with rfl | ⟨rest, rfl⟩ | ⟨-, rest, i, hi, hx⟩
  · exact hc
  · exact hc
  · have hr := hidle.ready hl
    exact Coherent.hostCommand (s := { s with port := rest }) hc hr hd hm hw hi hx ho

end Sys2Proof.Machine
end

section
/-! PROOF. O51: the banks along one step. A frame and a clock pulse keep the canonical form of the write space and the
bounds on the place in a burst, and touch the read space nowhere (R51, R61, R70). -/

namespace Sys2Proof.Machine

/-- Bursts store bytes in canonical form, and leave the target before a separator or an answer (R58, R61). -/
theorem BanksInv.bursts {s t : State} (hb : Bursts s t) (h : BanksInv s) : BanksInv t := by
  induction hb with
  | refl => exact h
  | @sent s _ a bs _ _ _ ih =>
    obtain ⟨hw, hr, -⟩ := h
    exact ih ⟨State.sent_wf hw _, by rwa [State.sent_dev, Dev.apply_r], rfl⟩
  | heard a n _ _ _ ih =>
    obtain ⟨hw, hr, -⟩ := h
    exact ih ⟨hw, hr, rfl⟩
  | session x _ ih => exact ih h

/-- Bursts change no byte of the read space (R51). -/
theorem Bursts.read_space {s t : State} (h : Bursts s t) : t.dev.r = s.dev.r :=
  h.keeps (fun s => s.dev.r) (fun s f => Dev.apply_r s.map s.dev f) (fun _ _ _ => rfl) (fun _ _ => rfl)

/-- What LINK_OPEN does to the target: nothing, or one clock pulse (R236). -/
theorem State.linkOpened_dev (s : State) (c d : PinId) (f : Rat) :
    (s.linkOpened c d f).dev = s.dev ∨ ∃ v, (s.linkOpened c d f).dev = s.dev.pulse s.map v := by
  rw [State.linkOpened]
  dsimp only
  split
  · exact .inl rfl
  · exact .inr ⟨_, rfl⟩

/-- What CLOSE does to the target: nothing, a START seen at the role switch, or one clock pulse (log 31). -/
theorem State.linkClosed_dev (s : State) :
    s.linkClosed.dev = s.dev ∨ s.linkClosed.dev = { s.dev with bus := .address [] } ∨
      ∃ v, s.linkClosed.dev = s.dev.pulse s.map v := by
  rw [State.linkClosed]
  dsimp only
  split
  · exact .inr (.inr ⟨_, rfl⟩)
  · split
    · exact .inr (.inl rfl)
    · exact .inl rfl

theorem BanksInv.of_pulse {s t : State} (h : BanksInv s) {v : Bit} (ht : t.dev = s.dev.pulse s.map v) : BanksInv t := by
  obtain ⟨hw, hr, hbus⟩ := h
  rw [BanksInv, ht]
  exact ⟨Dev.wf_pulse _ _ v hw, by rwa [Dev.pulse_r], Dev.bus_wf_pulse _ _ v hbus⟩

theorem BanksInv.linkOpened {s : State} (h : BanksInv s) (c d : PinId) (f : Rat) : BanksInv (s.linkOpened c d f) := by
  rcases s.linkOpened_dev c d f with hd | ⟨v, hd⟩
  · rwa [BanksInv, hd]
  · exact h.of_pulse hd

theorem BanksInv.linkClosed {s : State} (h : BanksInv s) : BanksInv s.linkClosed := by
  rcases s.linkClosed_dev with hd | hd | ⟨v, hd⟩
  · rwa [BanksInv, hd]
  · obtain ⟨hw, hr, -⟩ := h
    rw [BanksInv, hd]
    exact ⟨hw, hr, rfl⟩
  · exact h.of_pulse hd

@[simp] theorem State.linkOpened_read_space (s : State) (c d : PinId) (f : Rat) :
    (s.linkOpened c d f).dev.r = s.dev.r := by
  rcases s.linkOpened_dev c d f with hd | ⟨v, hd⟩ <;> simp [hd]

@[simp] theorem State.linkClosed_read_space (s : State) : s.linkClosed.dev.r = s.dev.r := by
  rcases s.linkClosed_dev with hd | hd | ⟨v, hd⟩ <;> simp [hd]

/-- Settles O51: bursts, LINK_OPEN and CLOSE keep the banks, and no other change of a step reaches the target. -/
theorem stepKeepsTheBanks : Obligations.StepKeepsTheBanks := fun s _ hs hx =>
  step_keeps (fun u => BanksInv u ∧ u.dev.r = s.dev.r)
    (hport := fun _ _ h => h)
    (hresp := fun _ _ h => h)
    (hopen := fun u c d f _ _ _ ⟨hi, hr⟩ => ⟨hi.linkOpened c d f, (u.linkOpened_read_space c d f).trans hr⟩)
    (hclose := fun u _ _ ⟨hi, hr⟩ => ⟨hi.linkClosed, u.linkClosed_read_space.trans hr⟩)
    (hb := fun _ _ _ hb ⟨hi, hr⟩ => ⟨hi.bursts hb, hb.read_space.trans hr⟩)
    ⟨hs, rfl⟩ hx

end Sys2Proof.Machine
end

section
/-! PROOF. O42: the memory frame of the operations that store one burst. What the bytes of a burst leave at an index
depends on whether the index is one of theirs and on whether a reset trigger among them clears it afterwards (R58, R61,
R63). -/

namespace Sys2Proof.Machine

/-! ## The write space after the bytes of a burst -/

/-- Among bytes stored from index `a` on, the reset trigger arrives at the master-control register (R63). -/
abbrev Triggers (m : RegMap) (a : Nat) (bs : List Byte) : Prop :=
  a ≤ m.wMasterCtl.toNat ∧ bs[m.wMasterCtl.toNat - a]? = some Config.resetCmd

theorem triggers_iff {m : RegMap} {a : Nat} {bs : List Byte} :
    Triggers m a bs ↔ ∃ k, bs[k]? = some Config.resetCmd ∧ a + k = m.wMasterCtl.toNat := by
  constructor
  · rintro ⟨ha, hb⟩
    exact ⟨_, hb, Nat.add_sub_cancel' ha⟩
  · rintro ⟨k, hb, hk⟩
    rw [Triggers, ← hk, Nat.add_sub_cancel_left]
    exact ⟨Nat.le_add_right a k, hb⟩

theorem triggers_cons {m : RegMap} {a : Nat} {b : Byte} {bs : List Byte} :
    Triggers m a (b :: bs) ↔ Triggers m (a + 1) bs ∨ (a = m.wMasterCtl.toNat ∧ b = Config.resetCmd) := by
  rw [triggers_iff, triggers_iff]
  constructor
  · rintro ⟨_ | k, hb, hk⟩
    · exact .inr ⟨hk, Option.some.inj hb⟩
    · exact .inl ⟨k, hb, by omega⟩
  · rintro (⟨k, hb, hk⟩ | ⟨ha, rfl⟩)
    · exact ⟨k + 1, hb, by omega⟩
    · exact ⟨0, rfl, ha⟩

/-- Outside the burst only a reset trigger changes an index (R58, R63). -/
theorem Dev.read_storeAll_outside (m : RegMap) {d : Dev} (hw : d.w.wf = true) {a x : Nat} {bs : List Byte}
    (hx : x < a ∨ a + bs.length ≤ x) :
    (d.storeAll m a bs).w.read x =
      if Triggers m a bs ∧ x ∈ (breakRegs m).map BitVec.toNat then 0 else d.w.read x := by
  induction bs generalizing d a with
  | nil => simp [Dev.storeAll]
  | cons b bs ih =>
    rw [List.length_cons] at hx
    have hxa : ¬ (x = a ∧ a ≤ 127) := by omega
    rw [Dev.storeAll, ih (Dev.wf_store m d a b hw) (by omega), Dev.read_store m d a x b hw, if_neg hxa]
    simp only [triggers_cons, or_and_right, ite_or]

/-- Byte `k` of a burst stands at its index unless a reset trigger, maybe that byte itself, clears it (R61, R63). -/
theorem Dev.read_storeAll_inside (m : RegMap) {d : Dev} (hw : d.w.wf = true) {a k : Nat} {b : Byte} {bs : List Byte}
    (hb : bs[k]? = some b) (hk : a + k ≤ 127) :
    (d.storeAll m a bs).w.read (a + k) =
      if Triggers m (a + k) (bs.drop k) ∧ a + k ∈ (breakRegs m).map BitVec.toNat then 0 else b := by
  induction bs generalizing d a k with
  | nil => cases hb
  | cons c bs ih =>
    have hwf := Dev.wf_store m d a c hw
    cases k with
    | zero =>
      cases hb
      rw [Dev.storeAll, a.add_zero, List.drop_zero, Dev.read_storeAll_outside m hwf (.inl a.lt_add_one),
        Dev.read_store m d a a b hw, if_pos (c := a = a ∧ a ≤ 127) ⟨rfl, hk⟩]
      simp only [triggers_cons, or_and_right, ite_or]
    | succ k =>
      have hak : a + (k + 1) = a + 1 + k := by omega
      rw [hak] at hk ⊢
      exact ih hwf hb hk

/-! ## One burst, or a rejection -/

/-- What a completed operation that stores `bs` from index `a` on does to the target's banks and the frame trace. -/
def Stored (s t : State) (a : RegIdx) (bs : List Byte) : Prop :=
  t.dev.r = s.dev.r ∧ t.dev.w = (s.dev.storeAll s.map a.toNat bs).w ∧ t.frames ≠ s.frames

/-- Either an operation is rejected and nothing reaches the target, or it stores `bs` from the valid index `a` on. -/
def RejectedOrStored (s t : State) (a : Int) (bs : List Byte) : Prop :=
  (t.dev = s.dev ∧ t.frames = s.frames) ∨ ∃ r : RegIdx, a = r.toNat ∧ Stored s t r bs

theorem raise_rejected {c : Cause} {s t : State} (h : raise c s = .next t) (a : Int) (bs : List Byte) :
    RejectedOrStored s t a bs := by
  cases h
  exact .inl ⟨rfl, rfl⟩

theorem toNat_regIdx_of_registerOk {a : Int} (h : registerOk a = true) : a = (regIdx a).toNat := by
  simp only [registerOk, Bool.and_eq_true, decide_eq_true_eq] at h
  rw [regIdx, BitVec.toNat_ofInt]
  omega

/-- A write burst behind the checks of R113. -/
theorem sendFrame_stored {a : Int} {bs : List Byte} {s t : State} (hc : checkWrite a bs = none)
    (h : sendFrame (regIdx a) bs s = .next t) : RejectedOrStored s t a bs := by
  obtain ⟨-, -, rfl⟩ := sendFrame_next h
  exact .inr ⟨_, toNat_regIdx_of_registerOk (registerOk_of_checkWrite hc), Dev.apply_r _ _ _, rfl, by simp⟩

theorem memWrite_stored {a : Int} {bs : List Byte} {s t : State} (h : memWrite a bs s = .next t) :
    RejectedOrStored s t a bs := by
  unfold memWrite at h
  split at h
  · exact raise_rejected h a bs
  · rename_i hc
    obtain ⟨u, hu, h⟩ := andThen_eq_next h
    cases h
    exact (sendFrame_stored hc hu :)

theorem execWriteBurst_stored {a : Int} {bs : List Byte} {s t : State} (hx : execWriteBurst a bs s = .next t) :
    RejectedOrStored s t a bs := by
  obtain ⟨-, hx⟩ := whenOpen_eq_next hx
  split at hx
  · cases hx
    exact .inl ⟨rfl, rfl⟩
  · rename_i hc
    obtain ⟨u, hu, hx⟩ := andThen_eq_next hx
    cases hx
    exact (sendFrame_stored hc hu :)

/-- The status read before the burst moves the target's place in a burst only (R147). -/
theorem execWriteSp_stored {bs : List Byte} {s t : State} (hx : execWriteSp bs s = .next t) :
    RejectedOrStored s t s.map.spWrReg.toNat bs := by
  obtain ⟨-, hx⟩ := whenOpen_eq_next hx
  split at hx
  · exact raise_rejected hx _ bs
  · obtain ⟨⟨st, u⟩, hu, hx⟩ := andThen_eq_next hx
    obtain ⟨-, -, rfl⟩ := statusRead_next hu
    split at hx
    · cases hx
    · obtain ⟨v, hv, hx⟩ := andThen_eq_next hx
      cases hx
      obtain ⟨-, -, rfl⟩ := sendFrame_next hv
      refine .inr ⟨_, rfl, ?_, ?_, ?_⟩
      · simp [State.afterStatus]
      · simp [State.afterStatus, Dev.storeAll_atBus]
      · simp [State.afterStatus]

/-- What an operation that stores one burst can do when it answers a next state (R115, R135, R147, R151, R155). -/
theorem storeOf_cases {i : Instr} {s t : State} {a : Int} {bs : List Byte} (hs : storeOf s.map i = some (a, bs))
    (hx : exec i s = .next t) : RejectedOrStored s t a bs := by
  cases i with
  | writeMbaseFA _ | writeBcuBC _ | writeDeuDE _ | writeIx _ | writeIy _ | writeMem _ =>
    cases hs
    exact memWrite_stored (whenOpen_eq_next hx).2
  | writeSp _ =>
    cases hs
    exact execWriteSp_stored hx
  | executeInstructions ops =>
    cases hs
    obtain ⟨-, hx⟩ := whenOpen_eq_next hx
    split at hx
    · exact raise_rejected hx _ _
    · exact memWrite_stored hx
  | writeBurst _ _ =>
    cases hs
    exact execWriteBurst_stored hx
  | _ => cases hs

/-- Settles O42: a rejected operation leaves the target alone, a completed one stores its bytes in order, and a trigger
among them clears the breakpoint registers stored before it. -/
theorem oneBurstStoresOnlyItsBytes : Obligations.OneBurstStoresOnlyItsBytes := by
  intro i s t a bs hs hx hw trigger cleared
  rcases storeOf_cases hs hx with ⟨hdev, hframes⟩ | ⟨r, rfl, hread, hwrite, hframes⟩
  · exact ⟨by rw [hdev], fun _ => hdev, fun hne => absurd hframes hne⟩
  · refine ⟨hread, fun heq => absurd heq hframes, fun _ => ⟨fun y hy => ?_, fun k b hb hk => ?_⟩⟩
    · have htrigger : (∃ k, trigger k) ↔ Triggers s.map r.toNat bs := by
        rw [triggers_iff]
        exact exists_congr fun k => and_congr_right fun _ => by omega
      rw [hwrite, Dev.read_storeAll_outside s.map hw (by omega), htrigger]
      exact ⟨fun h => if_pos h, fun h => if_neg h⟩
    · have hidx : ((r.toNat : Int) + k).toNat = r.toNat + k := by omega
      have htrigger : (∃ l, k ≤ l ∧ trigger l) ↔ Triggers s.map (r.toNat + k) (bs.drop k) := by
        rw [triggers_iff]
        constructor
        · rintro ⟨l, hkl, hl, hm⟩
          exact ⟨l - k, by rwa [List.getElem?_drop, Nat.add_sub_cancel' hkl], by omega⟩
        · rintro ⟨j, hj, hm⟩
          exact ⟨k + j, by omega, by rwa [← List.getElem?_drop], by omega⟩
      rw [hidx, hwrite, Dev.read_storeAll_inside s.map hw hb (by omega), htrigger]
      exact ⟨fun h => if_pos h, fun h => if_neg h⟩

end Sys2Proof.Machine
end

section
/-! PROOF. O43: the memory frame of the operations that send no write burst. Read bursts store nothing, and of the pin
events only a rising edge of ZCL can: LINK_OPEN, CLOSE, WRITE_BIT and READ_BIT have one at most (R51, R57, R61). -/

namespace Sys2Proof.Machine

/-! ## What does not store -/

/-- No byte of either bank differs. -/
def SameBanks (s t : State) : Prop := t.dev.w = s.dev.w ∧ t.dev.r = s.dev.r

theorem SameBanks.of_dev {s t : State} {x : Bus} (h : t.dev = { s.dev with bus := x }) : SameBanks s t :=
  ⟨by rw [h], by rw [h]⟩

/-- Without a write burst a transfer leaves both banks alone. -/
theorem Transfers.sameBanks {s t : State} (h : Transfers (fun _ => False) s t) : SameBanks s t := by
  induction h with
  | refl => exact ⟨rfl, rfl⟩
  | sent _ _ ha _ _ => exact ha.elim
  | heard _ _ _ ih => exact ih

/-- An event that is no rising edge of ZCL changes no byte of the write space. -/
theorem Dev.see_w {m : RegMap} {p : Pins} {z : Bit} {d : Dev} {e : Event} (he : e ≠ .drive .zcl true) :
    (d.see m p z e).w = d.w := by
  rcases Dev.see_cases m p z d e with ⟨x, h⟩ | ⟨v, h, -⟩
  · rw [h]
  · exact absurd h he

theorem State.emits_sameBanks (s : State) {es : List Event} (hes : .drive .zcl true ∉ es) :
    SameBanks s (s.emits es) := by
  refine ⟨?_, State.emits_dev_r s es⟩
  induction es generalizing s with
  | nil => rfl
  | cons e es ih =>
    obtain ⟨he, hes⟩ := not_or.mp (mt List.mem_cons.mpr hes)
    exact (ih (s.emit e) hes).trans (Dev.see_w (Ne.symm he))

/-! ## One clock pulse -/

/-- The target takes one clock pulse with the level `v`, as far as its banks show. -/
def Pulsed (s t : State) (v : Bit) : Prop := t.dev.w = (s.dev.pulse s.map v).w ∧ t.dev.r = s.dev.r

theorem Pulsed.of_dev {s t : State} {v : Bit} (h : t.dev = s.dev.pulse s.map v) : Pulsed s t v :=
  ⟨by rw [h], by rw [h, Dev.pulse_r]⟩

/-- WRITE_BIT is a pulse with its bit, whatever the level of ZDA before (R92, R95). -/
theorem writeBit_pulsed {v : Bit} {s t : State} (hx : writeBit v s = .next t) : Pulsed s t v := by
  unfold writeBit at hx
  split at hx
  · rename_i hc
    obtain ⟨-, hrole, hzcl⟩ := hc
    cases hx
    have hpins : s.pins = Pins.between s.pins.zdaOut := by rw [Pins.between, ← hrole, ← hzcl]
    refine .of_dev (?_ : (s.emits (writeBitEvents v)).dev = s.dev.pulse s.map v)
    rw [State.emits_dev, hpins, Dev.watch_writeBit]
  · cases hx

/-- READ_BIT is a pulse with a level the controller does not drive (R94, log 31). -/
theorem execReadBit_pulsed {s t : State} (hx : execReadBit s = .next t) : ∃ v, Pulsed s t v := by
  obtain ⟨p, hp, hx⟩ := andThen_eq_next hx
  cases hx
  unfold readBit at hp
  split at hp
  · rename_i hc
    obtain ⟨-, hrole, hzcl⟩ := hc
    cases hp
    refine ⟨Config.undriven s.trace.length, .of_dev ?_⟩
    simp [State.emits_dev, Dev.watch, Dev.see, Pins.after, hrole, hzcl]
  · cases hp

/-- The operations that can raise ZCL: one pulse at most (R90, R92, R94, R99). -/
def canPulse : Instr → Bool
  | .linkOpen _ _ _ => true
  | .close => true
  | .writeBit _ => true
  | .readBit => true
  | _ => false

/-- What an operation without a write burst can do to the banks: nothing, or one pulse, of WRITE_BIT with its bit. -/
def UnchangedOrPulsed (i : Instr) (s t : State) : Prop :=
  SameBanks s t ∨ canPulse i = true ∧ ∃ v, (∀ x, i = .writeBit x → x = v) ∧ Pulsed s t v

theorem execLinkOpen_banks {c d : PinId} {f : Rat} {s t : State} (hx : execLinkOpen c d f s = .next t) :
    UnchangedOrPulsed (.linkOpen c d f) s t := by
  rw [execLinkOpen_eq] at hx
  split at hx
  · cases hx
  · split at hx <;> cases hx
    · exact .inl ⟨rfl, rfl⟩
    · rcases s.linkOpened_dev c d f with hd | ⟨v, hd⟩
      · exact .inl (.of_dev hd)
      · exact .inr ⟨rfl, v, nofun, .of_dev hd⟩

theorem execClose_banks {s t : State} (hx : execClose s = .next t) : UnchangedOrPulsed .close s t := by
  rw [execClose_eq (whenOpen_eq_next hx).1] at hx
  cases hx
  rcases s.linkClosed_dev with hd | hd | ⟨v, hd⟩
  · exact .inl (.of_dev hd)
  · exact .inl (.of_dev hd)
  · exact .inr ⟨rfl, v, nofun, .of_dev hd⟩

/-- An internal operation but WRITE_BURST. -/
theorem internal_banks {i : Instr} {s t : State} (hi : i.isHostCommand = false) (hs : storeOf s.map i = none)
    (hx : exec i s = .next t) : UnchangedOrPulsed i s t := by
  cases i with
  | writeBit v => exact .inr ⟨rfl, v, fun _ h => (Instr.writeBit.inj h).symm, writeBit_pulsed hx⟩
  | readBit =>
    obtain ⟨v, hv⟩ := execReadBit_pulsed hx
    exact .inr ⟨rfl, v, nofun, hv⟩
  | start | clockLow =>
    rw [eq_of_guarded hx]
    exact .inl (s.emits_sameBanks (by simp))
  | setDataDirection r =>
    obtain ⟨-, hx⟩ := whenOpen_eq_next hx
    split at hx <;> cases hx
    · exact .inl ⟨rfl, rfl⟩
    · exact .inl (s.emits_sameBanks (by simp))
  | endBurst =>
    rw [eq_of_guarded (whenOpen_eq_next hx).2]
    split
    · exact .inl (s.emits_sameBanks (by simp))
    · exact .inl ⟨rfl, rfl⟩
  | readBurst a n =>
    obtain ⟨-, hx⟩ := whenOpen_eq_next hx
    split at hx
    · cases hx
      exact .inl ⟨rfl, rfl⟩
    · obtain ⟨p, hp, hx⟩ := andThen_eq_next hx
      cases hx
      exact .inl (recvFrame_transfers hp).sameBanks
  | readStatus =>
    obtain ⟨p, hp, hx⟩ := andThen_eq_next (whenOpen_eq_next hx).2
    cases hx
    exact .inl (statusRead_transfers hp).sameBanks
  | writeBurst a bs => cases hs
  | _ => exact absurd hi.symm Bool.false_ne_true

/-- The operations that send no write burst. -/
theorem noStore_cases {i : Instr} {s t : State} (hs : storeOf s.map i = none) (hreset : i ≠ .reset)
    (hset : ∀ id u h l, i ≠ .setBreakpoint id u h l) (hdisable : ∀ id, i ≠ .disableBreakpoint id)
    (hbreak : i ≠ .breakNow) (hcontinue : ∀ b, i ≠ .continueAfterBreak b) (hx : exec i s = .next t) :
    UnchangedOrPulsed i s t := by
  cases hi : i.isHostCommand with
  | false => exact internal_banks hi hs hx
  | true =>
    by_cases hw : writesSession i = false
    · obtain ⟨u, r, hu, rfl⟩ := transfer_cases (P := fun _ => False) hi hw hreset (by simp [hs]) hx
      exact .inl hu.sameBanks
    · cases i with
      | linkOpen c d f => exact execLinkOpen_banks hx
      | close => exact execClose_banks hx
      | setBreakpoint n u h l => exact absurd rfl (hset n u h l)
      | disableBreakpoint n => exact absurd rfl (hdisable n)
      | breakNow => exact absurd rfl hbreak
      | continueAfterBreak b => exact absurd rfl (hcontinue b)
      | _ => exact absurd rfl hw

theorem UnchangedOrPulsed.read_space {i : Instr} {s t : State} (h : UnchangedOrPulsed i s t) : t.dev.r = s.dev.r := by
  rcases h with ⟨-, hr⟩ | ⟨-, v, -, -, hr⟩ <;> exact hr

/-- The write space changes only by a pulse that is the eighth bit of a byte. -/
theorem UnchangedOrPulsed.write_space {i : Instr} {s t : State} (h : UnchangedOrPulsed i s t) :
    t.dev.w = s.dev.w ∨ canPulse i = true ∧ ∃ v a bits, (∀ x, i = .writeBit x → x = v) ∧ s.dev.bus = .data a bits ∧
      7 ≤ bits.length ∧ t.dev.w = (s.dev.store s.map a (byteOfBits (bits ++ [v]))).w := by
  rcases h with ⟨hw, -⟩ | ⟨hi, v, hv, hw, -⟩
  · exact .inl hw
  · rcases Dev.pulse_cases s.map s.dev v with ⟨x, hp⟩ | ⟨a, bits, hbus, hlen, hp⟩
    · exact .inl (by rw [hw, hp])
    · exact .inr ⟨hi, v, a, bits, hv, hbus, hlen, by rw [hw, hp]⟩

/-- Settles O43: of the operations without a write burst only those that can raise ZCL reach the write space, and only
with the eighth bit of a byte, which is stored. -/
theorem otherOperationsStoreOnlyAClockedByte : Obligations.OtherOperationsStoreOnlyAClockedByte := by
  intro i s t hs hreset hset hdisable hbreak hcontinue hx
  have hcases := noStore_cases hs hreset hset hdisable hbreak hcontinue hx
  rcases hcases.write_space with hw | ⟨hpulse, v, a, bits, hv, hbus, hlen, hw⟩
  · exact ⟨hcases.read_space, fun _ _ _ _ => hw, fun _ => hw, fun _ _ _ _ _ => .inl hw⟩
  · refine ⟨hcases.read_space, fun hwriteBit hreadBit hclose hopen => ?_, fun hshort => ?_,
      fun a' bits' hwf hbus' _ => ?_⟩
    · cases i with
      | linkOpen c d f => exact absurd rfl (hopen c d f)
      | close => exact absurd rfl hclose
      | writeBit x => exact absurd rfl (hwriteBit x)
      | readBit => exact absurd rfl hreadBit
      | _ => cases hpulse
    · exact absurd (hshort a bits hbus) (Nat.not_lt.mpr hlen)
    · cases hbus.symm.trans hbus'
      refine .inr ⟨v, hv, fun y => ?_⟩
      rw [hw, Dev.read_store s.map s.dev a y _ hwf]
      simp only [and_assoc]

end Sys2Proof.Machine
end

section
/-! PROOF. O3, O2, O45, O46: the encodings of spec/30_encoding.md, decoded. -/

namespace Sys2Proof.Machine

/-! ## Bit lists (R110, R111) -/

@[simp] theorem length_numberToBits (n w : Nat) : (numberToBits n w).length = w := by
  induction w with
  | zero => rfl
  | succ w ih => rw [numberToBits, List.length_cons, ih]

/-- The bits of `n` at width `w` are those of `n % 2 ^ w` (log 30). -/
theorem bitsToNumber_numberToBits (n w : Nat) : bitsToNumber (numberToBits n w) = n % 2 ^ w := by
  induction w with
  | zero => rw [numberToBits, bitsToNumber, pow_zero, Nat.mod_one]
  | succ w ih =>
    calc bitsToNumber (numberToBits n (w + 1))
        = n / 2 ^ w % 2 * 2 ^ w + n % 2 ^ w := by
          rw [numberToBits, bitsToNumber, length_numberToBits, ih, Nat.toNat_testBit]
      _ = n % 2 ^ (w + 1) := by rw [Nat.mod_pow_succ, mul_comm, add_comm]

@[simp] theorem bitsToNumber_regBits (a : RegIdx) : bitsToNumber (regBits a) = a.toNat := by
  rw [regBits, bitsToNumber_numberToBits, Nat.mod_eq_of_lt a.isLt]

/-! ## The wire formats (R71, R72) -/

theorem decodePayload_encodeByte (b : Byte) : decodePayload (encodeByte b) = some [b] :=
  congrArg (fun c => some [c]) (byteOfBits_byteBits b)

theorem decodePayload_encodeByte_append (b : Byte) {rest : List Sym} (h : rest ≠ []) :
    decodePayload (encodeByte b ++ rest) = (decodePayload rest).map (b :: ·) := by
  obtain ⟨y, ys, rfl⟩ := List.exists_cons_of_ne_nil h
  exact congrArg (fun c => (decodePayload (y :: ys)).map (c :: ·)) (byteOfBits_byteBits b)

theorem decodePayload_flatMap_encodeByte {bs : List Byte} (h : bs ≠ []) :
    decodePayload (bs.flatMap encodeByte) = some bs := by
  induction bs with
  | nil => exact absurd rfl h
  | cons b bs ih =>
    rw [List.flatMap_cons]
    cases bs with
    | nil => rw [List.flatMap_nil, List.append_nil, decodePayload_encodeByte]
    | cons c cs =>
      rw [decodePayload_encodeByte_append b (by simp [encodeByte]), ih (List.cons_ne_nil c cs), Option.map_some]

theorem decodeReadBody_encodeReadBody (n : Nat) : decodeReadBody (encodeReadBody (n + 1)) = some (n + 1) := by
  induction n with
  | zero => rfl
  | succ n ih =>
    have hmore : decodeReadBody (encodeReadBody (n + 2)) = (decodeReadBody (encodeReadBody (n + 1))).map (· + 1) := rfl
    rw [hmore, ih, Option.map_some]

theorem decodeW_header {a : RegIdx} {body : List Sym} {bs : List Byte} (h : decodePayload body = some bs) :
    decodeW (encodeHeader a false ++ body) = .ok (.writeBurst a.toNat bs) := by
  have hheader : decodeW (encodeHeader a false ++ body) = match decodePayload body with
    | some bs => .ok (.writeBurst (bitsToNumber (regBits a)) bs)
    | none => .error .notWriteBurst := rfl
  rw [hheader, h, bitsToNumber_regBits]

theorem decodeR_header {a : RegIdx} {body : List Sym} {n : Nat} (h : decodeReadBody body = some n) :
    decodeR (encodeHeader a true ++ body) = .ok (.readBurst a.toNat n) := by
  have hheader : decodeR (encodeHeader a true ++ body) = match decodeReadBody body with
    | some n => .ok (.readBurst (bitsToNumber (regBits a)) n)
    | none => .error .notReadBurst := rfl
  rw [hheader, h, bitsToNumber_regBits]

theorem decode_encode_writeBurst (m : RegMap) {a : Int} {bs : List Byte}
    (h : (Instr.writeBurst a bs).wellFormed = true) :
    decode m (encode m (.writeBurst a bs)) = .ok (.writeBurst a bs) := by
  obtain ⟨ha, hbs⟩ : regEncodable a = true ∧ bs ≠ [] := by simpa [Instr.wellFormed] using h
  have hreg : a = (regIdx a).toNat := toNat_regIdx_of_registerOk ha
  calc decode m (encode m (.writeBurst a bs))
      = .ok (.writeBurst (regIdx a).toNat bs) := decodeW_header (decodePayload_flatMap_encodeByte hbs)
    _ = .ok (.writeBurst a bs) := by rw [← hreg]

theorem decode_encode_readBurst (m : RegMap) {a count : Int} (h : (Instr.readBurst a count).wellFormed = true) :
    decode m (encode m (.readBurst a count)) = .ok (.readBurst a count) := by
  obtain ⟨ha, hcount⟩ : regEncodable a = true ∧ 1 ≤ count := by simpa [Instr.wellFormed] using h
  obtain ⟨n, rfl⟩ : ∃ n : Nat, count = (n + 1 : Nat) := ⟨(count - 1).toNat, by omega⟩
  have hreg : a = (regIdx a).toNat := toNat_regIdx_of_registerOk ha
  calc decode m (encode m (.readBurst a (n + 1 : Nat)))
      = .ok (.readBurst (regIdx a).toNat (n + 1 : Nat)) := decodeR_header (decodeReadBody_encodeReadBody n)
    _ = .ok (.readBurst a (n + 1 : Nat)) := by rw [← hreg]

/-- Settles O3, by the format of the encoding: a host command is found in the selector table, a burst is read back
byte by byte. -/
theorem decodeOfEncodeIsTheInstruction : Obligations.DecodeOfEncodeIsTheInstruction := by
  intro m i hwf
  cases i with
  | writeBurst a bs => exact decode_encode_writeBurst m hwf
  | readBurst a count => exact decode_encode_readBurst m hwf
  | readStatus => exact if_pos rfl
  | _ => rfl

/-- Settles O2, by evaluating the decoder on each word. -/
theorem tableWordsDecode : Obligations.TableWordsDecode :=
  ⟨rfl, rfl, rfl, rfl, rfl, fun _ => rfl, fun _ => rfl⟩

/-! ## The command port (R80, R81, R87) -/

/-- A selector outside the table has no command (R87). -/
theorem decodeCommand_unassigned {c : Command} (h : c.selector ∉ portTable.map PortRow.selector) :
    decodeCommand c = .error (.unknownSelector c.selector) := by
  have hnone : (portTable.find? fun row => row.selector == c.selector) = none := by
    rw [List.find?_eq_none]
    intro row hrow heq
    exact h (List.mem_map.mpr ⟨row, hrow, beq_iff_eq.mp heq⟩)
  rw [decodeCommand, hnone]

/-- Settles O45, by the definition of a step. -/
theorem stepRunsTheDecodedCommand : Obligations.StepRunsTheDecodedCommand := by
  intro s c rest i hseq hport hdecode
  simp [step, hseq, hport, hdecode]

/-- Settles O46: an unassigned selector is in no row of the selector table. -/
theorem stepWithoutACommand : Obligations.StepWithoutACommand := by
  refine ⟨fun s c rest hseq hport hsel => ?_, fun s hwait => ?_⟩
  · have hdecode := decodeCommand_unassigned (c := c) hsel
    simp [step, hseq, hport, hdecode, raise, State.respond]
  · rcases hwait with hport | hseq
    · simp [step, hport]
    · simp [step, hseq]

end Sys2Proof.Machine
end

section
/-! PROOF. O4: the parser of the event grammar undoes the generator (R78, R79), piece by piece: a `take…` function given
what it takes followed by any rest answers exactly that and the rest. -/

namespace Sys2Proof.Machine

/-! ## The pieces -/

@[simp] theorem takeBit_writeBitEvents (v : Bit) (rest : List Event) :
    takeBit (writeBitEvents v ++ rest) = some (v, rest) := rfl

@[simp] theorem takeLow_clockLowEvents (rest : List Event) : takeLow (clockLowEvents ++ rest) = some rest := rfl

@[simp] theorem takeStart_startEvents (rest : List Event) : takeStart (startEvents ++ rest) = some rest := rfl

@[simp] theorem takeRole_roleEvents (r : Role) (rest : List Event) :
    takeRole r (roleEvents r ++ rest) = some rest := if_pos rfl

@[simp] theorem takeEnd_endBurstEvents (v : Bit) (rest : List Event) :
    takeEnd v (endBurstEvents v ++ rest) = some rest := by
  cases v <;> rfl

theorem lowBitsEvents_cons (v : Bit) (vs : List Bit) :
    lowBitsEvents (v :: vs) = writeBitEvents v ++ clockLowEvents ++ lowBitsEvents vs := rfl

theorem lowBitsEvents_append (us vs : List Bit) :
    lowBitsEvents (us ++ vs) = lowBitsEvents us ++ lowBitsEvents vs := List.flatMap_append

theorem highBitsEvents_concat (vs : List Bit) (v : Bit) :
    highBitsEvents (vs ++ [v]) = lowBitsEvents vs ++ writeBitEvents v := by
  induction vs with
  | nil => rfl
  | cons u us ih =>
    have hcons : highBitsEvents (u :: (us ++ [v])) = writeBitEvents u ++ clockLowEvents ++ highBitsEvents (us ++ [v]) := by
      cases us <;> rfl
    rw [List.cons_append, hcons, ih, lowBitsEvents_cons, List.append_assoc _ _ (writeBitEvents v)]

theorem takeLowBits_lowBitsEvents (vs : List Bit) (rest : List Event) :
    takeLowBits vs.length (lowBitsEvents vs ++ rest) = some (vs, rest) := by
  induction vs with
  | nil => rfl
  | cons v vs ih => simp [takeLowBits, lowBitsEvents_cons, ih]

theorem takeSensed_readBitEvents (vs : List Bit) (rest : List Event) :
    takeSensed vs.length (vs.flatMap readBitEvents ++ rest) = some (vs, rest) := by
  induction vs with
  | nil => rfl
  | cons v vs ih => simp [takeSensed, readBitEvents, ih]

/-! ## The bits of a byte, the last one apart -/

/-- The bits of a byte but the last, in wire order. -/
def highBits (b : Byte) : List Bit := (byteBits b).dropLast

/-- The last bit of a byte in wire order. -/
def lastBit (b : Byte) : Bit := b.getLsbD 0

theorem byteBits_eq (b : Byte) : byteBits b = highBits b ++ [lastBit b] := rfl

@[simp] theorem byteOfBits_highBits (b : Byte) : byteOfBits (highBits b ++ [lastBit b]) = b := byteOfBits_byteBits b

@[simp] theorem lowBitsEvents_byteBits (b : Byte) :
    lowBitsEvents (byteBits b) = lowBitsEvents (highBits b) ++ (writeBitEvents (lastBit b) ++ clockLowEvents) := by
  rw [byteBits_eq, lowBitsEvents_append]
  rfl

@[simp] theorem highBitsEvents_byteBits (b : Byte) :
    highBitsEvents (byteBits b) = lowBitsEvents (highBits b) ++ writeBitEvents (lastBit b) :=
  highBitsEvents_concat (highBits b) (lastBit b)

@[simp] theorem takeLowBits_highBits (b : Byte) (rest : List Event) :
    takeLowBits 7 (lowBitsEvents (highBits b) ++ rest) = some (highBits b, rest) :=
  takeLowBits_lowBitsEvents (highBits b) rest

@[simp] theorem takeLowBits_regBits (a : RegIdx) (rest : List Event) :
    takeLowBits 7 (lowBitsEvents (regBits a) ++ rest) = some (regBits a, rest) :=
  takeLowBits_lowBitsEvents (regBits a) rest

@[simp] theorem takeSensed_byteBits (b : Byte) (rest : List Event) :
    takeSensed 8 ((byteBits b).flatMap readBitEvents ++ rest) = some (byteBits b, rest) :=
  takeSensed_readBitEvents (byteBits b) rest

/-! ## The bodies -/

/-- The last byte of a write burst: no `CL` comes after its last bit, so the end is taken (R119). -/
theorem takeWriteBody_last (fuel : Nat) (b : Byte) {rest : List Event} (hrest : takeLow rest = none) :
    takeWriteBody (fuel + 1) (writeBodyEvents [b] ++ (writeEndEvents [b] ++ rest)) = some ([b], rest) := by
  have hend : takeLow (endBurstEvents (lastBit b) ++ rest) = none := by
    cases lastBit b with
    | true => exact hrest
    | false => rfl
  have hlast : writeEndEvents [b] = endBurstEvents (lastBit b) := rfl
  simp [takeWriteBody, writeBodyEvents, hlast, hend]

/-- A byte of a write burst with another one after it. -/
theorem takeWriteBody_more {fuel : Nat} {c : Byte} {cs : List Byte} {evs rest : List Event} (b : Byte)
    (h : takeWriteBody fuel (writeBodyEvents (c :: cs) ++ evs) = some (c :: cs, rest)) :
    takeWriteBody (fuel + 1) (writeBodyEvents (b :: c :: cs) ++ evs) = some (b :: c :: cs, rest) := by
  simp [takeWriteBody, writeBodyEvents_cons, h]

theorem takeWriteBody_events {fuel : Nat} {bs : List Byte} {rest : List Event} (hbs : bs ≠ [])
    (hfuel : bs.length ≤ fuel) (hrest : takeLow rest = none) :
    takeWriteBody fuel (writeBodyEvents bs ++ (writeEndEvents bs ++ rest)) = some (bs, rest) := by
  induction bs generalizing fuel with
  | nil => exact absurd rfl hbs
  | cons b bs ih =>
    obtain ⟨fuel, rfl⟩ := Nat.exists_eq_add_one_of_ne_zero (Nat.ne_zero_of_lt hfuel)
    cases bs with
    | nil => exact takeWriteBody_last fuel b hrest
    | cons c cs => exact takeWriteBody_more b (ih (List.cons_ne_nil c cs) (Nat.le_of_succ_le_succ hfuel))

theorem takeReadBody_last (fuel : Nat) (b : Byte) (rest : List Event) :
    takeReadBody (fuel + 1) (readBodyEvents [b] ++ rest) = some ([b], rest) := by
  simp [takeReadBody, readBodyEvents, readByteEvents, byteOfBits_byteBits]

theorem takeReadBody_more {fuel : Nat} {c : Byte} {cs : List Byte} {evs rest : List Event} (b : Byte)
    (h : takeReadBody fuel (readBodyEvents (c :: cs) ++ evs) = some (c :: cs, rest)) :
    takeReadBody (fuel + 1) (readBodyEvents (b :: c :: cs) ++ evs) = some (b :: c :: cs, rest) := by
  simp [takeReadBody, readBodyEvents_cons, readByteEvents, byteOfBits_byteBits, h]

theorem takeReadBody_events {fuel : Nat} {rx : List Byte} {rest : List Event} (hrx : rx ≠ [])
    (hfuel : rx.length ≤ fuel) : takeReadBody fuel (readBodyEvents rx ++ rest) = some (rx, rest) := by
  induction rx generalizing fuel with
  | nil => exact absurd rfl hrx
  | cons b rx ih =>
    obtain ⟨fuel, rfl⟩ := Nat.exists_eq_add_one_of_ne_zero (Nat.ne_zero_of_lt hfuel)
    cases rx with
    | nil => exact takeReadBody_last fuel b rest
    | cons c cs => exact takeReadBody_more b (ih (List.cons_ne_nil c cs) (Nat.le_of_succ_le_succ hfuel))

/-! ## One frame -/

/-- The bytes of a frame. -/
def payload : Frame → List Byte
  | .write _ bs => bs
  | .read _ _ rx => rx

theorem headerEvents_eq (a : RegIdx) (dir : Bit) :
    headerEvents a dir = startEvents ++ (lowBitsEvents (regBits a) ++ (writeBitEvents dir ++ clockLowEvents)) := by
  rw [headerEvents, lowBitsEvents_append]
  rfl

theorem takeFrame_write {fuel : Nat} {a : RegIdx} {evs rest : List Event} {bs : List Byte}
    (h : takeWriteBody fuel evs = some (bs, rest)) :
    takeFrame fuel (headerEvents a false ++ evs) = some (.write a bs, rest) := by
  simp [takeFrame, headerEvents_eq, regOfBits_regBits, h]

theorem takeFrame_read {fuel : Nat} {a : RegIdx} {evs rest : List Event} {rx : List Byte}
    (h : takeReadBody fuel evs = some (rx, rest)) :
    takeFrame fuel (headerEvents a true ++ evs) = some (.read a rx.length rx, rest) := by
  simp [takeFrame, headerEvents_eq, regOfBits_regBits, h]

theorem takeFrame_events {fuel : Nat} {f : Frame} {rest : List Event} (hf : frameComplete f = true)
    (hfuel : (payload f).length ≤ fuel) (hrest : takeLow rest = none) :
    takeFrame fuel (f.events ++ rest) = some (f, rest) := by
  cases f with
  | write a bs =>
    have hbs : bs ≠ [] := by simpa [frameComplete] using hf
    rw [Frame.events, List.append_assoc, List.append_assoc]
    exact takeFrame_write (takeWriteBody_events hbs hfuel hrest)
  | read a n rx =>
    obtain ⟨hn, rfl⟩ : 1 ≤ n ∧ rx.length = n := by simpa [frameComplete] using hf
    rw [Frame.events, List.append_assoc]
    exact takeFrame_read (takeReadBody_events (List.ne_nil_of_length_pos hn) hfuel)

/-! ## All frames -/

/-- Every frame begins with a START, never with `CL`. -/
theorem takeLow_flatMap_events (fs : List Frame) : takeLow (fs.flatMap Frame.events) = none := by
  rcases fs with _ | ⟨⟨a, bs⟩ | ⟨a, n, rx⟩, fs⟩ <;> rfl

theorem events_ne_nil (f : Frame) : f.events ≠ [] := by
  cases f <;> exact List.cons_ne_nil _ _

theorem parseFramesWith_frame {inner fuel : Nat} {f : Frame} {fs : List Frame} {rest : List Event}
    (hf : takeFrame inner (f.events ++ rest) = some (f, rest)) (hfs : parseFramesWith inner fuel rest = some fs) :
    parseFramesWith inner (fuel + 1) (f.events ++ rest) = some (f :: fs) := by
  obtain ⟨e, es, hes⟩ := List.exists_cons_of_ne_nil (events_ne_nil f)
  rw [hes, List.cons_append] at hf ⊢
  simp [parseFramesWith, hf, hfs]

theorem parseFramesWith_events {inner fuel : Nat} {fs : List Frame} (hfs : ∀ f ∈ fs, frameComplete f = true)
    (hinner : ∀ f ∈ fs, (payload f).length ≤ inner) (hfuel : fs.length ≤ fuel) :
    parseFramesWith inner fuel (fs.flatMap Frame.events) = some fs := by
  induction fs generalizing fuel with
  | nil => cases fuel <;> rfl
  | cons f fs ih =>
    obtain ⟨hf, hfs⟩ := List.forall_mem_cons.mp hfs
    obtain ⟨hpayload, hinner⟩ := List.forall_mem_cons.mp hinner
    obtain ⟨fuel, rfl⟩ := Nat.exists_eq_add_one_of_ne_zero (Nat.ne_zero_of_lt hfuel)
    exact parseFramesWith_frame (takeFrame_events hf hpayload (takeLow_flatMap_events fs))
      (ih hfs hinner (Nat.le_of_succ_le_succ hfuel))

/-! ## The fuel of `parseFrames` suffices: one event for each frame and for each byte -/

theorem length_le_writeBodyEvents (bs : List Byte) : bs.length ≤ (writeBodyEvents bs).length := by
  induction bs with
  | nil => exact Nat.zero_le _
  | cons b bs ih =>
    cases bs with
    | nil => exact Nat.succ_pos _
    | cons c cs =>
      simp only [writeBodyEvents_cons, writeBitEvents, List.length_append, List.length_cons] at ih ⊢
      omega

theorem length_le_readBodyEvents (rx : List Byte) : rx.length ≤ (readBodyEvents rx).length := by
  induction rx with
  | nil => exact Nat.zero_le _
  | cons b rx ih =>
    cases rx with
    | nil => exact Nat.succ_pos _
    | cons c cs =>
      simp only [readBodyEvents_cons, writeBitEvents, List.length_append, List.length_cons] at ih ⊢
      omega

theorem payload_length_le_events (f : Frame) : (payload f).length ≤ f.events.length := by
  cases f with
  | write a bs =>
    have := length_le_writeBodyEvents bs
    simp only [payload, Frame.events, List.length_append]
    omega
  | read a n rx =>
    have := length_le_readBodyEvents rx
    simp only [payload, Frame.events, List.length_append]
    omega

theorem events_length_le_flatMap {f : Frame} {fs : List Frame} (h : f ∈ fs) :
    f.events.length ≤ (fs.flatMap Frame.events).length := by
  obtain ⟨xs, ys, rfl⟩ := List.append_of_mem h
  simp only [List.flatMap_append, List.flatMap_cons, List.length_append]
  omega

theorem length_le_flatMap_events (fs : List Frame) : fs.length ≤ (fs.flatMap Frame.events).length := by
  induction fs with
  | nil => exact Nat.zero_le _
  | cons f fs ih =>
    have := List.length_pos_of_ne_nil (events_ne_nil f)
    simp only [List.flatMap_cons, List.length_append, List.length_cons]
    omega

/-- Settles O4, by induction on the frames: the parser takes one frame off the front at a time. -/
theorem parsingTheTraceGivesTheFrames : Obligations.ParsingTheTraceGivesTheFrames := fun fs hfs =>
  parseFramesWith_events hfs
    (fun f hf => (payload_length_le_events f).trans (events_length_le_flatMap hf))
    (length_le_flatMap_events fs)

end Sys2Proof.Machine
end

section
/-! PROOF. O5, O6: what a burst puts on the wire (R70 to R72). `OnWire` says of a piece of a trace everything the two
statements ask for; it composes along `++`, so that a whole burst is the sum of its pieces. -/

namespace Sys2Proof.Machine

/-- The level a `Sense` returned. -/
def sensedLevel : Event → Option Bit
  | .sense v => some v
  | _ => none

/-- What a piece of a trace, from the pins `p` on, shows on the wire: the bits the target samples, the bits the
controller senses, the clock pulses, the START conditions, and the pins it ends with. -/
structure OnWire (p : Pins) (es : List Event) (driven heard : List Bit) (clocks begins : Nat) (q : Pins) : Prop where
  sampled : sampled p es = driven
  sensed  : es.filterMap sensedLevel = heard
  pulses  : pulses p es = clocks
  starts  : starts p es = begins
  pins    : p.afterAll es = q

theorem sampled_append (p : Pins) (es fs : List Event) :
    sampled p (es ++ fs) = sampled p es ++ sampled (p.afterAll es) fs := by
  induction es generalizing p with
  | nil => rfl
  | cons e es ih =>
    simp only [List.cons_append, sampled, ih, Pins.afterAll_cons]
    split <;> rfl

theorem pulses_append (p : Pins) (es fs : List Event) :
    pulses p (es ++ fs) = pulses p es + pulses (p.afterAll es) fs := by
  induction es generalizing p with
  | nil => simp [pulses]
  | cons e es ih => simp only [List.cons_append, pulses, ih, Pins.afterAll_cons, Nat.add_assoc]

theorem starts_append (p : Pins) (es fs : List Event) :
    starts p (es ++ fs) = starts p es + starts (p.afterAll es) fs := by
  induction es generalizing p with
  | nil => simp [starts]
  | cons e es ih => simp only [List.cons_append, starts, ih, Pins.afterAll_cons, Nat.add_assoc]

namespace OnWire

theorem nil (p : Pins) : OnWire p [] [] [] 0 0 p := ⟨rfl, rfl, rfl, rfl, rfl⟩

theorem append {p q r : Pins} {es fs : List Event} {d d' h h' : List Bit} {k k' n n' : Nat}
    (he : OnWire p es d h k n q) (hf : OnWire q fs d' h' k' n' r) :
    OnWire p (es ++ fs) (d ++ d') (h ++ h') (k + k') (n + n') r where
  sampled := by rw [sampled_append, he.pins, he.sampled, hf.sampled]
  sensed := by rw [List.filterMap_append, he.sensed, hf.sensed]
  pulses := by rw [pulses_append, he.pins, he.pulses, hf.pulses]
  starts := by rw [starts_append, he.pins, he.starts, hf.starts]
  pins := by rw [Pins.afterAll_append, he.pins, hf.pins]

/-! ## The pieces of a burst (R91 to R94, R98, R119) -/

theorem start : OnWire Pins.idle startEvents [] [] 0 1 (.between false) := ⟨rfl, rfl, rfl, rfl, rfl⟩

theorem writeBit (u v : Bit) : OnWire (.between u) (writeBitEvents v) [v] [] 1 0 (.written v) := by
  cases v <;> exact ⟨rfl, rfl, rfl, rfl, rfl⟩

theorem clockLow (v : Bit) : OnWire (.written v) clockLowEvents [] [] 0 0 (.between v) := by
  cases v <;> exact ⟨rfl, rfl, rfl, rfl, rfl⟩

theorem writeBitLow (u v : Bit) : OnWire (.between u) (writeBitEvents v ++ clockLowEvents) [v] [] 1 0 (.between v) :=
  (writeBit u v).append (clockLow v)

theorem readBit (u v : Bit) : OnWire (.listening u) (readBitEvents v) [] [v] 1 0 (.listening u) := by
  cases u <;> exact ⟨rfl, rfl, rfl, rfl, rfl⟩

theorem sense (u : Bit) : OnWire (.between u) (roleEvents .sensing) [] [] 0 0 (.listening u) :=
  ⟨rfl, rfl, rfl, rfl, rfl⟩

theorem drive (u : Bit) : OnWire (.listening u) (roleEvents .driving) [] [] 0 0 (.between u) :=
  ⟨rfl, rfl, rfl, rfl, rfl⟩

/-- The end of a burst is no clock pulse: the clock stays high (R119). -/
theorem endBurst (v : Bit) : OnWire (.written v) (endBurstEvents v) [] [] 0 0 Pins.idle := by
  cases v <;> exact ⟨rfl, rfl, rfl, rfl, rfl⟩

theorem lowBits (u : Bit) (vs : List Bit) :
    OnWire (.between u) (lowBitsEvents vs) vs [] vs.length 0 (.between (vs.getLast?.getD u)) := by
  induction vs generalizing u with
  | nil => exact nil _
  | cons v vs ih =>
    simpa [lowBitsEvents_cons, List.getLast?_cons, Nat.add_comm] using (writeBitLow u v).append (ih v)

/-- START, the address and the direction bit (R73). -/
theorem header (a : RegIdx) (dir : Bit) :
    OnWire Pins.idle (headerEvents a dir) (regBits a ++ [dir]) [] 8 1 (.between dir) :=
  start.append (lowBits false (regBits a ++ [dir]))

/-! ## The write burst (R71) -/

/-- The last byte of a write burst: its separator and its bits, the clock left high. -/
theorem writeByteHigh (u : Bit) (b : Byte) :
    OnWire (.between u) (writeBitEvents true ++ clockLowEvents ++ highBitsEvents (byteBits b)) (true :: byteBits b) [] 9 0
      (.written (lastBit b)) := by
  have h := (writeBitLow u true).append ((lowBits true (highBits b)).append (writeBit _ (lastBit b)))
  rwa [← highBitsEvents_byteBits] at h

/-- A byte of a write burst with another one after it. -/
theorem writeByteLow (u : Bit) (b : Byte) :
    OnWire (.between u) (writeBitEvents true ++ clockLowEvents ++ lowBitsEvents (byteBits b)) (true :: byteBits b) [] 9 0
      (.between (lastBit b)) := by
  simpa using (writeByteHigh u b).append (clockLow (lastBit b))

theorem writeBody (u : Bit) {bs : List Byte} (hbs : bs ≠ []) :
    OnWire (.between u) (writeBodyEvents bs) (bs.flatMap fun b => true :: byteBits b) [] (9 * bs.length) 0
      (.written (lastBit (bs.getLast?.getD 0xFF))) := by
  induction bs generalizing u with
  | nil => exact absurd rfl hbs
  | cons b bs ih =>
    cases bs with
    | nil => simpa [writeBodyEvents] using writeByteHigh u b
    | cons c cs =>
      have h := (writeByteLow u b).append (ih (lastBit b) (List.cons_ne_nil c cs))
      simpa [writeBodyEvents_cons, Nat.mul_add, Nat.add_comm] using h

theorem writeFrame (a : RegIdx) {bs : List Byte} (hbs : bs ≠ []) :
    OnWire Pins.idle (Frame.write a bs).events (regBits a ++ [false] ++ bs.flatMap fun b => true :: byteBits b) []
      (8 + 9 * bs.length) 1 Pins.idle := by
  have hend : writeEndEvents bs = endBurstEvents (lastBit (bs.getLast?.getD 0xFF)) := rfl
  simpa [Frame.events, hend] using ((header a false).append (writeBody false hbs)).append (endBurst _)

/-! ## The read burst (R72) -/

theorem readBits (u : Bit) (vs : List Bit) :
    OnWire (.listening u) (vs.flatMap readBitEvents) [] vs vs.length 0 (.listening u) := by
  induction vs with
  | nil => exact nil _
  | cons v vs ih => simpa [Nat.add_comm] using (readBit u v).append ih

theorem readByte (u : Bit) (b : Byte) : OnWire (.between u) (readByteEvents b) [] (byteBits b) 8 0 (.between u) :=
  ((sense u).append (readBits u (byteBits b))).append (drive u)

theorem readBody (u : Bit) (b : Byte) (rx : List Byte) :
    OnWire (.between u) (readBodyEvents (b :: rx)) (List.replicate rx.length false ++ [true]) ((b :: rx).flatMap byteBits)
      (9 * (rx.length + 1)) 0 (.written true) := by
  induction rx generalizing u b with
  | nil => simpa [readBodyEvents] using (readByte u b).append (writeBit u true)
  | cons c cs ih =>
    have h := ((readByte u b).append (writeBitLow u false)).append (ih false c)
    simpa [readBodyEvents_cons, List.replicate_succ, Nat.mul_add, Nat.add_comm 9] using h

theorem readFrame (a : RegIdx) (n : Nat) (b : Byte) (rx : List Byte) :
    OnWire Pins.idle (Frame.read a n (b :: rx)).events (regBits a ++ [true] ++ List.replicate rx.length false ++ [true])
      ((b :: rx).flatMap byteBits) (8 + 9 * (rx.length + 1)) 1 (.written true) := by
  simpa [Frame.events] using (header a true).append (readBody true b rx)

end OnWire

/-- Settles O5, from the pieces of a write burst. -/
theorem writeBurstOnTheWire : Obligations.WriteBurstOnTheWire := by
  intro a bs hbs
  obtain ⟨hsampled, -, hpulses, hstarts, hpins⟩ := OnWire.writeFrame a hbs
  exact ⟨hsampled, hpulses, hstarts, congrArg Pins.zcl hpins⟩

/-- Settles O6, from the pieces of a read burst. -/
theorem readBurstOnTheWire : Obligations.ReadBurstOnTheWire := by
  intro a rx hrx
  obtain ⟨b, rx, rfl⟩ := List.exists_cons_of_ne_nil hrx
  obtain ⟨hsampled, hsensed, hpulses, hstarts, hpins⟩ := OnWire.readFrame a (b :: rx).length b rx
  exact ⟨hsampled, hsensed, hpulses, hstarts, congrArg Pins.zcl hpins⟩

end Sys2Proof.Machine
end

section
/-! PROOF. O40, O36: the answer to a command, and CONTINUE_AFTER_BREAK. -/

namespace Sys2Proof.Machine

@[simp] theorem State.emits_responses (s : State) (es : List Event) : (s.emits es).responses = s.responses := by
  simp [State.emits_eq]

/-- A host command adds exactly one response (R80). -/
theorem hostCommand_responses {i : Instr} {s t : State} (hi : i.isHostCommand = true) (hx : exec i s = .next t) :
    ∃ r, t.responses = s.responses ++ [r] := by
  rcases hostCommand_cases hi hx with
    ⟨c, d, f, -, -, ⟨-, rfl⟩ | ⟨-, rfl⟩⟩ | ⟨-, -, rfl⟩ | ⟨-, ⟨c, rfl⟩ | ⟨u, v, hb, rfl⟩⟩
  · exact ⟨_, rfl⟩
  · exact ⟨_, rfl⟩
  · exact ⟨_, rfl⟩
  · exact ⟨_, rfl⟩
  · exact ⟨.ok v, by rw [State.respond_responses, hb.responses]⟩

/-- An internal operation answers the layer above, not the host (R80, D27). -/
theorem internal_responses {i : Instr} {s t : State} (hi : i.isHostCommand = false) (hx : exec i s = .next t) :
    t.responses = s.responses := by
  rcases internal_cases hi hx with ⟨c, rfl⟩ | ⟨u, v, hb, rfl⟩ | ⟨es, rfl⟩ | ⟨es, v, fs, rfl⟩
  · rfl
  · exact hb.responses
  · exact State.emits_responses s es
  · simp

/-- Settles O40, by what a host command and an internal operation can do: bursts and pin events add no response. -/
theorem everyCommandIsAnsweredOnce : Obligations.EveryCommandIsAnsweredOnce := fun _ _ _ hx =>
  ⟨fun hi => hostCommand_responses hi hx, fun hi => internal_responses hi hx⟩

/-- Settles O36: on a ready controller the operation is its control write (R171, R180). -/
theorem continueAfterBreakSetsSingleStep : Obligations.ContinueAfterBreakSetsSingleStep := by
  refine ⟨rfl, fun s b hready => ?_⟩
  have hopen : s.link = .opened := hready.1
  exact (whenOpen_opened hopen _).trans (writeCtl_eq (State.withSession_ready _ hready))

end Sys2Proof.Machine
end

section
/-! PROOF. O54: no command faults on an idle controller. A rejection, LINK_OPEN and CLOSE always answer; on a ready
controller every burst answers its closed form, and leaves the controller ready for the next one (R26, R96). -/

namespace Sys2Proof.Machine

/-- The computation stops with no fault; it may answer or refuse. -/
def Faultless {α : Type} (o : Out α) : Prop := ∀ r, o ≠ .fault r

theorem Faultless.next {α : Type} (a : α) : Faultless (.next a : Out α) := nofun

theorem Faultless.refused {α : Type} (r : Refusal) : Faultless (.refused r : Out α) := nofun

theorem Faultless.of_eq_next {α : Type} {o : Out α} {a : α} (h : o = .next a) : Faultless o := h ▸ .next a

/-- A command that needs an open Link is refused without one, which is no fault (R200). -/
theorem Faultless.whenOpen {s : State} {k : Out State} (hk : s.link = .opened → Faultless k) :
    Faultless (whenOpen s k) := by
  by_cases ho : s.link = .opened
  · rw [whenOpen_opened ho]
    exact hk ho
  · rw [whenOpen_not ho]
    exact .refused _

theorem Faultless.memWrite {s : State} (hr : s.ready) (a : Int) (bs : List Byte) : Faultless (memWrite a bs s) := by
  cases hc : checkWrite a bs with
  | none => exact .of_eq_next (memWrite_ok a bs hr hc)
  | some c => exact .of_eq_next (memWrite_raise s a bs c hc)

theorem Faultless.memRead {s : State} (hr : s.ready) (a n : Int) (f : List Byte → Value) :
    Faultless (memRead a n f s) := by
  cases hc : checkRead a n with
  | none => exact .of_eq_next (memRead_ok a n f hr hc)
  | some c => exact .of_eq_next (memRead_raise s a n f c hc)

theorem Faultless.writeCtl {s : State} (x : Session) (hr : s.ready) : Faultless (writeCtl (s.withSession x)) :=
  .of_eq_next (writeCtl_eq (State.withSession_ready x hr))

theorem State.afterStatus_ready {s : State} (hr : s.ready) : s.afterStatus.ready := State.heard_ready _ _ hr

theorem one_le_spWidth (m : RegMap) (st : Byte) : 1 ≤ spWidth m st := by
  unfold spWidth
  split <;> decide

theorem execLinkOpen_faultless (c d : PinId) (f : Rat) (s : State) : Faultless (execLinkOpen c d f s) := by
  rw [execLinkOpen_eq]
  split
  · exact .refused _
  · split <;> exact .next _

theorem execReadSp_faultless {s : State} (hs : IdleInv s) : Faultless (execReadSp s) :=
  .whenOpen fun ho => by
    have hr := hs.ready ho
    rw [statusRead_eq hr, andThen_next, recvFrame_eq _ _ _ (State.afterStatus_ready hr) (one_le_spWidth _ _)]
    exact .next _

/-- WRITE_SP with a length the mode does not select is a refusal (R147, log 18). -/
theorem execWriteSp_faultless (bs : List Byte) {s : State} (hs : IdleInv s) : Faultless (execWriteSp bs s) :=
  .whenOpen fun ho => by
    have hr := hs.ready ho
    split
    · exact .next _
    · rename_i hbs
      rw [statusRead_eq hr, andThen_next]
      split
      · exact .refused _
      · rw [sendFrame_eq _ bs _ (State.afterStatus_ready hr) hbs]
        exact .next _

theorem execExecuteInstructions_faultless (ops : List Byte) {s : State} (hs : IdleInv s) :
    Faultless (execExecuteInstructions ops s) :=
  .whenOpen fun ho => by
    split
    · exact .next _
    · exact .memWrite (hs.ready ho) _ _

theorem execReset_faultless {s : State} (hs : IdleInv s) : Faultless (execReset s) :=
  .whenOpen fun ho => by
    rw [sendAll_eq _ (hs.ready ho)]
    exact .next _

theorem execSetBreakpoint_faultless (n u h : Int) (l : Option Int) {s : State} (hs : IdleInv s) :
    Faultless (execSetBreakpoint n u h l s) :=
  .whenOpen fun ho => by
    have hr := hs.ready ho
    split
    · exact .next _
    · rename_i q _
      rw [storeAddress_eq q hr]
      exact .writeCtl _ (State.withSession_ready _ (State.sentAll_ready _ hr))

theorem execDisableBreakpoint_faultless (n : Int) {s : State} (hs : IdleInv s) :
    Faultless (execDisableBreakpoint n s) :=
  .whenOpen fun ho => by
    split
    · exact .next _
    · exact .writeCtl _ (hs.ready ho)

/-- No host command faults on an idle controller (R96). -/
theorem hostCommand_faultless {i : Instr} {s : State} (hi : i.isHostCommand = true) (hs : IdleInv s) :
    Faultless (exec i s) := by
  cases i with
  | linkOpen c d f => exact execLinkOpen_faultless c d f s
  | close | getBreakpointState => exact .whenOpen fun _ => .next _
  | readProductId | readProductRevision | readMbaseFA | readBcuBC | readDeuDE | readIx | readIy | readMem =>
    exact .whenOpen fun ho => .memRead (hs.ready ho) _ _ _
  | writeMbaseFA | writeBcuBC | writeDeuDE | writeIx | writeIy | writeMem =>
    exact .whenOpen fun ho => .memWrite (hs.ready ho) _ _
  | readSp => exact execReadSp_faultless hs
  | writeSp bs => exact execWriteSp_faultless bs hs
  | executeInstructions ops => exact execExecuteInstructions_faultless ops hs
  | reset => exact execReset_faultless hs
  | setBreakpoint n u h l => exact execSetBreakpoint_faultless n u h l hs
  | disableBreakpoint n => exact execDisableBreakpoint_faultless n hs
  | breakNow | continueAfterBreak => exact .whenOpen fun ho => .writeCtl _ (hs.ready ho)
  | _ => exact absurd hi Bool.false_ne_true

/-- Settles O54: what the port holds is no command, an unassigned selector, or a host command, and taking it from the
port leaves the controller idle. -/
theorem idleControllerNeverFaults : Obligations.IdleControllerNeverFaults := by
  intro s r hs
  suffices Faultless (step s) from this r
  unfold step
  split
  · exact .next s
  · split
    · exact .next s
    · rename_i c rest _
      dsimp only
      split
      · rename_i i hi
        exact hostCommand_faultless (decodeCommand_host hi) (s := { s with port := rest }) hs
      · exact .next _
      · exact .refused _

end Sys2Proof.Machine
end

section
/-! PROOF. O55: the edge rules along a trace (R95, R248). `EdgeRun` says of a piece of a trace that it obeys the edge
rules from every place where it may begin, and counts its rises of ZDA at a high clock; it composes along `++`, as
`OnWire` does. -/

namespace Sys2Proof.Machine

/-! ## What composes -/

theorem obeysEdges_append (x : Edges) (es fs : List Event) :
    obeysEdges x (es ++ fs) = (obeysEdges x es && obeysEdges (es.foldl Edges.after x) fs) := by
  induction es generalizing x with
  | nil => rfl
  | cons e es ih => simp only [List.cons_append, obeysEdges, ih, List.foldl_cons, Bool.and_assoc]

theorem rises_append (p : Pins) (es fs : List Event) : rises p (es ++ fs) = rises p es + rises (p.afterAll es) fs := by
  induction es generalizing p with
  | nil => simp [rises]
  | cons e es ih => simp only [List.cons_append, rises, ih, Pins.afterAll_cons, Nat.add_assoc]

/-- A place with the pins `p` where a piece of a trace may begin: a delay has passed, or the piece is a written bit or a
role switch at a low clock, which begins with no clock edge; ZDA has not ended a burst whose clock is low. -/
structure Edges.AtRest (p : Pins) (x : Edges) : Prop where
  pins  : x.pins = p
  slept : x.slept = true ∨ p.zcl = false ∧ p.role = .driving
  ended : x.ended = true → p.zcl = true

/-- A piece of a trace from the pins `p` to the pins `q` that obeys the edge rules, with its rises of ZDA at a high
clock. -/
structure EdgeRun (p : Pins) (es : List Event) (ups : Nat) (q : Pins) : Prop where
  rises : rises p es = ups
  pins  : p.afterAll es = q
  obeys : ∀ x : Edges, x.AtRest p → obeysEdges x es = true ∧ (es.foldl Edges.after x).AtRest q

namespace EdgeRun

theorem nil (p : Pins) : EdgeRun p [] 0 p := ⟨rfl, rfl, fun _ hx => ⟨rfl, hx⟩⟩

theorem append {p q r : Pins} {es fs : List Event} {k k' : Nat} (he : EdgeRun p es k q) (hf : EdgeRun q fs k' r) :
    EdgeRun p (es ++ fs) (k + k') r where
  rises := by rw [rises_append, he.pins, he.rises, hf.rises]
  pins := by rw [Pins.afterAll_append, he.pins, hf.pins]
  obeys x hx := by
    obtain ⟨hes, hmid⟩ := he.obeys x hx
    obtain ⟨hfs, hend⟩ := hf.obeys _ hmid
    rw [obeysEdges_append, hes, hfs, List.foldl_append]
    exact ⟨rfl, hend⟩

/-! ## The pieces of a burst (R91 to R94, R98, R119) -/

theorem start : EdgeRun Pins.idle startEvents 0 (.between false) where
  rises := rfl
  pins := rfl
  obeys := by
    rintro ⟨_, slept, _, _⟩ ⟨rfl, rfl | ⟨h, -⟩, -⟩
    · exact ⟨rfl, rfl, .inl rfl, nofun⟩
    · cases h

theorem writeBit (u v : Bit) : EdgeRun (.between u) (writeBitEvents v) 0 (.written v) where
  rises := by cases v <;> rfl
  pins := rfl
  obeys := by
    rintro ⟨_, slept, fell, ended⟩ ⟨rfl, -, -⟩
    exact ⟨rfl, rfl, .inl rfl, fun _ => rfl⟩

theorem writeBitLow (u v : Bit) : EdgeRun (.between u) (writeBitEvents v ++ clockLowEvents) 0 (.between v) where
  rises := by cases v <;> rfl
  pins := rfl
  obeys := by
    rintro ⟨_, slept, fell, ended⟩ ⟨rfl, -, hended⟩
    cases ended with
    | true => cases hended rfl
    | false => exact ⟨rfl, rfl, .inr ⟨rfl, rfl⟩, nofun⟩

theorem readBit (u v : Bit) : EdgeRun (.listening u) (readBitEvents v) 0 (.listening u) where
  rises := by cases u <;> rfl
  pins := rfl
  obeys := by
    rintro ⟨_, slept, fell, ended⟩ ⟨rfl, rfl | ⟨-, h⟩, hended⟩
    · cases ended with
      | true => cases hended rfl
      | false => exact ⟨rfl, rfl, .inl rfl, nofun⟩
    · cases h

theorem sense (u : Bit) : EdgeRun (.between u) (roleEvents .sensing) 0 (.listening u) where
  rises := rfl
  pins := rfl
  obeys := by
    rintro ⟨_, slept, fell, ended⟩ ⟨rfl, -, hended⟩
    exact ⟨rfl, rfl, .inl rfl, hended⟩

theorem drive (u : Bit) : EdgeRun (.listening u) (roleEvents .driving) 0 (.between u) where
  rises := rfl
  pins := rfl
  obeys := by
    rintro ⟨_, slept, fell, ended⟩ ⟨rfl, -, hended⟩
    exact ⟨rfl, rfl, .inl rfl, hended⟩

/-- END_BURST raises ZDA after a last bit 0 (R119). -/
theorem endBurst (v : Bit) : EdgeRun (.written v) (endBurstEvents v) (if v = false then 1 else 0) Pins.idle := by
  cases v with
  | true => exact nil _
  | false =>
    refine ⟨rfl, rfl, ?_⟩
    rintro ⟨_, slept, fell, ended⟩ ⟨rfl, -, -⟩
    exact ⟨rfl, rfl, .inl rfl, fun _ => rfl⟩

theorem lowBits (u : Bit) (vs : List Bit) :
    EdgeRun (.between u) (lowBitsEvents vs) 0 (.between (vs.getLast?.getD u)) := by
  induction vs generalizing u with
  | nil => exact nil _
  | cons v vs ih => simpa [lowBitsEvents_cons, List.getLast?_cons] using (writeBitLow u v).append (ih v)

/-- START, the address and the direction bit (R73). -/
theorem header (a : RegIdx) (dir : Bit) : EdgeRun Pins.idle (headerEvents a dir) 0 (.between dir) := by
  simpa [headerEvents] using start.append (lowBits false (regBits a ++ [dir]))

/-! ## The write burst (R71) -/

/-- The last byte of a write burst: its separator and its bits, the clock left high. -/
theorem writeByteHigh (u : Bit) (b : Byte) :
    EdgeRun (.between u) (writeBitEvents true ++ clockLowEvents ++ highBitsEvents (byteBits b)) 0
      (.written (lastBit b)) := by
  rw [highBitsEvents_byteBits]
  exact (writeBitLow u true).append ((lowBits true (highBits b)).append (writeBit _ (lastBit b)))

/-- A byte of a write burst with another one after it. -/
theorem writeByteLow (u : Bit) (b : Byte) :
    EdgeRun (.between u) (writeBitEvents true ++ clockLowEvents ++ lowBitsEvents (byteBits b)) 0
      (.between (lastBit b)) :=
  (writeBitLow u true).append (lowBits true (byteBits b))

theorem writeBody (u : Bit) {bs : List Byte} (hbs : bs ≠ []) :
    EdgeRun (.between u) (writeBodyEvents bs) 0 (.written (lastBit (bs.getLast?.getD 0xFF))) := by
  induction bs generalizing u with
  | nil => exact absurd rfl hbs
  | cons b bs ih =>
    cases bs with
    | nil => exact writeByteHigh u b
    | cons c cs => exact (writeByteLow u b).append (ih (lastBit b) (List.cons_ne_nil c cs))

theorem writeFrame (a : RegIdx) {bs : List Byte} (hbs : bs ≠ []) :
    EdgeRun Pins.idle (Frame.write a bs).events (if endsLow (.write a bs) then 1 else 0) Pins.idle := by
  have h := ((header a false).append (writeBody false hbs)).append (endBurst (lastBit (bs.getLast?.getD 0xFF)))
  simpa [Frame.events, writeEndEvents, endsLow, lastBit] using h

/-! ## The read burst (R72) -/

theorem readBits (u : Bit) (vs : List Bit) : EdgeRun (.listening u) (vs.flatMap readBitEvents) 0 (.listening u) := by
  induction vs with
  | nil => exact nil _
  | cons v vs ih => exact (readBit u v).append ih

theorem readByte (u : Bit) (b : Byte) : EdgeRun (.between u) (readByteEvents b) 0 (.between u) :=
  ((sense u).append (readBits u (byteBits b))).append (drive u)

theorem readBody (u : Bit) {rx : List Byte} (hrx : rx ≠ []) :
    EdgeRun (.between u) (readBodyEvents rx) 0 (.written true) := by
  induction rx generalizing u with
  | nil => exact absurd rfl hrx
  | cons b rx ih =>
    cases rx with
    | nil => exact (readByte u b).append (writeBit u true)
    | cons c cs =>
      simpa [readBodyEvents_cons] using
        ((readByte u b).append (writeBitLow u false)).append (ih false (List.cons_ne_nil c cs))

theorem readFrame (a : RegIdx) (n : Nat) {rx : List Byte} (hrx : rx ≠ []) :
    EdgeRun Pins.idle (Frame.read a n rx).events 0 Pins.idle :=
  (header a true).append (readBody true hrx)

/-! ## A run of bursts -/

theorem frame {f : Frame} (hf : frameComplete f = true) :
    EdgeRun Pins.idle f.events (if endsLow f then 1 else 0) Pins.idle := by
  cases f with
  | write a bs => exact writeFrame a (by simpa [frameComplete] using hf)
  | read a n rx =>
    simp only [frameComplete, Bool.and_eq_true, decide_eq_true_eq] at hf
    obtain ⟨hn, hlen⟩ := hf
    exact readFrame a n (List.ne_nil_of_length_pos (by omega))

theorem frames {fs : List Frame} (hfs : ∀ f ∈ fs, frameComplete f = true) :
    EdgeRun Pins.idle (fs.flatMap Frame.events) (fs.countP endsLow) Pins.idle := by
  induction fs with
  | nil => exact nil _
  | cons f fs ih =>
    obtain ⟨hf, hfs⟩ := List.forall_mem_cons.mp hfs
    rw [List.countP_cons, Nat.add_comm]
    exact (frame hf).append (ih hfs)

/-- CLOSE from idle lines (R99). -/
theorem close : EdgeRun Pins.idle closeEvents 0 Pins.idle where
  rises := rfl
  pins := rfl
  obeys := by
    rintro ⟨_, slept, fell, ended⟩ ⟨rfl, -, -⟩
    exact ⟨rfl, rfl, .inl rfl, fun _ => rfl⟩

end EdgeRun

/-! ## START conditions (R91) -/

theorem starts_frame {f : Frame} (hf : frameComplete f = true) : starts Pins.idle f.events = 1 := by
  cases f with
  | write a bs => exact (OnWire.writeFrame a (by simpa [frameComplete] using hf)).starts
  | read a n rx =>
    cases rx with
    | nil =>
      simp only [frameComplete, List.length_nil, Bool.and_eq_true, decide_eq_true_eq] at hf
      omega
    | cons b rx => exact (OnWire.readFrame a n b rx).starts

theorem starts_frames {fs : List Frame} (hfs : ∀ f ∈ fs, frameComplete f = true) :
    starts Pins.idle (fs.flatMap Frame.events) = fs.length := by
  induction fs with
  | nil => rfl
  | cons f fs ih =>
    obtain ⟨hf, hfs⟩ := List.forall_mem_cons.mp hfs
    rw [List.flatMap_cons, starts_append, (EdgeRun.frame hf).pins, starts_frame hf, ih hfs, List.length_cons,
      Nat.add_comm]

/-! ## The whole trace -/

/-- The place before LINK_OPEN: both latches high, no delay passed (log 12). -/
def Edges.initial : Edges := { pins := Pins.idle, slept := false, justFell := false, ended := false }

/-- LINK_OPEN changes no line, and its delay ends it (R90). -/
theorem edgesInitial_linkOpen : (linkOpenEvents.foldl Edges.after .initial).AtRest Pins.idle :=
  ⟨rfl, .inl rfl, fun _ => rfl⟩

/-- What the edge rules say of the events between LINK_OPEN and the end of the trace, they say of the trace. -/
theorem EdgeRun.afterLinkOpen {es : List Event} {ups : Nat} {q : Pins} (h : EdgeRun Pins.idle es ups q) :
    obeysEdges .initial (linkOpenEvents ++ es) = true ∧
      starts Pins.idle (linkOpenEvents ++ es) = starts Pins.idle es ∧
      Machine.rises Pins.idle (linkOpenEvents ++ es) = ups := by
  obtain ⟨hes, -⟩ := h.obeys _ edgesInitial_linkOpen
  refine ⟨?_, ?_, ?_⟩
  · rw [obeysEdges_append, hes]
    rfl
  · rw [starts_append]
    exact Nat.zero_add _
  · rw [rises_append]
    exact (Nat.zero_add _).trans h.rises

/-- Settles O55: LINK_OPEN, every burst and CLOSE obey the edge rules; each burst has one START, and raises ZDA at a
high clock when its last bit is 0. -/
theorem tracesObeyTheEdgeRules : Obligations.TracesObeyTheEdgeRules := by
  intro s hs
  cases hl : s.link with
  | unopened =>
    obtain ⟨htrace, hframes⟩ := (traceInv_unopened hl).mp hs
    rw [htrace, hframes]
    exact ⟨rfl, rfl, rfl⟩
  | opened =>
    obtain ⟨hall, htrace⟩ := (traceInv_opened hl).mp hs
    obtain ⟨hobeys, hstarts, hrises⟩ := (EdgeRun.frames hall).afterLinkOpen
    rw [htrace]
    exact ⟨hobeys, hstarts.trans (starts_frames hall), hrises⟩
  | closed =>
    obtain ⟨hall, htrace⟩ := (traceInv_closed hl).mp hs
    obtain ⟨hobeys, hstarts, hrises⟩ := ((EdgeRun.frames hall).append .close).afterLinkOpen
    rw [starts_append Pins.idle (s.frames.flatMap _), (EdgeRun.frames hall).pins, starts_frames hall] at hstarts
    rw [htrace, List.append_assoc]
    exact ⟨hobeys, hstarts, hrises⟩

end Sys2Proof.Machine
end

section
/-! PROOF. O8 to O15: the operations of the Link (R90 to R94, R98, R99). Each primitive is its events inside its
precondition and a fault outside it; what its events do to the lines and to the reference target is said once. -/

namespace Sys2Proof.Machine

/-! ## The lines a primitive finds -/

theorem Pins.eq_between {p : Pins} (hr : p.role = .driving) (hz : p.zcl = false) : p = Pins.between p.zdaOut := by
  rw [Pins.between, ← hr, ← hz]

theorem Pins.eq_listening {p : Pins} (hr : p.role = .sensing) (hz : p.zcl = false) : p = Pins.listening p.zdaOut := by
  rw [Pins.listening, ← hr, ← hz]

theorem Pins.eq_idle_iff (p : Pins) : p = Pins.idle ↔ p.role = .driving ∧ p.zcl = true ∧ p.zdaOut = true := by
  obtain ⟨zcl, zdaOut, role⟩ := p
  constructor
  · rintro ⟨⟩
    exact ⟨rfl, rfl, rfl⟩
  · rintro ⟨rfl, rfl, rfl⟩
    rfl

/-! ## What the reference target takes from one pulse -/

/-- The separator of a read burst, of either value, brings the next byte (R58, R64). -/
theorem Dev.pulse_of_answered {d : Dev} {a : Nat} (h : d.bus = .answer a 8) (m : RegMap) (v : Bit) :
    d.pulse m v = { d with bus := .answer (a + 1) 0 } := by
  simp [Dev.pulse, h]

/-- The separator of a write burst, of either value, brings the next byte (R64). -/
theorem Dev.pulse_of_separator {d : Dev} {a : Nat} (h : d.bus = .separator a) (m : RegMap) (v : Bit) :
    d.pulse m v = { d with bus := .data a [] } := by
  simp [Dev.pulse, h]

/-- The eighth bit of a byte stores it (R61). -/
theorem Dev.pulse_of_eighth {d : Dev} {a : Nat} {bits : List Bit} (h : d.bus = .data a bits) (hlen : bits.length = 7)
    (m : RegMap) (v : Bit) :
    d.pulse m v = { d.store m a (byteOfBits (bits ++ [v])) with bus := .separator (a + 1) } := by
  simp [Dev.pulse, h, hlen]

/-- A read pulse of a byte moves the target on by one bit (R62). -/
theorem Dev.pulse_of_answer {d : Dev} {a n : Nat} (h : d.bus = .answer a n) (hn : n < 8) (m : RegMap) (v : Bit) :
    d.pulse m v = { d with bus := .answer a (n + 1) } := by
  simp [Dev.pulse, h, hn]

/-! ## The level of a `Sense` (R60, R62) -/

theorem State.level_congr {s t : State} (ht : t.target = s.target) (hs : t.senses = s.senses) (hd : t.dev = s.dev) :
    t.level = s.level := by
  simp only [State.level, ht, hs, hd]

theorem State.level_given {s : State} {w : Bit} {answers : List Bit} (h : s.target = .oracle (w :: answers)) :
    s.level = w := by
  simp only [State.level, h]

theorem State.level_reference {s : State} {a n : Nat} (h : s.target = .reference) (hb : s.dev.bus = .answer a (n + 1)) :
    s.level = (s.dev.readReg a).getLsbD (7 - n) := by
  simp only [State.level, h, hb]

/-! ## The events of a primitive, whole -/

theorem State.emits_start {s : State} (hp : s.pins = Pins.idle) :
    s.emits startEvents =
      { s.observe startEvents with pins := Pins.between false, dev := { s.dev with bus := .address [] } } := by
  simp only [State.emits_eq, hp, pins_start, Dev.watch_start]

theorem State.emits_writeBit {s : State} {u : Bit} (hp : s.pins = Pins.between u) (v : Bit) :
    s.emits (writeBitEvents v) =
      { s.observe (writeBitEvents v) with pins := Pins.written v, dev := s.dev.pulse s.map v } := by
  simp only [State.emits_eq, hp, pins_writeBit, Dev.watch_writeBit]

/-- Lowering the clock is no pulse: the target sees nothing (R93). -/
theorem State.emits_clockLow (s : State) :
    s.emits clockLowEvents = { s.observe clockLowEvents with pins := { s.pins with zcl := false } } := by
  simp [State.emits_eq, clockLowEvents, Dev.watch, Dev.see, Pins.after]

/-- At a high clock a role switch may look like a START to the target (R98, log 31). -/
theorem State.emits_role (s : State) (r : Role) :
    s.emits (roleEvents r) =
      { s.observe (roleEvents r) with
        pins := { s.pins with role := r }
        dev := if s.pins.zcl = true ∧ Config.undriven s.trace.length = true then { s.dev with bus := .address [] }
          else s.dev } := by
  simp [State.emits_eq, roleEvents, Dev.watch, Dev.see, Pins.after]

/-- A read pulse is one pulse to the target, with a level the controller does not drive (R94, log 31). -/
theorem State.emits_readBit {s : State} {u : Bit} (hp : s.pins = Pins.listening u) (v : Bit) :
    s.emits (readBitEvents v) =
      { s.observe (readBitEvents v) with dev := s.dev.pulse s.map (Config.undriven s.trace.length) } :=
  State.emits_of_pins s _ _ (by rw [hp]; rfl) (by rw [hp]; rfl)

/-- The level of READ_BIT is the one the target shows after its pulse (R94). -/
theorem readBit_listening {s : State} {u : Bit} (ho : s.link = .opened) (hp : s.pins = Pins.listening u) :
    let v := ({ s with dev := s.dev.pulse s.map (Config.undriven s.trace.length) } : State).level
    readBit s = .next (v, (s.emits (readBitEvents v)).answered 1) := by
  intro v
  have hlevel : (s.emits [.drive .zcl true, .sleep, .drive .zcl false]).level = v := by
    refine State.level_congr (by simp) (by simp) ?_
    rw [State.emits_dev, hp]
    rfl
  unfold readBit
  rw [if_pos ⟨ho, by rw [hp]; rfl, by rw [hp]; rfl⟩]
  dsimp only
  rw [hlevel, State.emits_answered, State.emits_emits]
  rfl

/-! ## LINK_OPEN and CLOSE (R90, R99) -/

/-- Settles O8: LINK_OPEN on an unopened controller in closed form. -/
theorem linkOpenCreatesTheController : Obligations.LinkOpenCreatesTheController := by
  intro s c d f hl
  rw [exec, execLinkOpen_eq, if_neg (not_not.mpr hl)]
  split <;> rfl

/-- Settles O9: CLOSE on an open Link in closed form. -/
theorem closeEndsTheController : Obligations.CloseEndsTheController := fun _ ho => execClose_eq ho

/-! ## The primitives inside their preconditions -/

/-- Settles O10: the four events of START, seen from any place in a burst. -/
theorem startMakesTheStartCondition : Obligations.StartMakesTheStartCondition := by
  intro s ho hp
  rw [exec, execStart, start_eq ho hp, State.emits_start hp]
  rfl

/-- Settles O11: the four events of WRITE_BIT are one pulse with the bit driven. -/
theorem writeBitDrivesThenClocks : Obligations.WriteBitDrivesThenClocks := by
  intro s v ho hr hz
  have hp := Pins.eq_between hr hz
  refine ⟨s.emits (writeBitEvents v), writeBit_eq v ho hp, State.emits_writeBit hp v, ?_⟩
  rw [State.emits_writeBit hp v]
  refine ⟨fun a hb => ?_, fun a hb => ?_, fun a b7 b6 b5 b4 b3 b2 b1 hb => ?_⟩
  · exact Dev.pulse_of_separator hb s.map v
  · exact Dev.pulse_of_answered hb s.map v
  · exact Dev.pulse_of_eighth hb rfl s.map v

/-- Settles O12: the one event of CLOCK_LOW. -/
theorem clockLowLowersTheClock : Obligations.ClockLowLowersTheClock := by
  intro s ho hz
  rw [exec, execClockLow, clockLow_eq ho hz, State.emits_clockLow]
  rfl

/-- Settles O13: the five events of READ_BIT are one pulse, after which the level is taken. -/
theorem readBitSensesAfterTheFall : Obligations.ReadBitSensesAfterTheFall := by
  intro s ho hr hz d v
  have hp := Pins.eq_listening hr hz
  refine ⟨?_, fun w answers htarget => ?_, fun a n htarget hbus hn => ?_⟩
  · rw [exec, execReadBit, readBit_listening ho hp, andThen_next, State.emits_readBit hp]
    rfl
  · exact ⟨State.level_given htarget, by rw [htarget]; rfl⟩
  · have hd : d = { s.dev with bus := .answer a (n + 1) } := Dev.pulse_of_answer hbus hn s.map _
    refine ⟨hd, (State.level_reference (s := { s with dev := d }) htarget (congrArg Dev.bus hd)).trans ?_⟩
    rw [hd]
    rfl

/-- Settles O14: a switch is its two events; to the current role there is none. -/
theorem setDataDirectionSwitchesTheRole : Obligations.SetDataDirectionSwitchesTheRole := by
  intro s r ho
  by_cases hr : r = s.pins.role
  · rw [if_pos hr, exec, execSetDataDirection, setDirection, whenOpen_opened ho, if_pos hr]
  · rw [if_neg hr, exec, execSetDataDirection, setDirection_eq r ho (Ne.symm hr), State.emits_role]
    rfl

/-! ## Outside their preconditions (R199) -/

/-- A guarded operation faults exactly where its guard fails. -/
theorem guarded_eq_fault_iff {α : Type} {c : Prop} [Decidable c] {a : α} {r : Fault} :
    (if c then .next a else .fault r : Out α) = .fault r ↔ ¬ c := by
  by_cases hc : c <;> simp [hc]

theorem andThen_next_eq_fault_iff {α β : Type} {o : Out α} {f : α → β} {r : Fault} :
    andThen o (fun a => .next (f a)) = .fault r ↔ o = .fault r := by
  cases o <;> simp [andThen]

/-- Settles O15: each primitive is guarded by its precondition. -/
theorem linkPrimitivesFaultOutsideTheirPreconditions :
    Obligations.LinkPrimitivesFaultOutsideTheirPreconditions := by
  intro s
  refine ⟨?_, fun v => guarded_eq_fault_iff, guarded_eq_fault_iff, ?_⟩
  · exact guarded_eq_fault_iff.trans (not_congr (and_congr_right fun _ => (Pins.eq_idle_iff s.pins).symm))
  · exact andThen_next_eq_fault_iff.trans guarded_eq_fault_iff

end Sys2Proof.Machine
end

section
/-! PROOF. O1: bit lists and numbers (R110 to R112). -/

namespace Sys2Proof.Machine

/-- Only the low `w` bits of a number are taken at width `w` (log 30). -/
theorem numberToBits_mul_add (b n v : Nat) {w : Nat} (hn : n < 2 ^ v) (hw : w ≤ v) :
    numberToBits (2 ^ v * b + n) w = numberToBits n w := by
  induction w with
  | zero => rfl
  | succ w ih => rw [numberToBits, numberToBits, ih (by omega), Nat.testBit_two_pow_mul_add b hn, if_pos (by omega)]

theorem bitsToNumber_lt (bs : List Bit) : bitsToNumber bs < 2 ^ bs.length := by
  induction bs with
  | nil => exact Nat.one_pos
  | cons b bs ih =>
    rw [bitsToNumber, List.length_cons, pow_succ]
    cases b <;> simp <;> omega

/-- R112: the bits of the number of a bit list are the list. -/
theorem numberToBits_bitsToNumber (bs : List Bit) : numberToBits (bitsToNumber bs) bs.length = bs := by
  induction bs with
  | nil => rfl
  | cons b bs ih =>
    have hlt := bitsToNumber_lt bs
    have hfirst : (2 ^ bs.length * b.toNat + bitsToNumber bs).testBit bs.length = b := by
      rw [Nat.testBit_two_pow_mul_add _ hlt, if_neg (Nat.lt_irrefl _), Nat.sub_self]
      cases b <;> rfl
    rw [bitsToNumber, List.length_cons, numberToBits, mul_comm, hfirst, numberToBits_mul_add _ _ _ hlt le_rfl, ih]

/-- R111: element i of a bit list counts `2 ^ (w - 1 - i)`. -/
theorem bitsToNumber_eq_sum (bs : List Bit) :
    bitsToNumber bs = ((List.range bs.length).map fun i => (bs.getD i false).toNat * 2 ^ (bs.length - 1 - i)).sum := by
  induction bs with
  | nil => rfl
  | cons b bs ih =>
    have hweight : ∀ i, bs.length - 1 - i = bs.length - Nat.succ i := by omega
    simp only [bitsToNumber, ih, List.length_cons, List.range_succ_eq_map, List.map_cons, List.map_map, List.sum_cons,
      Function.comp_def, List.getD_cons_zero, List.getD_cons_succ, hweight, Nat.add_sub_cancel, Nat.sub_zero]

/-- Settles O1, by induction on the bit list. -/
theorem bitListsRoundTrip : Obligations.BitListsRoundTrip :=
  ⟨fun w n hn => (bitsToNumber_numberToBits n w).trans (Nat.mod_eq_of_lt hn), numberToBits_bitsToNumber,
    fun bs => ⟨bitsToNumber_eq_sum bs, bitsToNumber_lt bs⟩⟩

end Sys2Proof.Machine
end

section
/-! PROOF. O7: the delays of a burst (R116, R118), piece by piece. -/

namespace Sys2Proof.Machine

theorem sleeps_startEvents : sleeps startEvents = 2 := rfl

theorem sleeps_writeBitEvents (v : Bit) : sleeps (writeBitEvents v) = 2 := rfl

theorem sleeps_clockLowEvents : sleeps clockLowEvents = 0 := rfl

theorem sleeps_readBitEvents (v : Bit) : sleeps (readBitEvents v) = 2 := rfl

theorem sleeps_roleEvents (r : Role) : sleeps (roleEvents r) = 1 := rfl

/-- END_BURST waits once, and only after a last bit 0 (R119). -/
theorem sleeps_endBurstEvents (v : Bit) : sleeps (endBurstEvents v) = if v = false then 1 else 0 := by
  cases v <;> rfl

theorem sleeps_lowBitsEvents (vs : List Bit) : sleeps (lowBitsEvents vs) = 2 * vs.length := by
  induction vs with
  | nil => rfl
  | cons v vs ih =>
    rw [lowBitsEvents_cons, sleeps_append, sleeps_append, sleeps_writeBitEvents, sleeps_clockLowEvents, ih,
      List.length_cons]
    omega

theorem sleeps_readBits (vs : List Bit) : sleeps (vs.flatMap readBitEvents) = 2 * vs.length := by
  induction vs with
  | nil => rfl
  | cons v vs ih =>
    rw [List.flatMap_cons, sleeps_append, sleeps_readBitEvents, ih, List.length_cons]
    omega

/-- START and the eight bits of the header. -/
theorem sleeps_headerEvents (a : RegIdx) (dir : Bit) : sleeps (headerEvents a dir) = 18 := by
  rw [headerEvents, sleeps_append, sleeps_startEvents, sleeps_lowBitsEvents]
  rfl

/-- The separator and the bits of every byte; CLOCK_LOW, which the last bit goes without, has no delay (D5). -/
theorem sleeps_writeBodyEvents (bs : List Byte) : sleeps (writeBodyEvents bs) = 18 * bs.length := by
  induction bs with
  | nil => rfl
  | cons b bs ih =>
    cases bs with
    | nil => rfl
    | cons c cs =>
      rw [writeBodyEvents_cons, sleeps_append, sleeps_append, sleeps_append, sleeps_writeBitEvents,
        sleeps_clockLowEvents, sleeps_lowBitsEvents, ih]
      simp only [byteBits, length_numberToBits, List.length_cons]
      omega

/-- Two role switches and eight read pulses. -/
theorem sleeps_readByteEvents (b : Byte) : sleeps (readByteEvents b) = 18 := by
  rw [readByteEvents, sleeps_append, sleeps_append, sleeps_roleEvents, sleeps_readBits, sleeps_roleEvents]
  rfl

theorem sleeps_readBodyEvents (rx : List Byte) : sleeps (readBodyEvents rx) = 20 * rx.length := by
  induction rx with
  | nil => rfl
  | cons b rx ih =>
    cases rx with
    | nil => rw [readBodyEvents, sleeps_append, sleeps_readByteEvents]; rfl
    | cons c cs =>
      rw [readBodyEvents_cons, sleeps_append, sleeps_append, sleeps_append, sleeps_readByteEvents,
        sleeps_writeBitEvents, sleeps_clockLowEvents, ih]
      simp only [List.length_cons]
      omega

/-- Settles O7, from the header, the body and the end of a burst. -/
theorem burstSleepCounts : Obligations.BurstSleepCounts := by
  refine ⟨fun a bs b => ?_, fun a rx _ => ?_⟩
  · rw [Frame.events, sleeps_append, sleeps_append, sleeps_headerEvents, sleeps_writeBodyEvents, writeEndEvents,
      sleeps_endBurstEvents, List.getLast?_concat, Option.getD_some, List.length_append, List.length_singleton]
  · rw [Frame.events, sleeps_append, sleeps_headerEvents, sleeps_readBodyEvents]

end Sys2Proof.Machine
end

section
/-! PROOF. O16 to O20: the operations of the Framer (R113, R115, R117, R119). -/

namespace Sys2Proof.Machine

/-! ## The argument checks (R113) -/

theorem registerOk_of_range {a : Int} (h0 : 0 ≤ a) (h127 : a ≤ 127) : registerOk a = true := by
  simp [registerOk, h0, h127]

theorem registerOk_of_outside {a : Int} (h : a < 0 ∨ 127 < a) : registerOk a = false := by
  simp only [registerOk, Bool.and_eq_false_iff, decide_eq_false_iff_not]
  omega

theorem checkWrite_of_registerOk {a : Int} (h : registerOk a = true) (bs : List Byte) :
    checkWrite a bs = if bs = [] then some .emptyBurst else none := by
  simp [checkWrite, h]

theorem checkRead_of_registerOk {a : Int} (h : registerOk a = true) (n : Int) :
    checkRead a n = if n < 1 then some .emptyBurst else none := by
  simp [checkRead, h]

theorem checkWrite_badRegister {a : Int} (h : registerOk a = false) (bs : List Byte) :
    checkWrite a bs = some .badRegister := if_pos h

theorem checkRead_badRegister {a : Int} (h : registerOk a = false) (n : Int) :
    checkRead a n = some .badRegister := if_pos h

theorem execWriteBurst_raise {s : State} (ho : s.link = .opened) {a : Int} {bs : List Byte} {c : Cause}
    (hc : checkWrite a bs = some c) : exec (.writeBurst a bs) s = .next (s.returnUp (.error c)) := by
  rw [exec, execWriteBurst, whenOpen_opened ho, hc]
  rfl

theorem execReadBurst_raise {s : State} (ho : s.link = .opened) {a n : Int} {c : Cause}
    (hc : checkRead a n = some c) : exec (.readBurst a n) s = .next (s.returnUp (.error c)) := by
  rw [exec, execReadBurst, whenOpen_opened ho, hc]
  rfl

/-- Settles O19, by the checks in their order. -/
theorem burstArgumentChecks : Obligations.BurstArgumentChecks := by
  intro s a n bs ho
  refine ⟨fun ha => ?_, fun h0 h127 => ?_⟩
  · have hreg := registerOk_of_outside ha
    exact ⟨execWriteBurst_raise ho (checkWrite_badRegister hreg bs),
      execReadBurst_raise ho (checkRead_badRegister hreg n)⟩
  · have hreg := registerOk_of_range h0 h127
    exact ⟨execWriteBurst_raise ho ((checkWrite_of_registerOk hreg []).trans (if_pos rfl)),
      fun hn => execReadBurst_raise ho ((checkRead_of_registerOk hreg n).trans (if_pos hn))⟩

/-! ## The bursts (R115, R117) -/

/-- Settles O16: the arguments pass their checks, and the burst is its closed form. -/
theorem writeBurstSendsItsFrame : Obligations.WriteBurstSendsItsFrame := by
  intro s a bs hready h0 h127 hbs
  have hcheck : checkWrite a bs = none :=
    (checkWrite_of_registerOk (registerOk_of_range h0 h127) bs).trans (if_neg hbs)
  rw [exec, execWriteBurst, whenOpen_opened hready.1, hcheck]
  dsimp only
  rw [sendFrame_eq _ bs s hready hbs]
  rfl

/-- Settles O17: the arguments pass their checks, and the burst is its closed form. -/
theorem readBurstReturnsWhatTheTargetPresents : Obligations.ReadBurstReturnsWhatTheTargetPresents := by
  intro s a n hready h0 h127 hn
  have hcheck : checkRead a n = none :=
    (checkRead_of_registerOk (registerOk_of_range h0 h127) n).trans (if_neg (by omega))
  rw [exec, execReadBurst, whenOpen_opened hready.1, hcheck]
  dsimp only
  rw [recvFrame_eq _ n.toNat s hready (by omega)]
  rfl

/-- READ_BURST at a configured index. -/
theorem execReadBurst_eq {s : State} (hready : s.ready) (a : RegIdx) {n : Nat} (hn : 1 ≤ n) :
    exec (.readBurst a.toNat n) s =
      .next { s.heard a n with ret := some (.ok (.bytes (s.presented a n))) } := by
  have ha := regIdx_le a
  simpa using readBurstReturnsWhatTheTargetPresents s a.toNat n hready (by omega) (by omega) (by omega)

/-! ## The bytes the target presents (R60, R62, R74) -/

theorem State.presentedBits_given {s : State} {b : Byte} {answers : List Bit}
    (h : s.target = .oracle (byteBits b ++ answers)) (a : RegIdx) (k : Nat) : s.presentedBits a k 0 = byteBits b := by
  simp [State.presentedBits, State.levelAt, h, byteBits, numberToBits]

theorem State.nextByte_given {s : State} {b : Byte} {answers : List Bit}
    (h : s.target = .oracle (byteBits b ++ answers)) (a : RegIdx) (k : Nat) : s.nextByte a k = b := by
  rw [State.nextByte, State.presentedBits_given h, byteOfBits_byteBits]

theorem Target.drop_given (bits answers : List Bit) :
    (Target.oracle (bits ++ answers)).drop bits.length = .oracle answers :=
  congrArg Target.oracle List.drop_left

/-- Given answers that are the bits of some bytes are received as those bytes. -/
theorem State.bytesFrom_given {s : State} {bs : List Byte} {answers : List Bit}
    (h : s.target = .oracle (bs.flatMap byteBits ++ answers)) (a : RegIdx) (k : Nat) : s.bytesFrom a k bs.length = bs := by
  induction bs generalizing s k with
  | nil => rfl
  | cons b bs ih =>
    rw [List.flatMap_cons, List.append_assoc] at h
    have hrest : (s.answered 8).target = .oracle (bs.flatMap byteBits ++ answers) := by
      rw [State.answered_target, h]
      exact Target.drop_given (byteBits b) _
    rw [List.length_cons, State.bytesFrom_succ, State.nextByte_given h, ih hrest]

theorem State.presented_eq_bytesFrom (s : State) (a : RegIdx) (n : Nat) : s.presented a n = s.bytesFrom a 0 n := by
  simp [State.presented, State.bytesFrom]

theorem length_flatMap_byteBits (bs : List Byte) : (bs.flatMap byteBits).length = 8 * bs.length := by
  simp [List.length_flatMap, byteBits, mul_comm]

/-- The reference target presents the bits of the byte it answers with (R62). -/
theorem State.presented_reference {s : State} (h : s.target = .reference) (a : RegIdx) (n : Nat) :
    s.presented a n = (List.range n).map fun k => s.dev.readReg (a.toNat + k) := by
  have hbits : ∀ k i, s.presentedBits a k i = byteBits (s.dev.readReg (a.toNat + k)) := fun k i => by
    simp [State.presentedBits, State.levelAt, h, byteBits, numberToBits, BitVec.getLsbD]
  simp only [State.presented, hbits, byteOfBits_byteBits]

/-- Settles O18, by induction on the given bytes, and byte by byte of the reference target. -/
theorem readBurstReturnsTheTargetsBytes : Obligations.ReadBurstReturnsTheTargetsBytes := by
  intro s a hready
  refine ⟨fun bs rest hbs htarget => ?_, fun n hn htarget => ?_⟩
  · have hbytes : s.presented a bs.length = bs :=
      (s.presented_eq_bytesFrom a bs.length).trans (State.bytesFrom_given htarget a 0)
    have hlen : 8 * bs.length = (bs.flatMap byteBits).length := (length_flatMap_byteBits bs).symm
    refine ⟨_, execReadBurst_eq hready a (List.length_pos_iff.mpr hbs), ?_, ?_, ?_⟩
    · rw [hbytes]
    · rw [State.heard_frames, State.readFrame, hbytes]
    · rw [State.heard_target, htarget, hlen]
      exact Target.drop_given (bs.flatMap byteBits) rest
  · refine ⟨_, execReadBurst_eq hready a hn, ?_, rfl⟩
    rw [State.presented_reference htarget]
    rfl

/-! ## END_BURST (R119) -/

/-- Raising the data line at a high clock is no START and no pulse: the target sees nothing. -/
theorem State.emits_endBurst {s : State} (v : Bit) (hp : s.pins = Pins.written v) :
    s.emits (endBurstEvents v) =
      { s.observe (endBurstEvents v) with pins := Pins.idle } := by
  rw [State.emits_eq, hp, Dev.watch_writeEnd]
  cases v <;> rfl

/-- Settles O20, by the level of the data line. -/
theorem endBurstRaisesTheDataLine : Obligations.EndBurstRaisesTheDataLine := by
  intro s ho hz hr hq
  rw [exec, execEndBurst, whenOpen_opened ho, endBurst, if_pos ⟨hz, hr, hq⟩]
  by_cases hv : s.pins.zdaOut = false
  · have hp : s.pins = Pins.written false := by rw [Pins.written, ← hz, ← hv, ← hr]
    rw [if_pos hv, if_pos hv]
    exact congrArg Host.Outcome.next ((State.emits_endBurst false hp).trans (by rw [hp]; rfl))
  · rw [if_neg hv, if_neg hv]

end Sys2Proof.Machine
end

section
/-! PROOF. O60: sensed data steers nothing but READ_SP and WRITE_SP (R120, R146). Two runs are followed side by side: every
change a command makes to the state keeps `SameController`, and a computation that answers on one side answers on the other
(`Follows`). -/

namespace Sys2Proof.Machine

/-! ## What does not depend on the level of a `Sense` -/

theorem timeAfter_blindEvent (delay : Rat) (n : Nat) (t : Rat) (es : List Event) :
    timeAfter delay n t (es.map blindEvent) = timeAfter delay n t es := by
  induction es generalizing n t with
  | nil => rfl
  | cons e es ih =>
    have he : eventTime delay (blindEvent e) = eventTime delay e := by cases e <;> rfl
    rw [List.map_cons, timeAfter, timeAfter, he, ih]

theorem Pins.after_blindEvent (p : Pins) (e : Event) : p.after (blindEvent e) = p.after e := by cases e <;> rfl

theorem Pins.afterAll_blindEvent (p : Pins) (es : List Event) : p.afterAll (es.map blindEvent) = p.afterAll es := by
  induction es generalizing p with
  | nil => rfl
  | cons e es ih => rw [List.map_cons, Pins.afterAll_cons, Pins.afterAll_cons, Pins.after_blindEvent, ih]

theorem Dev.watch_blindEvent (m : RegMap) (p : Pins) (n : Nat) (d : Dev) (es : List Event) :
    d.watch m p n (es.map blindEvent) = d.watch m p n es := by
  induction es generalizing p n d with
  | nil => rfl
  | cons e es ih =>
    have he : d.see m p (Config.undriven n) (blindEvent e) = d.see m p (Config.undriven n) e := by cases e <;> rfl
    rw [List.map_cons, Dev.watch, Dev.watch, he, Pins.after_blindEvent, ih]

/-- Of the bits of a read burst only their number shows in its blind events. -/
theorem blindEvent_readBits (vs : List Bit) :
    (vs.flatMap readBitEvents).map blindEvent = (List.replicate vs.length false).flatMap readBitEvents := by
  induction vs with
  | nil => rfl
  | cons v vs ih => rw [List.flatMap_cons, List.map_append, ih]; rfl

theorem blindEvent_readByte (b : Byte) : (readByteEvents b).map blindEvent = readByteEvents 0 := by
  rw [readByteEvents, List.map_append, List.map_append, blindEvent_readBits]
  rfl

theorem blindEvent_readBody (rx : List Byte) :
    (readBodyEvents rx).map blindEvent = readBodyEvents (List.replicate rx.length 0) := by
  induction rx with
  | nil => rfl
  | cons b rx ih =>
    cases rx with
    | nil => rw [readBodyEvents, List.map_append, blindEvent_readByte]; rfl
    | cons c cs =>
      rw [readBodyEvents_cons, List.map_append, List.map_append, List.map_append, blindEvent_readByte, ih]
      rfl

theorem blindEvent_header (a : RegIdx) (dir : Bit) : (headerEvents a dir).map blindEvent = headerEvents a dir := rfl

/-- Read bursts of equally many bytes have the same blind events. -/
theorem blindEvent_readFrame (a : RegIdx) (n : Nat) {rx ry : List Byte} (h : rx.length = ry.length) :
    (Frame.read a n rx).events.map blindEvent = (Frame.read a n ry).events.map blindEvent := by
  rw [Frame.events, Frame.events, List.map_append, List.map_append, blindEvent_readBody, blindEvent_readBody, h]

theorem map_zero_eq_of_length {rx ry : List Byte} (h : rx.length = ry.length) :
    rx.map (fun _ => (0 : Byte)) = ry.map (fun _ => 0) := by
  rw [List.map_const', List.map_const', h]

theorem blindValue_bytes {rx ry : List Byte} (h : rx.length = ry.length) :
    blindValue (.bytes rx) = blindValue (.bytes ry) := congrArg Value.bytes (map_zero_eq_of_length h)

theorem blindValue_word (v w : Word16) : blindValue (.word v) = blindValue (.word w) := by
  rw [blindValue, blindValue]

/-! ## The reference target, its read space aside -/

/-- Two reference targets that agree on everything but the read space. -/
structure Dev.AgreeButRead (d e : Dev) : Prop where
  w   : d.w = e.w
  bus : d.bus = e.bus

namespace Dev.AgreeButRead

variable {d e : Dev}

theorem atBus (h : AgreeButRead d e) (x : Bus) : AgreeButRead { d with bus := x } { e with bus := x } := ⟨h.w, rfl⟩

theorem store (h : AgreeButRead d e) (m : RegMap) (a : Nat) (b : Byte) :
    AgreeButRead (d.store m a b) (e.store m a b) where
  w := by
    simp only [Dev.store]
    split <;> split <;> simp only [h.w]
  bus := by rw [Dev.store_bus, Dev.store_bus, h.bus]

theorem storeAll (h : AgreeButRead d e) (m : RegMap) (a : Nat) (bs : List Byte) :
    AgreeButRead (d.storeAll m a bs) (e.storeAll m a bs) := by
  induction bs generalizing d e a with
  | nil => exact h
  | cons b bs ih => exact ih (h.store m a b) (a + 1)

theorem apply (h : AgreeButRead d e) (m : RegMap) (f : Frame) : AgreeButRead (d.apply m f) (e.apply m f) := by
  cases f with
  | write a bs => exact (h.storeAll m a.toNat bs).atBus _
  | read a n rx => exact h.atBus _

theorem ite (c : Prop) [Decidable c] {d' e' : Dev} (h : AgreeButRead d e) (h' : AgreeButRead d' e') :
    AgreeButRead (if c then d else d') (if c then e else e') := by
  split
  · exact h
  · exact h'

theorem pulse (h : AgreeButRead d e) (m : RegMap) (v : Bit) : AgreeButRead (d.pulse m v) (e.pulse m v) := by
  unfold Dev.pulse
  rw [← h.bus]
  split
  case h_1 => exact h
  case h_5 => exact ite _ (h.atBus _) ((h.store m _ _).atBus _)
  all_goals exact h.atBus _

theorem see (h : AgreeButRead d e) (m : RegMap) (p : Pins) (z : Bit) (x : Event) :
    AgreeButRead (d.see m p z x) (e.see m p z x) := by
  cases x with
  | drive l v =>
    cases l with
    | zda => exact ite _ (h.atBus _) h
    | zcl => exact ite _ (h.pulse m _) h
  | setRole r => exact ite _ (h.atBus _) h
  | acquire l | release l | sense v | sleep => exact h

theorem watch (h : AgreeButRead d e) (m : RegMap) (p : Pins) (n : Nat) (es : List Event) :
    AgreeButRead (d.watch m p n es) (e.watch m p n es) := by
  induction es generalizing p n d e with
  | nil => exact h
  | cons x es ih => exact ih (h.see m p _ x) (p.after x) (n + 1)

end Dev.AgreeButRead

/-! ## The changes a command makes to the state -/

namespace SameController

variable {s u : State}

theorem dev (h : SameController s u) : s.dev.AgreeButRead u.dev := ⟨h.dev_w, h.dev_bus⟩

theorem delay (h : SameController s u) : s.delay = u.delay := by rw [State.delay, State.delay, h.cfg]

theorem trace_length (h : SameController s u) : s.trace.length = u.trace.length := by
  simpa using congrArg List.length h.trace

theorem ready (h : SameController s u) (hr : s.ready) : u.ready := by
  obtain ⟨ho, hp, hq⟩ := hr
  exact ⟨h.link ▸ ho, h.pins ▸ hp, h.seq ▸ hq⟩

theorem withDev (h : SameController s u) {d e : Dev} (hd : d.AgreeButRead e) :
    SameController { s with dev := d } { u with dev := e } := { h with dev_w := hd.w, dev_bus := hd.bus }

theorem withCfg (h : SameController s u) (c : Option Cfg) : SameController { s with cfg := c } { u with cfg := c } :=
  { h with cfg := rfl }

theorem withSession (h : SameController s u) (x : Session) : SameController (s.withSession x) (u.withSession x) :=
  { h with session := rfl }

theorem answered (h : SameController s u) (n : Nat) : SameController (s.answered n) (u.answered n) :=
  { h with senses := congrArg (· + n) h.senses }

theorem respond (h : SameController s u) {r q : Response} (hr : blindResponse r = blindResponse q) :
    SameController (s.respond r) (u.respond q) where
  __ := h
  responses := by simp [h.responses, hr]

theorem returnUp (h : SameController s u) {r q : Response} (hr : blindResponse r = blindResponse q) :
    SameController (s.returnUp r) (u.returnUp q) :=
  { h with ret := congrArg some hr }

theorem complete (h : SameController s u) {f g : Frame} (hf : blindFrame f = blindFrame g) :
    SameController (s.complete f) (u.complete g) where
  __ := h
  seq := rfl
  work := rfl
  frames := by simp [h.frames, hf]

theorem observe (h : SameController s u) {es fs : List Event} (he : es.map blindEvent = fs.map blindEvent) :
    SameController (s.observe es) (u.observe fs) where
  __ := h
  trace := by simp [h.trace, he]
  elapsed := by
    rw [State.observe_elapsed, State.observe_elapsed, ← timeAfter_blindEvent, he, timeAfter_blindEvent, h.delay,
      h.trace_length, h.elapsed]

theorem emits (h : SameController s u) {es fs : List Event} (he : es.map blindEvent = fs.map blindEvent) :
    SameController (s.emits es) (u.emits fs) := by
  have hpins : s.pins.afterAll es = u.pins.afterAll fs := by
    rw [← Pins.afterAll_blindEvent, he, Pins.afterAll_blindEvent, h.pins]
  have hdev : (s.dev.watch s.map s.pins s.trace.length es).AgreeButRead
      (u.dev.watch u.map u.pins u.trace.length fs) := by
    rw [← Dev.watch_blindEvent, he, Dev.watch_blindEvent, h.map, h.pins, h.trace_length]
    exact h.dev.watch _ _ _ _
  rw [State.emits_eq, State.emits_eq]
  exact { h.observe he with pins := hpins, dev_w := hdev.w, dev_bus := hdev.bus }

theorem sent (h : SameController s u) (f : Frame) : SameController (s.sent f) (u.sent f) := by
  unfold State.sent
  rw [h.map]
  exact ((h.observe rfl).complete rfl).withDev (h.dev.apply _ f)

/-- A read burst receives as many bytes in both runs, whatever they are. -/
theorem heard (h : SameController s u) (a : RegIdx) (n : Nat) : SameController (s.heard a n) (u.heard a n) := by
  have hlen : (s.presented a n).length = (u.presented a n).length := by simp
  have hframe : blindFrame (s.readFrame a n) = blindFrame (u.readFrame a n) :=
    congrArg (Frame.read a n) (map_zero_eq_of_length hlen)
  exact (((h.observe (blindEvent_readFrame a n hlen)).complete hframe).answered (8 * n)).withDev (h.dev.atBus _)

/-- Whether raising ZCL is a clock pulse, and with which level, is the same in both runs (log 31). -/
theorem linkOpened (h : SameController s u) (c d : PinId) (f : Rat) :
    SameController (s.linkOpened c d f) (u.linkOpened c d f) := by
  have hdev : (s.linkOpened c d f).dev.AgreeButRead (u.linkOpened c d f).dev := by
    unfold State.linkOpened
    rw [h.map, h.trace_length]
    exact h.dev.ite _ (h.dev.pulse _ _)
  exact
    { (h.withCfg (some { clkPin := c, dataPin := d, fTarget := f, delay := 3 / f })).observe rfl with
      link := rfl
      pins := rfl
      session := rfl
      seq := rfl
      work := rfl
      responses := (h.respond rfl).responses
      dev_w := hdev.w
      dev_bus := hdev.bus }

theorem linkClosed (h : SameController s u) : SameController s.linkClosed u.linkClosed := by
  have hdev : s.linkClosed.dev.AgreeButRead u.linkClosed.dev := by
    unfold State.linkClosed
    rw [h.map, h.pins, h.trace_length]
    exact (h.dev.pulse _ _).ite _ ((h.dev.atBus _).ite _ h.dev)
  have hevents := h.observe (es := (if s.pins.role = .sensing then [.setRole .driving] else []) ++ closeEvents)
    (fs := (if u.pins.role = .sensing then [.setRole .driving] else []) ++ closeEvents) (by rw [h.pins])
  exact
    { hevents with
      link := rfl
      pins := rfl
      session := rfl
      responses := (h.respond rfl).responses
      dev_w := hdev.w
      dev_bus := hdev.bus }

end SameController

/-! ## Computations side by side -/

/-- Where the one computation answers, the other answers too, and the answers are related. -/
def Follows {α β : Type} (R : α → β → Prop) (o : Out α) (p : Out β) : Prop :=
  ∀ a, o = .next a → ∃ b, p = .next b ∧ R a b

namespace Follows

variable {α β γ δ : Type} {R : α → β → Prop} {S : γ → δ → Prop} {s u : State}

theorem next {a : α} {b : β} (h : R a b) : Follows R (.next a) (.next b) := by
  rintro _ ⟨⟩
  exact ⟨b, rfl, h⟩

theorem fault (r : Fault) (p : Out β) : Follows R (.fault r) p := nofun

theorem refused (r : Refusal) (p : Out β) : Follows R (.refused r) p := nofun

theorem andThen {o : Out α} {p : Out β} {f : α → Out γ} {g : β → Out δ} (h : Follows R o p)
    (hfg : ∀ a b, R a b → Follows S (f a) (g b)) : Follows S (Machine.andThen o f) (Machine.andThen p g) := by
  intro c hc
  obtain ⟨a, ha, hc⟩ := andThen_eq_next hc
  obtain ⟨b, rfl, hab⟩ := h a ha
  exact hfg a b hab c hc

theorem whenOpen (h : SameController s u) {o : Out State} {p : Out State} (hop : Follows SameController o p) :
    Follows SameController (Machine.whenOpen s o) (Machine.whenOpen u p) := by
  intro t ht
  obtain ⟨ho, ht⟩ := whenOpen_eq_next ht
  rw [whenOpen_opened (h.link ▸ ho)]
  exact hop t ht

/-- A guarded operation, when the guard reads the same in both runs. -/
theorem guarded {c d : Prop} [Decidable c] [Decidable d] (hcd : c → d) {a : α} {b : β} (h : R a b) (r : Fault) :
    Follows R (if c then .next a else .fault r) (if d then .next b else .fault r) := by
  split
  · rw [if_pos (hcd ‹_›)]
    exact next h
  · exact fault r _

/-! ### The Link (R91 to R94, R98) -/

theorem start (h : SameController s u) : Follows SameController (start s) (start u) :=
  guarded (by rw [h.link, h.pins]; exact id) (h.emits rfl) _

theorem writeBit (v : Bit) (h : SameController s u) : Follows SameController (writeBit v s) (writeBit v u) :=
  guarded (by rw [h.link, h.pins]; exact id) (h.emits rfl) _

theorem clockLow (h : SameController s u) : Follows SameController (clockLow s) (clockLow u) :=
  guarded (by rw [h.link, h.pins]; exact id) (h.emits rfl) _

/-- The levels sensed may differ, and nothing but they. -/
theorem readBit (h : SameController s u) :
    Follows (fun p q => SameController p.2 q.2) (readBit s) (readBit u) := by
  refine guarded (by rw [h.link, h.pins]; exact id) ?_ _
  exact ((h.emits rfl).answered 1).emits rfl

theorem setDirection (r : Role) (h : SameController s u) :
    Follows SameController (setDirection r s) (setDirection r u) := by
  refine whenOpen h ?_
  rw [h.pins]
  split
  · exact next h
  · exact next (h.emits rfl)

/-! ### Bursts (R115, R117, R119) -/

theorem endBurst (h : SameController s u) : Follows SameController (endBurst s) (endBurst u) := by
  refine guarded (by rw [h.pins, h.seq]; exact id) ?_ _
  rw [h.pins]
  split
  · exact h.emits rfl
  · exact h

theorem sendFrame (a : RegIdx) (bs : List Byte) (h : SameController s u) :
    Follows SameController (sendFrame a bs s) (sendFrame a bs u) := by
  intro t ht
  obtain ⟨hready, hbs, rfl⟩ := sendFrame_next ht
  exact ⟨_, sendFrame_eq a bs u (h.ready hready) hbs, h.sent _⟩

/-- As many bytes are received in both runs. -/
theorem recvFrame (a : RegIdx) (n : Nat) (h : SameController s u) :
    Follows (fun p q => p.1.length = q.1.length ∧ SameController p.2 q.2) (recvFrame a n s) (recvFrame a n u) := by
  rintro ⟨rx, t⟩ ht
  obtain ⟨hready, hn, rfl, rfl⟩ := recvFrame_next ht
  exact ⟨_, recvFrame_eq a n u (h.ready hready) hn, by simp, h.heard a n⟩

theorem memWrite (a : Int) (bs : List Byte) (h : SameController s u) :
    Follows SameController (memWrite a bs s) (memWrite a bs u) := by
  unfold Machine.memWrite
  split
  · exact next (h.respond rfl)
  · exact (sendFrame _ bs h).andThen fun _ _ h => next (h.respond rfl)

theorem memRead (a n : Int) {f : List Byte → Value}
    (hf : ∀ rx ry, rx.length = ry.length → blindValue (f rx) = blindValue (f ry)) (h : SameController s u) :
    Follows SameController (memRead a n f s) (memRead a n f u) := by
  unfold Machine.memRead
  split
  · exact next (h.respond rfl)
  · exact (recvFrame _ _ h).andThen fun _ _ ⟨hlen, h⟩ => next (h.respond (congrArg Response.ok (hf _ _ hlen)))

/-! ### The Session (R132, R134, R160, R171, R174) -/

theorem statusRead (h : SameController s u) :
    Follows (fun p q => SameController p.2 q.2) (statusRead s) (statusRead u) := by
  unfold Machine.statusRead
  rw [h.map]
  exact (recvFrame _ 1 h).andThen fun _ _ ⟨_, h⟩ => next h

theorem readGroup (g : Group) (h : SameController s u) : Follows SameController (readGroup g s) (readGroup g u) := by
  unfold Machine.readGroup
  rw [h.map]
  exact whenOpen h (memRead _ _ (fun _ _ => blindValue_bytes) h)

theorem writeGroup (g : Group) (bs : List Byte) (h : SameController s u) :
    Follows SameController (writeGroup g bs s) (writeGroup g bs u) := by
  unfold Machine.writeGroup
  rw [h.map]
  exact whenOpen h (memWrite _ bs h)

theorem sendAll (ws : List (RegIdx × Byte)) (h : SameController s u) :
    Follows SameController (sendAll ws s) (sendAll ws u) := by
  induction ws generalizing s u with
  | nil => exact next h
  | cons p ws ih => exact (sendFrame _ _ h).andThen fun _ _ h => ih h

theorem writeCtl (h : SameController s u) : Follows SameController (writeCtl s) (writeCtl u) := by
  unfold Machine.writeCtl
  rw [h.map, h.session]
  exact (sendFrame _ _ h).andThen fun _ _ h => next (h.respond rfl)

theorem storeByte (a : RegIdx) (cached new : Byte) (update : Session → Session) (h : SameController s u) :
    Follows SameController (storeByte a cached new update s) (storeByte a cached new update u) := by
  unfold Machine.storeByte
  split
  · exact next h
  · refine (sendFrame _ _ h).andThen fun _ _ h => next ?_
    rw [h.session]
    exact h.withSession _

theorem storeAddress (x : SetArgs) (h : SameController s u) :
    Follows SameController (storeAddress x s) (storeAddress x u) := by
  unfold Machine.storeAddress
  rw [h.map, h.session]
  refine (storeByte _ _ _ _ h).andThen fun s u h => ?_
  rw [h.map, h.session]
  refine (storeByte _ _ _ _ h).andThen fun s u h => ?_
  rw [h.map, h.session]
  split
  · exact storeByte _ _ _ _ h
  · exact next h

/-- The control write that ends an operation of the Session. -/
theorem ctlCommand (x : Session) (h : SameController s u) :
    Follows SameController (Machine.whenOpen s (Machine.writeCtl (s.withSession x)))
      (Machine.whenOpen u (Machine.writeCtl (u.withSession x))) :=
  whenOpen h (writeCtl (h.withSession x))

/-! ### The operations -/

theorem execLinkOpen (c d : PinId) (f : Rat) (h : SameController s u) :
    Follows SameController (execLinkOpen c d f s) (execLinkOpen c d f u) := by
  rw [execLinkOpen_eq, execLinkOpen_eq, h.link]
  split
  · exact refused _ _
  · split
    · exact next (h.respond rfl)
    · exact next (h.linkOpened c d f)

theorem execClose (h : SameController s u) : Follows SameController (execClose s) (execClose u) := by
  intro t ht
  have ho : s.link = .opened := (whenOpen_eq_next ht).1
  rw [execClose_eq ho] at ht
  rw [execClose_eq (h.link ▸ ho)]
  exact next h.linkClosed t ht

theorem execExecuteInstructions (ops : List Byte) (h : SameController s u) :
    Follows SameController (execExecuteInstructions ops s) (execExecuteInstructions ops u) := by
  refine whenOpen h ?_
  rw [h.map]
  split
  · exact next (h.respond rfl)
  · exact memWrite _ _ h

theorem execSetBreakpoint (n up hi : Int) (lo : Option Int) (h : SameController s u) :
    Follows SameController (execSetBreakpoint n up hi lo s) (execSetBreakpoint n up hi lo u) := by
  refine whenOpen h ?_
  split
  · exact next (h.respond rfl)
  · refine (storeAddress _ h).andThen fun s u h => ?_
    rw [h.session]
    exact writeCtl (h.withSession _)

theorem execDisableBreakpoint (n : Int) (h : SameController s u) :
    Follows SameController (execDisableBreakpoint n s) (execDisableBreakpoint n u) := by
  refine whenOpen h ?_
  split
  · exact next (h.respond rfl)
  · rw [h.session]
    exact writeCtl (h.withSession _)

theorem execWriteBurst (a : Int) (bs : List Byte) (h : SameController s u) :
    Follows SameController (execWriteBurst a bs s) (execWriteBurst a bs u) := by
  refine whenOpen h ?_
  split
  · exact next (h.returnUp rfl)
  · exact (sendFrame _ bs h).andThen fun _ _ h => next (h.returnUp rfl)

theorem execReadBurst (a n : Int) (h : SameController s u) :
    Follows SameController (execReadBurst a n s) (execReadBurst a n u) := by
  refine whenOpen h ?_
  split
  · exact next (h.returnUp rfl)
  · exact (recvFrame _ _ h).andThen fun _ _ ⟨hlen, h⟩ =>
      next (h.returnUp (congrArg Response.ok (blindValue_bytes hlen)))

end Follows

/-- Every operation but READ_SP and WRITE_SP goes the same way in both runs. -/
theorem exec_follows {i : Instr} {s u : State} (hread : i ≠ .readSp) (hwrite : ∀ bs, i ≠ .writeSp bs)
    (h : SameController s u) : Follows SameController (exec i s) (exec i u) := by
  cases i with
  | linkOpen c d f => exact .execLinkOpen c d f h
  | close => exact .execClose h
  | readProductId =>
    rw [exec, exec, execReadProductId, execReadProductId, h.map]
    exact .whenOpen h (.memRead _ _ (fun _ _ _ => blindValue_word _ _) h)
  | readProductRevision =>
    rw [exec, exec, execReadProductRevision, execReadProductRevision, h.map]
    exact .whenOpen h (.memRead _ _ (fun _ _ _ => rfl) h)
  | readMbaseFA | readBcuBC | readDeuDE | readIx | readIy => exact .readGroup _ h
  | writeMbaseFA bs | writeBcuBC bs | writeDeuDE bs | writeIx bs | writeIy bs => exact .writeGroup _ bs h
  | readSp => exact absurd rfl hread
  | writeSp bs => exact absurd rfl (hwrite bs)
  | readMem n =>
    rw [exec, exec, execReadMem, execReadMem, h.map]
    exact .whenOpen h (.memRead _ _ (fun _ _ => blindValue_bytes) h)
  | writeMem bs =>
    rw [exec, exec, execWriteMem, execWriteMem, h.map]
    exact .whenOpen h (.memWrite _ bs h)
  | executeInstructions ops => exact .execExecuteInstructions ops h
  | reset =>
    rw [exec, exec, execReset, execReset, h.map, h.session]
    exact .whenOpen h ((Follows.sendAll _ h).andThen fun _ _ h => .next (h.respond rfl))
  | setBreakpoint n up hi lo => exact .execSetBreakpoint n up hi lo h
  | disableBreakpoint n => exact .execDisableBreakpoint n h
  | breakNow =>
    rw [exec, exec, execBreakNow, execBreakNow, h.session]
    exact .ctlCommand _ h
  | continueAfterBreak b =>
    rw [exec, exec, execContinueAfterBreak, execContinueAfterBreak, h.session]
    exact .ctlCommand _ h
  | getBreakpointState =>
    rw [exec, exec, execGetBreakpointState, execGetBreakpointState, h.session]
    exact .whenOpen h (.next (h.respond rfl))
  | start => exact .start h
  | writeBit v => exact .writeBit v h
  | clockLow => exact .clockLow h
  | readBit => exact (Follows.readBit h).andThen fun _ _ h => .next (h.returnUp rfl)
  | setDataDirection r => exact .setDirection r h
  | writeBurst a bs => exact .execWriteBurst a bs h
  | readBurst a n => exact .execReadBurst a n h
  | endBurst => exact .whenOpen h (.endBurst h)
  | readStatus => exact .whenOpen h ((Follows.statusRead h).andThen fun _ _ h => .next (h.returnUp rfl))

/-- Settles O60, operation by operation. -/
theorem sensedDataSteersOnlyTheStackPointer : Obligations.SensedDataSteersOnlyTheStackPointer := by
  intro i s u t hread hwrite h hx
  exact exec_follows hread hwrite h t hx

end Sys2Proof.Machine
end

section
/-! PROOF. O21 to O29: the registers, memory, injection and reset of the Session (R130 to R161). A read or a write at a
configured index is its closed form behind the one check that can still fail; what a received list of one or two bytes
is made of is said once. -/

namespace Sys2Proof.Machine

/-! ## Commands that are one burst (R113, R115, R117) -/

/-- With a valid index only the emptiness check is left to fail. -/
theorem memWrite_of_registerOk {s : State} (h : s.ready) {a : Int} (ha : registerOk a = true) (bs : List Byte) :
    memWrite a bs s = .next
      (if bs = [] then s.respond (.error .emptyBurst)
       else (s.sent (.write (regIdx a) bs)).respond (.ok .unit)) := by
  have hcheck := checkWrite_of_registerOk ha bs
  split
  · exact memWrite_raise s a bs _ (hcheck.trans (if_pos ‹_›))
  · exact memWrite_ok a bs h (hcheck.trans (if_neg ‹_›))

theorem memWrite_configured {s : State} (h : s.ready) (a : RegIdx) (bs : List Byte) :
    memWrite a.toNat bs s = .next
      (if bs = [] then s.respond (.error .emptyBurst) else (s.sent (.write a bs)).respond (.ok .unit)) := by
  rw [memWrite_of_registerOk h (registerOk_toNat a), regIdx_toNat]

theorem memRead_configured {s : State} (h : s.ready) (a : RegIdx) (n : Int) (f : List Byte → Value) :
    memRead a.toNat n f s = .next
      (if n < 1 then s.respond (.error .emptyBurst)
       else (s.heard a n.toNat).respond (.ok (f (s.presented a n.toNat)))) := by
  have hcheck := checkRead_configured a n
  split
  · exact memRead_raise s a.toNat n f _ (hcheck.trans (if_pos ‹_›))
  · rw [memRead_ok a.toNat n f h (hcheck.trans (if_neg ‹_›)), regIdx_toNat]

/-! ## The bytes of a short read burst -/

theorem State.presented_one (s : State) (a : RegIdx) : s.presented a 1 = [firstByte (s.presented a 1)] := rfl

theorem State.presented_two (s : State) (a : RegIdx) : ∃ x y, s.presented a 2 = [x, y] := ⟨_, _, rfl⟩

/-! ## Identification and status (R130 to R132) -/

/-- Settles O21: the first byte received is the high half. -/
theorem readProductIdCombinesTwoBytes : Obligations.ReadProductIdCombinesTwoBytes := by
  intro s hready
  obtain ⟨x, y, hxy⟩ := s.presented_two s.map.rIdL
  refine ⟨x, y, hxy, ?_⟩
  have hcombine : combine (s.presented s.map.rIdL 2) = BitVec.ofNat 16 (x.toNat * 256 + y.toNat) := by
    rw [hxy]
    rfl
  rw [exec, execReadProductId, whenOpen_opened hready.1, memRead_configured hready, ← hcombine]
  rfl

/-- Settles O22: one byte is received, and it is the result. -/
theorem revisionAndStatusReadOneByte : Obligations.RevisionAndStatusReadOneByte := by
  intro s hready
  refine ⟨⟨_, s.presented_one _, ?_⟩, ⟨s.statusByte, s.presented_one _, ?_⟩⟩
  · rw [exec, execReadProductRevision, whenOpen_opened hready.1, memRead_configured hready]
    rfl
  · rw [exec, execReadStatus, whenOpen_opened hready.1, statusRead_eq hready]
    rfl

/-! ## Register groups (R134, R135) -/

theorem readGroup_eq {s : State} (h : s.ready) (g : Group) :
    readGroup g s = .next
      (if (s.map.group g).len = 0 then s.respond (.error .emptyBurst)
       else (s.heard (s.map.group g).rdReg (s.map.group g).len).respond
         (.ok (.bytes (s.presented (s.map.group g).rdReg (s.map.group g).len)))) := by
  have hempty : ((s.map.group g).len : Int) < 1 ↔ (s.map.group g).len = 0 := by omega
  rw [readGroup, whenOpen_opened h.1, memRead_configured h]
  simp only [hempty, Int.toNat_natCast]

theorem writeGroup_eq {s : State} (h : s.ready) (g : Group) (bs : List Byte) :
    writeGroup g bs s = .next
      (if bs = [] then s.respond (.error .emptyBurst)
       else (s.sent (.write (s.map.group g).wrReg bs)).respond (.ok .unit)) := by
  rw [writeGroup, whenOpen_opened h.1, memWrite_configured h]

/-- Settles O23, group by group. -/
theorem groupReadsAreOneReadBurst : Obligations.GroupReadsAreOneReadBurst := by
  intro s i g hready hmem
  simp only [List.mem_cons, Prod.mk.injEq, List.not_mem_nil, or_false] at hmem
  rcases hmem with ⟨rfl, rfl⟩ | ⟨rfl, rfl⟩ | ⟨rfl, rfl⟩ | ⟨rfl, rfl⟩ | ⟨rfl, rfl⟩
  · exact readGroup_eq hready .mbaseFA
  · exact readGroup_eq hready .bcuBC
  · exact readGroup_eq hready .deuDE
  · exact readGroup_eq hready .ix
  · exact readGroup_eq hready .iy

/-- Settles O24, group by group. -/
theorem groupWritesAreOneWriteBurst : Obligations.GroupWritesAreOneWriteBurst := by
  intro s bs i g hready hmem
  simp only [List.mem_cons, Prod.mk.injEq, List.not_mem_nil, or_false] at hmem
  rcases hmem with ⟨rfl, rfl⟩ | ⟨rfl, rfl⟩ | ⟨rfl, rfl⟩ | ⟨rfl, rfl⟩ | ⟨rfl, rfl⟩
  · exact writeGroup_eq hready .mbaseFA bs
  · exact writeGroup_eq hready .bcuBC bs
  · exact writeGroup_eq hready .deuDE bs
  · exact writeGroup_eq hready .ix bs
  · exact writeGroup_eq hready .iy bs

/-! ## The stack pointer (R146, R147) -/

theorem execReadSp_eq {s : State} (h : s.ready) :
    execReadSp s = .next ((s.afterStatus.heard s.map.spRdReg (spWidth s.map s.statusByte)).respond
      (.ok (.bytes (s.afterStatus.presented s.map.spRdReg (spWidth s.map s.statusByte))))) := by
  rw [execReadSp, whenOpen_opened h.1, statusRead_eq h, andThen_next,
    recvFrame_eq _ _ _ (State.afterStatus_ready h) (one_le_spWidth _ _), andThen_next]
  rfl

theorem execWriteSp_eq {s : State} (h : s.ready) (bs : List Byte) :
    execWriteSp bs s =
      if bs = [] then .next (s.respond (.error .emptyBurst))
      else if bs.length = spWidth s.map s.statusByte then
        .next ((s.afterStatus.sent (.write s.map.spWrReg bs)).respond (.ok .unit))
      else .refused (.spLengthMismatch (.read s.map.rStat 1 [s.statusByte]) bs.length) := by
  have hmap : s.afterStatus.map = s.map := rfl
  rw [execWriteSp, whenOpen_opened h.1, statusRead_eq h, andThen_next]
  dsimp only
  rw [hmap, ite_not]
  split
  · rfl
  · rw [sendFrame_eq _ bs _ (State.afterStatus_ready h) ‹_›, andThen_next]

/-- Settles O25: the status read leaves the controller ready for the burst whose width its byte selects. -/
theorem readSpChoosesTheWidthFromTheStatus : Obligations.ReadSpChoosesTheWidthFromTheStatus := by
  intro s hready
  refine ⟨s.statusByte, s.presented_one _, ?_⟩
  intro u n
  have hn : spWidth s.map s.statusByte = n := rfl
  rw [exec, execReadSp_eq hready, hn, State.respond, State.heard_responses, State.afterStatus, State.heard_responses]

/-- Settles O26: an empty list never reaches the status read, a list of another length never reaches the write. -/
theorem writeSpChecksTheLengthAgainstTheStatus : Obligations.WriteSpChecksTheLengthAgainstTheStatus := by
  intro s bs hready
  refine ⟨s.statusByte, s.presented_one _, ?_⟩
  intro n
  have hn : spWidth s.map s.statusByte = n := rfl
  rw [exec, execWriteSp_eq hready, hn, State.respond, State.respond, State.sent_responses, State.afterStatus,
    State.heard_responses]

/-! ## Memory bursts and injection (R150, R151, R155) -/

/-- Settles O27, by the one burst of each. -/
theorem memoryBurstsAreOneBurst : Obligations.MemoryBurstsAreOneBurst := by
  intro s n bs hready
  refine ⟨?_, ?_⟩
  · rw [exec, execReadMem, whenOpen_opened hready.1]
    exact memRead_configured hready _ n _
  · rw [exec, execWriteMem, whenOpen_opened hready.1]
    exact memWrite_configured hready _ bs

theorem checkOpcodes_eq (ops : List Byte) :
    checkOpcodes ops = if 5 < ops.length then some .tooManyOpcodes else none := rfl

theorem regIdx_natCast (n : Nat) : regIdx n = BitVec.ofNat 7 n := BitVec.ofInt_natCast 7 n

/-- Settles O28: the opcode count, then the checks of the burst (R192). -/
theorem executeInstructionsWritesReversed : Obligations.ExecuteInstructionsWritesReversed := by
  intro s ops hready
  rw [exec, execExecuteInstructions, whenOpen_opened hready.1, checkOpcodes_eq]
  by_cases hcount : 5 < ops.length
  · rw [if_pos hcount, if_pos hcount]
    rfl
  rw [if_neg hcount, if_neg hcount]
  by_cases hpast : 127 < s.map.isBase.toNat + ops.length + 1
  · rw [if_pos hpast]
    have hreg : registerOk (isStart s.map ops.length) = false :=
      registerOk_of_outside (.inr (by rw [isStart]; omega))
    exact memWrite_raise s _ _ _ (checkWrite_badRegister hreg _)
  · rw [if_neg hpast]
    have hreg : registerOk (isStart s.map ops.length) = true :=
      registerOk_of_range (by omega) (by rw [isStart]; omega)
    refine (memWrite_of_registerOk hready hreg ops.reverse).trans ?_
    simp only [List.reverse_eq_nil_iff, regIdx_natCast]
    rfl

/-! ## Target reset and replay (R160) -/

/-- The frames of RESET, slot by slot in the order of D16. -/
theorem resetFrames_listed (m : RegMap) (x : Session) :
    resetFrames m x =
      [.write m.wMasterCtl [0xF0],
       .write m.wAddrU[0] [x.bp[0].upper], .write m.wAddrH[0] [x.bp[0].high], .write m.wAddrL[0] [x.bp[0].low],
       .write m.wAddrU[1] [x.bp[1].upper], .write m.wAddrH[1] [x.bp[1].high], .write m.wAddrL[1] [x.bp[1].low],
       .write m.wAddrU[2] [x.bp[2].upper], .write m.wAddrH[2] [x.bp[2].high], .write m.wAddrL[2] [x.bp[2].low],
       .write m.wAddrU[3] [x.bp[3].upper], .write m.wAddrH[3] [x.bp[3].high], .write m.wAddrL[3] [x.bp[3].low],
       .write m.wBrkCtl [x.packCtl]] := rfl

/-- Settles O29: its bursts are the listed frames. -/
theorem resetReplaysTheBreakpoints : Obligations.ResetReplaysTheBreakpoints := by
  intro s hready
  rw [exec, execReset_eq hready, resetFrames_listed, State.respond, State.sentAll_responses]

end Sys2Proof.Machine
end

section
/-! PROOF. O30 to O35, O37, O38, O44: the breakpoint state machine. The packed control byte is the byte of its flags as a
bit list; SET_BREAKPOINT is its checks, then its address writes, then the control write that ends every breakpoint
operation (R170 to R182). -/

namespace Sys2Proof.Machine

/-! ## The packed control byte (R170) -/

/-- Eight bits in wire order are the bits of their byte (R74, R112). -/
theorem byteBits_byteOfBits {bs : List Bit} (h : bs.length = 8) : byteBits (byteOfBits bs) = bs := by
  have hlt : bitsToNumber bs < 2 ^ 8 := h ▸ bitsToNumber_lt bs
  have hround : numberToBits (bitsToNumber bs) 8 = bs := h ▸ numberToBits_bitsToNumber bs
  rw [byteBits, byteOfBits, BitVec.toNat_ofNat, Nat.mod_eq_of_lt hlt, hround]

/-- The flags, read from the most significant end, are a bit list in wire order. -/
theorem packFlags_eq_byteOfBits (singleStep ign0 ign1 en0 en1 en2 en3 breakNow : Bool) :
    packFlags singleStep ign0 ign1 en0 en1 en2 en3 breakNow =
      byteOfBits [breakNow, en3, en2, en1, en0, ign1, ign0, singleStep] := by
  refine congrArg (BitVec.ofNat 8) ?_
  simp only [bitsToNumber, List.length_cons, List.length_nil]
  omega

/-- The control byte on the wire (R74, R170). -/
theorem byteBits_packCtl (x : Session) :
    byteBits x.packCtl =
      [x.breakNow, x.en[3], x.en[2], x.en[1], x.en[0], x.ignLow[1], x.ignLow[0], x.singleStep] := by
  rw [Session.packCtl, packFlags_eq_byteOfBits]
  exact byteBits_byteOfBits rfl

/-- Settles O30: the bits of the control byte on the wire, the last one bit 0. -/
theorem controlByteLayout : Obligations.ControlByteLayout := by
  intro x
  have hbits := byteBits_packCtl x
  simp only [byteBits, numberToBits, List.cons.injEq] at hbits
  obtain ⟨h7, h6, h5, h4, h3, h2, h1, h0, -⟩ := hbits
  exact ⟨h0, h1, h2, h3, h4, h5, h6, h7⟩

/-! ## The checks of SET_BREAKPOINT (R174, R192) -/

theorem checkSet_badSlot {id : Int} (h : id < 0 ∨ 3 < id) (u hi : Int) (l : Option Int) :
    checkSet id u hi l = .error .badSlot := by
  rw [checkSet, slotOf_none id h]

theorem checkSet_wildcardSlot {i : Fin 4} (hi : ¬ i.val < 2) (u h : Int) :
    checkSet i.val u h none = .error .wildcardSlot := by
  rw [checkSet, slotOf_val]
  exact if_pos ⟨rfl, hi⟩

theorem byteOk_eq_false {v : Int} : byteOk v = false ↔ v < 0 ∨ 255 < v := by
  simp only [byteOk, Bool.and_eq_false_iff, decide_eq_false_iff_not]
  omega

theorem checkSet_badAddressByte {i : Fin 4} {u h : Int} {l : Option Int} (hl : l = none → i.val < 2)
    (hbad : (u < 0 ∨ 255 < u) ∨ (h < 0 ∨ 255 < h) ∨ ∃ v, l = some v ∧ (v < 0 ∨ 255 < v)) :
    checkSet i.val u h l = .error .badAddressByte := by
  have hwild : ¬ (l = none ∧ ¬ i.val < 2) := fun ⟨hnone, hi⟩ => hi (hl hnone)
  have hbytes : ¬ ((byteOk u && byteOk h && l.all byteOk) = true) := by
    rw [Bool.not_eq_true, Bool.and_eq_false_iff, Bool.and_eq_false_iff]
    rcases hbad with hu | hh | ⟨v, rfl, hv⟩
    · exact .inl (.inl (byteOk_eq_false.mpr hu))
    · exact .inl (.inr (byteOk_eq_false.mpr hh))
    · exact .inr (byteOk_eq_false.mpr hv)
  rw [checkSet, slotOf_val]
  exact (if_neg hwild).trans (if_neg hbytes)

/-- Operands that pass the checks name the slot of their id. -/
theorem slotOf_of_checkSet {id u h : Int} {l : Option Int} {q : SetArgs} (hq : checkSet id u h l = .ok q) :
    slotOf id = some q.slot := by
  unfold checkSet at hq
  split at hq
  · cases hq
  · split at hq
    · cases hq
    · split at hq <;> cases hq
      assumption

/-- A failed check is the whole command (R190). -/
theorem execSetBreakpoint_raise {s : State} (ho : s.link = .opened) {id u h : Int} {l : Option Int} {c : Cause}
    (hc : checkSet id u h l = .error c) : execSetBreakpoint id u h l s = .next (s.respond (.error c)) := by
  rw [execSetBreakpoint, whenOpen_opened ho, hc]
  rfl

theorem exists_slot_of_range {id : Int} (h0 : 0 ≤ id) (h3 : id ≤ 3) : ∃ i : Fin 4, id = i.val :=
  ⟨⟨id.toNat, by omega⟩, by simp [h0]⟩

/-- Settles O32: each clause is one check of R174, the earlier ones passed. -/
theorem setBreakpointChecksInOrder : Obligations.SetBreakpointChecksInOrder := by
  intro s id u h l ho
  refine ⟨fun hid => execSetBreakpoint_raise ho (checkSet_badSlot hid u h l), ?_, ?_⟩
  · rintro hid rfl
    obtain ⟨i, rfl⟩ := exists_slot_of_range (id := id) (by omega) (by omega)
    exact execSetBreakpoint_raise ho (checkSet_wildcardSlot (by omega) u h)
  · intro h0 h3 hl hbad
    obtain ⟨i, rfl⟩ := exists_slot_of_range h0 h3
    exact execSetBreakpoint_raise ho (checkSet_badAddressByte (fun hnone => by exact_mod_cast hl hnone)
      (by simpa only [or_assoc] using hbad))

/-! ## SET_BREAKPOINT and the snapshot (R174, R182) -/

/-- Settles O31: with valid operands the operation is its address writes and its control write. -/
theorem setBreakpointWritesWhatDiffers : Obligations.SetBreakpointWritesWhatDiffers := by
  intro s i u h l hready hl x
  rw [exec, execSetBreakpoint_ok hready (checkSet_ok i u h l hl), State.respond, State.withSession_responses,
    State.sentAll_responses]
  rfl

/-- Settles O37: on an open Link the operation is its response. -/
theorem getBreakpointStateIsReadOnly : Obligations.GetBreakpointStateIsReadOnly := fun _ ho =>
  whenOpen_opened ho _

/-- The enabled flags after SET_BREAKPOINT (R174). -/
theorem Session.afterSet_en (x : Session) (q : SetArgs) (j : Fin 4) :
    (x.afterSet q).en[j] = if j = q.slot then true else x.en[j] := by
  change (x.en.set q.slot true)[j] = _
  simp [Vector.getElem_set, Fin.ext_iff, eq_comm]

/-- The wildcard flags after SET_BREAKPOINT: slots 2 and 3 have none (R30, R174). -/
theorem Session.afterSet_ignLow (x : Session) (q : SetArgs) (j : Fin 2) :
    (x.afterSet q).ignLow[j] = if q.slot.val = j.val then q.low.isNone else x.ignLow[j] := by
  change (x.ignLow.setIfInBounds q.slot.val q.low.isNone)[j.val] = _
  exact Vector.getElem_setIfInBounds _

/-- Settles O33: the snapshot is that of the Session after SET_BREAKPOINT, field by field. -/
theorem snapshotAfterSetBreakpoint : Obligations.SnapshotAfterSetBreakpoint := by
  intro s i u h l hready hl
  let q : SetArgs := ⟨i, u, h, l⟩
  refine ⟨_, _, (s.session.afterSet q).snapshot, setBreakpointWritesWhatDiffers s i u h l hready hl,
    getBreakpointStateIsReadOnly _ ((State.sentAll_link _ _).trans hready.1), rfl, ?_, ?_, ?_, ?_, ?_, rfl⟩
  · exact (s.session.afterSet_en q i).trans (if_pos rfl)
  · exact (s.session.afterSet_slot q i).trans (if_pos rfl)
  · exact fun j hj => (s.session.afterSet_ignLow q j).trans (if_pos hj)
  · exact fun j hj => ⟨(s.session.afterSet_en q j).trans (if_neg hj), (s.session.afterSet_slot q j).trans (if_neg hj)⟩
  · exact fun j hj => (s.session.afterSet_ignLow q j).trans (if_neg hj)

/-! ## The operations that are one control write (R171, R176, R178, R180) -/

/-- On a ready controller such an operation is its control write (R171). -/
theorem ctlCommand_eq {s : State} (hready : s.ready) (x : Session) :
    whenOpen s (writeCtl (s.withSession x)) = .next
      { s.sent (.write s.map.wBrkCtl [x.packCtl]) with session := x, responses := s.responses ++ [.ok .unit] } := by
  rw [whenOpen_opened hready.1]
  exact writeCtl_eq (State.withSession_ready _ hready)

/-- Settles O35: the operation is its control write. -/
theorem breakNowSetsTheFlag : Obligations.BreakNowSetsTheFlag := fun _ hready => ctlCommand_eq hready _

theorem execDisableBreakpoint_slot (i : Fin 4) (s : State) :
    execDisableBreakpoint i.val s = whenOpen s (writeCtl (s.withSession (s.session.setEnabled i false))) := by
  rw [execDisableBreakpoint, slotOf_val]

theorem execDisableBreakpoint_raise {s : State} (ho : s.link = .opened) {id : Int} (hid : id < 0 ∨ 3 < id) :
    execDisableBreakpoint id s = .next (s.respond (.error .badSlot)) := by
  rw [execDisableBreakpoint, whenOpen_opened ho, slotOf_none id hid]
  rfl

/-- Settles O34: with a valid id the operation is its control write, and the slot check stands before it. -/
theorem disableBreakpointKeepsTheAddress : Obligations.DisableBreakpointKeepsTheAddress := fun s =>
  ⟨fun i hready => (execDisableBreakpoint_slot i s).trans (ctlCommand_eq hready _),
    fun _ ho hid => execDisableBreakpoint_raise ho hid⟩

/-! ## What every breakpoint operation does when it answers (R171) -/

/-- A breakpoint operation that is answered with Ok: the frames before its control write, then the control byte of the
Session it leaves. -/
def EndsWithCtl (s t : State) (fs : List Frame) : Prop :=
  t = ((s.sentAll (fs ++ [.write s.map.wBrkCtl [t.session.packCtl]])).withSession t.session).respond (.ok .unit)

theorem ctlCommand_ends {s t : State} {x : Session} (hx : whenOpen s (writeCtl (s.withSession x)) = .next t) :
    EndsWithCtl s t [] := by
  obtain ⟨-, ht⟩ := writeCtl_next (whenOpen_eq_next hx).2
  rw [EndsWithCtl, ctlCommand_session hx, List.nil_append, State.sentAll_cons, State.sentAll_nil,
    State.withSession_sent]
  exact ht

theorem execDisableBreakpoint_ctl {id : Int} {s t : State} (hx : execDisableBreakpoint id s = .next t) :
    (∃ c, t = s.respond (.error c)) ∨ EndsWithCtl s t [] := by
  obtain ⟨ho, hx⟩ := whenOpen_eq_next hx
  split at hx
  · cases hx
    exact .inl ⟨_, rfl⟩
  · exact .inr (ctlCommand_ends ((whenOpen_opened ho _).trans hx))

theorem execSetBreakpoint_ctl {id u h : Int} {l : Option Int} {s t : State}
    (hx : execSetBreakpoint id u h l s = .next t) :
    (∃ c, t = s.respond (.error c)) ∨
      ∃ q, slotOf id = some q.slot ∧ EndsWithCtl s t (addressFrames s.map s.session q) := by
  obtain ⟨-, ⟨c, -, rfl⟩ | ⟨q, hq, -, rfl⟩⟩ := execSetBreakpoint_next hx
  · exact .inl ⟨c, rfl⟩
  · exact .inr ⟨q, slotOf_of_checkSet hq, rfl⟩

/-- A rejection is not answered with Ok. -/
theorem respond_error_ne_ok {s : State} {c : Cause} {v : Value} :
    (s.respond (.error c)).responses ≠ s.responses ++ [.ok v] := by
  simp

theorem EndsWithCtl.frames {s t : State} {fs : List Frame} (h : EndsWithCtl s t fs) :
    t.frames = s.frames ++ fs ++ [.write s.map.wBrkCtl [t.session.packCtl]] := by
  have hf := congrArg State.frames h
  rwa [State.respond_frames, State.withSession_frames, State.sentAll_frames, ← List.append_assoc] at hf

/-- Settles O38: an Ok answer excludes the rejection, and what is left ends with the control write. -/
theorem breakpointOperationsEndWithTheControlWrite : Obligations.BreakpointOperationsEndWithTheControlWrite := by
  rintro i s t (⟨id, u, h, l, rfl⟩ | ⟨id, rfl⟩ | rfl | ⟨b, rfl⟩) hx hok
  · obtain ⟨c, rfl⟩ | ⟨q, -, hctl⟩ := execSetBreakpoint_ctl hx
    · exact absurd hok respond_error_ne_ok
    · exact ⟨_, hctl.frames⟩
  · obtain ⟨c, rfl⟩ | hctl := execDisableBreakpoint_ctl hx
    · exact absurd hok respond_error_ne_ok
    · exact ⟨_, hctl.frames⟩
  · exact ⟨_, (ctlCommand_ends hx).frames⟩
  · exact ⟨_, (ctlCommand_ends hx).frames⟩

/-! ## The memory frame (R58, R61) -/

/-- A differential write changes no other register, whatever the controller's copy holds. -/
theorem State.read_differential_of_ne {s : State} (hw : s.dev.w.wf = true) {a : RegIdx} (ha : a ≠ s.map.wMasterCtl)
    {y : Nat} (hy : y ≠ a.toNat) (cached : Byte) (v : Option Byte) :
    (s.sentAll (differential a cached v)).dev.w.read y = s.dev.w.read y := by
  cases v with
  | none => rfl
  | some v =>
    rw [differential]
    split
    · rfl
    · exact (Dev.read_write_one hw ha v y).trans (if_neg hy)

/-- The address writes of SET_BREAKPOINT change only the three registers of the slot. -/
theorem State.read_addressFrames_of_ne {s : State} (hd : DistinctRegs s.map) (hw : s.dev.w.wf = true) (q : SetArgs)
    {y : Nat} (hu : y ≠ s.map.wAddrU[q.slot].toNat) (hh : y ≠ s.map.wAddrH[q.slot].toNat)
    (hl : y ≠ s.map.wAddrL[q.slot].toNat) :
    (s.sentAll (addressFrames s.map s.session q)).dev.w.read y = s.dev.w.read y := by
  have hmU := hd.master _ (wAddrU_mem_breakRegs s.map q.slot)
  have hmH := hd.master _ (wAddrH_mem_breakRegs s.map q.slot)
  have hmL := hd.master _ (wAddrL_mem_breakRegs s.map q.slot)
  have hwU := State.sentAll_wf hw (differential s.map.wAddrU[q.slot] (s.session.slot q.slot).upper (some q.upper))
  rw [addressFrames_eq, State.sentAll_append, State.sentAll_append,
    State.read_differential_of_ne (State.sentAll_wf hwU _) (by simpa using hmL) hl,
    State.read_differential_of_ne hwU (by simpa using hmH) hh, State.read_differential_of_ne hw hmU hu]

/-- The control write changes only the control register. -/
theorem EndsWithCtl.read_of_ne {s t : State} {fs : List Frame} (h : EndsWithCtl s t fs) (hd : DistinctRegs s.map)
    (hw : s.dev.w.wf = true) {y : Nat} (hy : y ≠ s.map.wBrkCtl.toNat) :
    t.dev.w.read y = (s.sentAll fs).dev.w.read y := by
  have hm := hd.master _ (wBrkCtl_mem_breakRegs s.map)
  rw [h, State.respond_dev, State.withSession_dev, State.sentAll_append, State.sentAll_cons, State.sentAll_nil,
    State.sent_dev, Dev.read_write_one (State.sentAll_wf hw fs) (by simpa using hm), if_neg hy]

theorem EndsWithCtl.read_space {s t : State} {fs : List Frame} (h : EndsWithCtl s t fs) : t.dev.r = s.dev.r := by
  rw [h, State.respond_dev, State.withSession_dev, State.sentAll_dev_r]

/-- Settles O44: the frames of the operation name its registers only. -/
theorem breakpointOperationsStoreOnlyTheirRegisters : Obligations.BreakpointOperationsStoreOnlyTheirRegisters := by
  intro i s t slots hi hdistinct hw hx
  have hd := distinctRegs hdistinct
  rcases hi with ⟨j, u, h, l, rfl, rfl⟩ | ⟨⟨id, rfl⟩, rfl⟩ | ⟨rfl, rfl⟩ | ⟨⟨b, rfl⟩, rfl⟩
  · obtain ⟨c, rfl⟩ | ⟨q, hq, hctl⟩ := execSetBreakpoint_ctl hx
    · exact ⟨rfl, fun _ _ _ => rfl⟩
    · obtain rfl : j = q.slot := Option.some.inj ((slotOf_val j).symm.trans hq)
      refine ⟨hctl.read_space, fun y hy hslot => ?_⟩
      obtain ⟨hu, hh, hl⟩ := hslot _ (List.mem_singleton_self _)
      rw [hctl.read_of_ne hd hw hy, State.read_addressFrames_of_ne hd hw q hu hh hl]
  · obtain ⟨c, rfl⟩ | hctl := execDisableBreakpoint_ctl hx
    · exact ⟨rfl, fun _ _ _ => rfl⟩
    · exact ⟨hctl.read_space, fun _ hy _ => hctl.read_of_ne hd hw hy⟩
  · exact ⟨(ctlCommand_ends hx).read_space, fun _ hy _ => (ctlCommand_ends hx).read_of_ne hd hw hy⟩
  · exact ⟨(ctlCommand_ends hx).read_space, fun _ hy _ => (ctlCommand_ends hx).read_of_ne hd hw hy⟩

end Sys2Proof.Machine
end

section
/-! PROOF. O39, O41: what a rejection and a refusal leave behind. A command answered with Error ran no burst; and but for
LINK_OPEN and the four Link primitives, every operation stands behind the check that the Link is open (R190, R200). -/

namespace Sys2Proof.Machine

/-! ## The answer Error (R190) -/

/-- A state answered with Ok is not answered with Error. -/
theorem responses_ne_error_of_ok {s t : State} {v : Value} (hok : t.responses = s.responses ++ [.ok v]) (c : Cause) :
    t.responses ≠ s.responses ++ [.error c] := by
  simp [hok]

/-- A rejection answers the one cause that it is answered with. -/
theorem respond_error_eq {s : State} {c c' : Cause}
    (herr : (s.respond (.error c')).responses = s.responses ++ [.error c]) :
    s.respond (.error c') = s.respond (.error c) := by
  have hc : [Response.error c'] = [.error c] := List.append_cancel_left herr
  rw [List.singleton_inj.mp hc]

/-- A run of bursts is answered with Ok: a command made of bursts that is answered with Error was rejected. -/
theorem BurstCommand.eq_respond_error {s t : State} (h : BurstCommand s t) {c : Cause}
    (herr : t.responses = s.responses ++ [.error c]) : t = s.respond (.error c) := by
  obtain ⟨c', rfl⟩ | ⟨u, v, hb, rfl⟩ := h
  · exact respond_error_eq herr
  · have hok : (u.respond (.ok v)).responses = s.responses ++ [.ok v] := by rw [State.respond_responses, hb.responses]
    exact absurd herr (responses_ne_error_of_ok hok c)

/-- Settles O39, by what an operation can do: an internal operation adds no response, LINK_OPEN and CLOSE that run answer
Ok, and so does a run of bursts. What is left is the rejection, which only responds. -/
theorem contractViolationChangesNothing : Obligations.ContractViolationChangesNothing := by
  intro i s t c hx herr
  cases hi : i.isHostCommand with
  | false =>
    rw [internal_responses hi hx] at herr
    simp at herr
  | true =>
    rcases hostCommand_cases hi hx with
      ⟨p, d, f, -, -, ⟨-, rfl⟩ | ⟨-, rfl⟩⟩ | ⟨-, -, rfl⟩ | ⟨-, hb⟩
    · exact respond_error_eq herr
    · exact absurd herr (responses_ne_error_of_ok rfl c)
    · exact absurd herr (responses_ne_error_of_ok rfl c)
    · exact hb.eq_respond_error herr

/-! ## The life of the Link (R22, R200) -/

/-- The operations that do not stand behind `whenOpen`: LINK_OPEN, which opens the Link, and the four Link primitives,
whose own preconditions fault (R90 to R94). -/
def runsUnguarded : Instr → Bool
  | .linkOpen _ _ _ => true
  | .start => true
  | .writeBit _ => true
  | .clockLow => true
  | .readBit => true
  | _ => false

/-- Every other operation first asks for an open Link (R22). -/
theorem exec_eq_whenOpen {i : Instr} (hi : runsUnguarded i = false) (s : State) : ∃ k, exec i s = whenOpen s k := by
  cases i with
  | linkOpen | start | writeBit | clockLow | readBit => exact absurd hi.symm Bool.false_ne_true
  | _ => exact ⟨_, rfl⟩

theorem exec_refused_of_not_opened {i : Instr} {s : State} (hi : runsUnguarded i = false) (hl : s.link ≠ .opened) :
    exec i s = .refused .lifecycle := by
  obtain ⟨k, hk⟩ := exec_eq_whenOpen hi s
  rw [hk, whenOpen_not hl]

/-- Settles O41: LINK_OPEN checks that the controller is unopened; every operation but it and the Link primitives checks
that the Link is open. -/
theorem commandsOutsideTheLinksLifeAreRefused : Obligations.CommandsOutsideTheLinksLifeAreRefused := by
  intro s
  refine ⟨fun c d f hl => ?_, fun i hl hopen hstart hwrite hclock hread => ?_⟩
  · rw [exec, execLinkOpen_eq, if_pos hl]
  · refine exec_refused_of_not_opened ?_ hl
    cases i with
    | linkOpen c d f => exact absurd rfl (hopen c d f)
    | start => exact absurd rfl hstart
    | writeBit v => exact absurd rfl (hwrite v)
    | clockLow => exact absurd rfl hclock
    | readBit => exact absurd rfl hread
    | _ => rfl

end Sys2Proof.Machine
end
